-- ==== Sys2Proof/Word.lean ====
section
/-! DEFINITION. Word.lean: the word types of HUFENC (00_scope.md R6, R9; 10_state.md R20). All are unsigned. -/
namespace Sys2Proof

/-- A byte of a stream, also a Symbol (R12). -/
abbrev Byte := BitVec 8

/-- An occurrence count or a frequency, CW = 32 bits (R6), and a response word, RSPW = 32 bits. -/
abbrev Word32 := BitVec 32

/-- A command word, CMDW = 12 bits (R6, R90). -/
abbrev CmdWord := BitVec 12

/-- A node's arena index, 9 bits; bit 8 is the tag, 0 Leaf and 1 Internal (10_state.md R36). -/
abbrev NodeId := BitVec 9

/-- A CODE_BITS entry, CODEW = 256 bits (R6). -/
abbrev CodeBits := BitVec 256

end Sys2Proof
end

