-- ==== Sys2Proof/Syntax.lean ====
section
/-! DEFINITION. Syntax.lean: the operations of HUFENC, one constructor per mnemonic of spec/opcode_table.json
(30_encoding.md R91, R104), and the two closed sets of names the encodings speak of: the sequencer's states (R95)
and, as an operand, the heap entry (R98). ABORT's two rows and RDREG's three rows are one constructor each: the
rows split only the values of one operand (R91). -/
namespace Sys2Proof

/-- The sequencer's states (30_encoding.md R95). Codes 13 and 14 are never entered and have no name (log 16). -/
inductive SeqState where
  | idle | init | scan | load | xa | xb | ins | root | gen | pack | emit | flush | done | fault
  deriving DecidableEq, Repr

/-- A heap entry {freq, node} (30_encoding.md R98): the sort key and an arena index. -/
structure HeapEntry where
  freq : Word32
  node : NodeId
  deriving DecidableEq, Repr

/-- The host commands (R91), the internal operations selected by SEQ, by the queue's request port or by a
caller, and OUT_POP (R104). -/
inductive Instr where
  -- host commands, control and stream class
  | nop
  | start
  | byte (d : Byte)
  | eos
  | clear
  | selsym (s : Byte)
  | abort (k : Byte)
  -- host commands, read class
  | rdfreq
  | rdlen
  | rdcode (w : Byte)
  | rdreg (r : Byte)
  -- Frequency Scanner
  | init
  | freqInc (d : Byte)
  -- Priority Queue
  | heapifyDown (i : Byte)
  | buildHeap
  | pqInsert (e : HeapEntry)
  | pqExtractMin
  -- Tree Builder
  | tbLoad
  | tbXa
  | tbXb
  | tbIns
  | tbRoot
  -- Code Table Generator and Code Table
  | cgGen
  | cgTraverse
  | cgSingle
  | ctLookup (d : Byte)
  -- Bit-Packed Writer and the output port
  | bpLatch (d : Byte)
  | bpPutBit (b : Bool)
  | bpEmit
  | bpFlush
  | outPop
  deriving DecidableEq, Repr

end Sys2Proof
end

