-- ==== Sys2Proof/WellFormed.lean ====
section
/-! DEFINITION. WellFormed.lean: which operand values the encodings of 30_encoding.md R91 to R93 admit. -/
namespace Sys2Proof

/-- An operation's operand is one the encodings admit: ABORT takes k = 1 or 2, RDCODE w = 0 to 7, RDREG r = 0 to 13
(R91, R93), and a heap entry names a node that exists, so not index 511 (10_state.md R36, 93 S11). -/
def Instr.wellFormed : Instr → Bool
  | .abort k => k == 1 || k == 2
  | .rdcode w => decide (w < 8)
  | .rdreg r => decide (r < 14)
  | .pqInsert e => e.node != 511
  | .nop | .start | .byte _ | .eos | .clear | .selsym _ | .rdfreq | .rdlen => true
  | .init | .freqInc _ | .heapifyDown _ | .buildHeap | .pqExtractMin => true
  | .tbLoad | .tbXa | .tbXb | .tbIns | .tbRoot => true
  | .cgGen | .cgTraverse | .cgSingle | .ctLookup _ => true
  | .bpLatch _ | .bpPutBit _ | .bpEmit | .bpFlush | .outPop => true

end Sys2Proof
end

