-- ==== Sys2Proof/Decode.lean ====
section
/-! DEFINITION. Decode.lean: the decoder of HUFENC's three encodings (30_encoding.md R90 to R97), total, rejecting
by name, and the encoder after it. An operation is selected by a command word (R91), by a SEQ code (R95) or by a
request on the queue's port (R97); the SUBOP and PORT rows of R104 have no encoding. -/
namespace Sys2Proof

/-- OP, bits 11:8 of a command word (R90). -/
def opField (w : CmdWord) : BitVec 4 := w.extractLsb' 8 4

/-- ARG, bits 7:0 of a command word (R90). -/
def argField (w : CmdWord) : Byte := w.extractLsb' 0 8

/-- The command word {OP, ARG} (R90). -/
def cmdWord (op : BitVec 4) (arg : Byte) : CmdWord := op ++ arg

/-- The class bit, bit 11: 1 = read class (R90). -/
def isRead (w : CmdWord) : Bool := w.getLsbD 11

/-- HeapEntry format, 41 bits: bits 40:9 `freq`, bits 8:0 `node` (R98). -/
def packEntry (e : HeapEntry) : BitVec 41 := e.freq ++ e.node

/-- The heap entry a 41-bit value holds (R98). -/
def unpackEntry (v : BitVec 41) : HeapEntry := ⟨v.extractLsb' 9 32, v.extractLsb' 0 9⟩

/-- Why a word, code or request selects no operation. The first five are the malformed command words of R93. -/
inductive DecodeError where
  | reservedOp (op : BitVec 4)
  | argNotZero (arg : Byte)
  | abortKind (k : Byte)
  | codeWordNumber (w : Byte)
  | registerNumber (r : Byte)
  /-- A ready state: CORE has no operation (R95). -/
  | noOperation (c : BitVec 4)
  /-- SEQ codes 13 and 14 (R95). -/
  | reservedSeq (c : BitVec 4)
  /-- PQ_OP = 00: no request (R97). -/
  | noRequest
  /-- PQ_OP = 11: reserved (R97). -/
  | reservedRequest
  /-- Node index 511 does not exist (10_state.md R36). -/
  | noSuchNode
  deriving DecidableEq, Repr

/-- What selects an operation (R104, column "format"). -/
inductive Selector where
  /-- CMD12: a command word. -/
  | cmd (w : CmdWord)
  /-- SEQ: a sequencer state code. -/
  | seq (c : BitVec 4)
  /-- PQREQ: PQ_OP with PQ_IN. -/
  | pq (op : BitVec 2) (pqIn : BitVec 41)
  deriving DecidableEq, Repr

/-- A command without operand requires ARG = 0 (R90). -/
def noOperand (arg : Byte) (i : Instr) : Except DecodeError Instr :=
  if arg = 0 then .ok i else .error (.argNotZero arg)

/-- The opcode map of R91 with the malformed words of R93. -/
def decodeCmd (w : CmdWord) : Except DecodeError Instr :=
  match (opField w).toNat with
  | 0x0 => noOperand (argField w) .nop
  | 0x1 => noOperand (argField w) .start
  | 0x2 => .ok (.byte (argField w))
  | 0x3 => noOperand (argField w) .eos
  | 0x4 => noOperand (argField w) .clear
  | 0x5 => .ok (.selsym (argField w))
  | 0x6 => if argField w = 1 ∨ argField w = 2 then .ok (.abort (argField w)) else .error (.abortKind (argField w))
  | 0x8 => noOperand (argField w) .rdfreq
  | 0x9 => noOperand (argField w) .rdlen
  | 0xA => if argField w < 8 then .ok (.rdcode (argField w)) else .error (.codeWordNumber (argField w))
  | 0xB => if argField w < 14 then .ok (.rdreg (argField w)) else .error (.registerNumber (argField w))
  | _ => .error (.reservedOp (opField w))

/-- The code of a sequencer state (R95). -/
def seqCode : SeqState → BitVec 4
  | .idle => 0
  | .init => 1
  | .scan => 2
  | .load => 3
  | .xa => 4
  | .xb => 5
  | .ins => 6
  | .root => 7
  | .gen => 8
  | .pack => 9
  | .emit => 10
  | .flush => 11
  | .done => 12
  | .fault => 15

/-- The sequencer state of a code; 13 and 14 are reserved (R95). -/
def seqOfCode (c : BitVec 4) : Option SeqState :=
  match c.toNat with
  | 0 => some .idle
  | 1 => some .init
  | 2 => some .scan
  | 3 => some .load
  | 4 => some .xa
  | 5 => some .xb
  | 6 => some .ins
  | 7 => some .root
  | 8 => some .gen
  | 9 => some .pack
  | 10 => some .emit
  | 11 => some .flush
  | 12 => some .done
  | 15 => some .fault
  | _ => none

/-- The internal operation of a busy state (R95); a ready state has none. -/
def opOfState : SeqState → Option Instr
  | .init => some .init
  | .load => some .tbLoad
  | .xa => some .tbXa
  | .xb => some .tbXb
  | .ins => some .tbIns
  | .root => some .tbRoot
  | .gen => some .cgGen
  | .emit => some .bpEmit
  | .flush => some .bpFlush
  | .idle | .scan | .pack | .done | .fault => none

/-- The operation a SEQ code selects (R95, R104). -/
def decodeSeq (c : BitVec 4) : Except DecodeError Instr :=
  match seqOfCode c with
  | none => .error (.reservedSeq c)
  | some q => match opOfState q with
    | some i => .ok i
    | none => .error (.noOperation c)

/-- The operation a request on the queue's port selects (R97). -/
def decodePq (op : BitVec 2) (pqIn : BitVec 41) : Except DecodeError Instr :=
  match op.toNat with
  | 0 => .error .noRequest
  | 1 => if (unpackEntry pqIn).node = 511 then .error .noSuchNode else .ok (.pqInsert (unpackEntry pqIn))
  | 2 => .ok .pqExtractMin
  | _ => .error .reservedRequest

/-- The decoder: what an encoding selects, or why it selects nothing. -/
def decode : Selector → Except DecodeError Instr
  | .cmd w => decodeCmd w
  | .seq c => decodeSeq c
  | .pq op pqIn => decodePq op pqIn

/-- The encoder (R91, R95, R97). None for the SUBOP and PORT rows of R104, which have no encoding. -/
def encode : Instr → Option Selector
  | .nop => some (.cmd (cmdWord 0x0 0))
  | .start => some (.cmd (cmdWord 0x1 0))
  | .byte d => some (.cmd (cmdWord 0x2 d))
  | .eos => some (.cmd (cmdWord 0x3 0))
  | .clear => some (.cmd (cmdWord 0x4 0))
  | .selsym s => some (.cmd (cmdWord 0x5 s))
  | .abort k => some (.cmd (cmdWord 0x6 k))
  | .rdfreq => some (.cmd (cmdWord 0x8 0))
  | .rdlen => some (.cmd (cmdWord 0x9 0))
  | .rdcode w => some (.cmd (cmdWord 0xA w))
  | .rdreg r => some (.cmd (cmdWord 0xB r))
  | .init => some (.seq 1)
  | .tbLoad => some (.seq 3)
  | .tbXa => some (.seq 4)
  | .tbXb => some (.seq 5)
  | .tbIns => some (.seq 6)
  | .tbRoot => some (.seq 7)
  | .cgGen => some (.seq 8)
  | .bpEmit => some (.seq 10)
  | .bpFlush => some (.seq 11)
  | .pqInsert e => some (.pq 1 (packEntry e))
  | .pqExtractMin => some (.pq 2 0)
  | .freqInc _ | .heapifyDown _ | .buildHeap => none
  | .cgTraverse | .cgSingle | .ctLookup _ => none
  | .bpLatch _ | .bpPutBit _ | .outPop => none

/-- The selector a row of spec/opcode_table.json gives: a row of 9 or more bits is a command word, a row of 3 to 8
bits a SEQ code, a row of 2 bits a request with PQ_IN = 0. In 8 bits a value that is no SEQ row's is read as a
request, so the word 1 is INIT and the word 2 is PQ_EXTRACT_MIN (log 11). None for a value too wide for its row. -/
def tableSelector (nbits w : Nat) : Option Selector :=
  if 8 < nbits then (if w < 4096 then some (.cmd (BitVec.ofNat 12 w)) else none)
  else if 2 < nbits ∧ (decodeSeq (BitVec.ofNat 4 w)).toOption.isSome ∧ w < 16 then some (.seq (BitVec.ofNat 4 w))
  else if w < 4 then some (.pq (BitVec.ofNat 2 w) 0) else none

/-- The instruction the decoder reads from a row of the opcode table. -/
def decodeTableWord (nbits w : Nat) : Option Instr :=
  (tableSelector nbits w).bind fun sel => (decode sel).toOption

end Sys2Proof
end

