-- ==== Sys2Proof/Config.lean ====
section
/-! DEFINITION. Config.lean: the parameters of HUFENC (00_scope.md R6) that are numbers.
Widths stand in the types of Word.lean. OUT_DEPTH, the one OPEN parameter, is a field of State (log 5);
its default stands here. -/
namespace Sys2Proof.Config

/-- NSYM (R6): the number of symbols, entries of FREQ and of the code table. -/
abbrev nsym : Nat := 256

/-- HEAP_CAP (R6): entries of the heap array. -/
abbrev heapCap : Nat := 256

/-- Entries of the node arena, indices 256 to 510 (R6 NODE_CAP less the 256 leaves, R36). -/
abbrev arenaCap : Nat := 255

/-- The index of the arena's first entry (R36): an index below it is a Leaf. -/
abbrev arenaBase : Nat := 256

/-- MAXLEN_BYTES (R6): the largest input length in bytes of a scan pass. -/
abbrev maxLenBytes : Nat := 2 ^ 32 - 1

/-- The most pops a traversal of a tree of at most 256 leaves performs (46_sequencer.md R228). -/
abbrev maxPops : Nat := 511

/-- The default of the OPEN parameter OUT_DEPTH (R6). -/
abbrev outDepthDefault : Nat := 1

end Sys2Proof.Config
end

