-- ==== Sys2Proof/Machine/State.lean ====
section
/-! DEFINITION. Machine/State.lean: the state of HUFENC (10_state.md R20), the wires and port values an operation's
result stands on, and the model's own fields (INVENTORY.md '## State'); the state after reset (70_reset_and_hazards.md
R280); the reasons a step can stop. -/
namespace Sys2Proof.Machine

/-- The error kinds, the values of ERR (60_exceptions.md R250). Codes 9 to 15 are never written and have no name
(log 16). -/
inductive ErrKind where
  | none | inputUnavailable | outputUnwritable | emptyAlphabet | missingCode | lengthOverflow | illegalCommand
  | queueEmpty | queueFull
  deriving DecidableEq, Repr

/-- An array of n entries, whole and of fixed length: its entries in order of index. Two equal arrays are equal data. -/
structure Arr (α : Type) (n : Nat) where
  cells : List α
  size : cells.length = n
  deriving DecidableEq, Repr

/-- The array whose n entries are all x. -/
def Arr.fill {α : Type} (n : Nat) (x : α) : Arr α n := ⟨List.replicate n x, List.length_replicate⟩

/-- An Internal node of the arena: {NODE_FREQ, NODE_LEFT, NODE_RIGHT} (30_encoding.md R99). -/
structure Node where
  freq : Word32
  left : NodeId
  right : NodeId
  deriving DecidableEq, Repr

/-- A code table entry {CODE_LEN, CODE_BITS} (30_encoding.md R100). `len` = 0 means no code. -/
structure CodeEntry where
  len : Byte
  bits : CodeBits
  deriving DecidableEq, Repr

/-- The Priority Queue: HEAP[0..255] (R35) with HSIZE, 0 to 256 (R27). -/
structure Queue where
  heap : Arr HeapEntry 256
  hsize : Fin 257
  deriving DecidableEq, Repr

/-- The request wires PQ_OP with PQ_IN (30_encoding.md R97; log 7). The machine's own steps leave them idle: the Tree
Builder's requests are part of its own atomic operations. -/
inductive PqReq where
  | idle
  | insert (e : HeapEntry)
  | extractMin
  deriving DecidableEq, Repr

/-- Whose step is next (00_scope.md R8), with `rst` asserted as a turn of its own (R280; log 3). -/
inductive Turn where
  | core | hostCmd | hostOut | rst
  deriving DecidableEq, Repr

/-- The state. The first block is the whole of R20; the second the wires of R97, R194 and R94; the third the model's
own: a parameter, a ghost and the inputs of R44. -/
structure State where
  seq : SeqState
  err : ErrKind
  errInfo : CmdWord
  sel : Byte
  usc : BitVec 9
  total : Word32
  pq : Queue
  nnode : NodeId
  root : NodeId
  ea : HeapEntry
  eb : HeapEntry
  curSym : Byte
  curLen : Byte
  acc : Byte
  nbits : BitVec 3
  freq : Arr Word32 256
  arena : Arr Node 255
  code : Arr CodeEntry 256
  outq : List Byte
  -- wires and port values
  pqReq : PqReq
  pqOut : HeapEntry
  ctOut : CodeEntry
  rsp : Option Word32
  -- the model's own
  outDepth : Nat
  popped : List Byte
  cmds : List CmdWord
  turns : List Turn
  drain : Bool
  deriving DecidableEq, Repr

/-- Why the machine stops. Every one is an access or a loop that the spec says does not exist; a run from reset meets
none (R66, R178), so stopping there is safe: it can hide no behaviour of the hardware (log 13, 14). -/
inductive Fault where
  /-- Raised by TB_INS (its own NNODE) and by CG_TRAVERSE and CG_GEN (a child index): an arena index outside 256 to 510
  (10_state.md R36, 93 S11). Safe. -/
  | arenaIndex (n : NodeId)
  /-- Raised by CG_SINGLE: a code table index above 255; its operand is ROOT < 256 (44_code_table.md R193). Safe. -/
  | codeTableIndex (n : NodeId)
  /-- Raised by CG_TRAVERSE and CG_GEN: subtrees are still pending after the 511 pops that every tree takes at most
  (46_sequencer.md R228), so what ROOT names is no tree. Safe. -/
  | endlessTraversal
  deriving DecidableEq, Repr

/-- Why a step gives no meaning. -/
inductive Refusal where
  /-- Raised by an arm of exec for an instruction that has no meaning yet. Safe. No arm raises it. -/
  | notModelled (mnemonic : String)
  deriving DecidableEq, Repr

/-- An outcome of HUFENC. -/
abbrev Result := Host.Outcome State Fault Refusal

/-- The state right after reset: the "reset" column of R20; the arrays, which R20 leaves unspecified, are all 0
(log 1); the wires hold nothing, the host presents nothing, OUT_DEPTH is its default (log 4 to 9). DESIGN CHOICE: no turn
is listed and HOST-OUT drains (`drain` = true), where the spec leaves the moments of OUT_POP to the host (log 3). -/
def State.reset : State where
  seq := .idle
  err := .none
  errInfo := 0
  sel := 0
  usc := 0
  total := 0
  pq := { heap := Arr.fill 256 ⟨0, 0⟩, hsize := 0 }
  nnode := 256
  root := 0
  ea := ⟨0, 0⟩
  eb := ⟨0, 0⟩
  curSym := 0
  curLen := 0
  acc := 0
  nbits := 0
  freq := Arr.fill 256 0
  arena := Arr.fill 255 ⟨0, 0, 0⟩
  code := Arr.fill 256 ⟨0, 0⟩
  outq := []
  pqReq := .idle
  pqOut := ⟨0, 0⟩
  ctOut := ⟨0, 0⟩
  rsp := none
  outDepth := Config.outDepthDefault
  popped := []
  cmds := []
  turns := []
  drain := true

end Sys2Proof.Machine
end

