-- ==== Sys2Proof/Machine/Flags.lean ====
section
/-! DEFINITION. Machine/Flags.lean: HUFENC has no condition codes (10_state.md R42). What its operations test and what
its pins and STATUS show are pure functions of the state, written here: R39, R41, R42, R226, R250. -/
namespace Sys2Proof.Machine

/-- The code of an error kind (60_exceptions.md R250). -/
def errCode : ErrKind → BitVec 4
  | .none => 0
  | .inputUnavailable => 1
  | .outputUnwritable => 2
  | .emptyAlphabet => 3
  | .missingCode => 4
  | .lengthOverflow => 5
  | .illegalCommand => 6
  | .queueEmpty => 7
  | .queueFull => 8

/-- A busy state accepts no command and has one internal operation; the others are ready (46_sequencer.md R226). -/
def isBusy : SeqState → Bool
  | .init | .load | .xa | .xb | .ins | .root | .gen | .emit | .flush => true
  | .idle | .scan | .pack | .done | .fault => false

/-- OUTQ holds OUT_DEPTH bytes, so `emit` is not enabled (R38). -/
def outFull (s : State) : Bool := decide (s.outDepth ≤ s.outq.length)

/-- `TOTAL = 2^32 − 1` (R42, FREQ_INC). -/
def totalFull (s : State) : Bool := s.total == BitVec.allOnes 32

/-- CORE's operation is defined but waits for room in OUTQ: the hold of R208 and R209. -/
def held (s : State) : Bool :=
  match s.seq with
  | .emit => s.curLen != 0 && s.nbits == 7 && outFull s
  | .flush => s.nbits != 0 && outFull s
  | _ => false

/-- Pin `busy` (R41). -/
def pinBusy (s : State) : Bool := isBusy s.seq

/-- Pin `cmd_ready` (R41). -/
def pinCmdReady (s : State) : Bool := !isBusy s.seq

/-- Pin `done` (R41). -/
def pinDone (s : State) : Bool := s.seq == .done

/-- Pin `fault` (R41). -/
def pinFault (s : State) : Bool := s.seq == .fault

/-- Pin `out_valid` (R41), also STATUS.OUTNE (R39). -/
def pinOutValid (s : State) : Bool := !s.outq.isEmpty

/-- Pin `out_data`: the head byte of OUTQ where `out_valid` is 1 (R41). -/
def pinOutData (s : State) : Option Byte := s.outq.head?

/-- Pin `cmd_valid` (R46): the host presents a word. -/
def pinCmdValid (s : State) : Bool := !s.cmds.isEmpty

/-- STATUS: SEQ in bits 3:0, ERR in 7:4, OUTNE in bit 8, the rest 0 (R39). -/
def statusWord (s : State) : Word32 :=
  (0 : BitVec 23) ++ BitVec.ofBool (pinOutValid s) ++ errCode s.err ++ seqCode s.seq

/-- The ghost sequence EMITTED (R38): the bytes already popped followed by the content of OUTQ. -/
def emitted (s : State) : List Byte := s.popped ++ s.outq

end Sys2Proof.Machine
end

