-- ==== Sys2Proof/Machine/Operands.lean ====
section
/-! DEFINITION. Machine/Operands.lean: every operand form and index mode of HUFENC: whole-entry reads and writes of the
arrays (00_scope.md R10, 20_memory.md R71), the word of a code and the bit of a code (R71), the RDREG words
(10_state.md R40), and the states each command is legal in (40_commands.md R121). -/
namespace Sys2Proof.Machine

/-- Read of a 256-entry array by symbol (R71). -/
def tableGet {α : Type} (a : Arr α 256) (i : Byte) : α := a.cells[i.toNat]'(a.size.symm ▸ i.isLt)

/-- Write of a 256-entry array by symbol (R71). -/
def tableSet {α : Type} (a : Arr α 256) (i : Byte) (x : α) : Arr α 256 :=
  ⟨a.cells.set i.toNat x, List.length_set.trans a.size⟩

/-- The Leaf of a symbol as a node index (10_state.md R36). -/
def leafId (s : Byte) : NodeId := s.setWidth 9

/-- The symbol of a Leaf index, its low 8 bits (R36). -/
def leafSym (n : NodeId) : Byte := n.setWidth 8

/-- A node index below 256 is a Leaf (R36). -/
def isLeaf (n : NodeId) : Bool := decide (n < 256)

/-- Read of HEAP[i]. A caller's position is below HSIZE ≤ 256; the value past the array is never used (log 17). -/
def heapAt (h : Arr HeapEntry 256) (i : Nat) : HeapEntry := h.cells[i]?.getD ⟨0, 0⟩

/-- Write of HEAP[i]. A caller's position is below 256; past the array nothing is written (log 17). -/
def heapPut (h : Arr HeapEntry 256) (i : Nat) (e : HeapEntry) : Arr HeapEntry 256 :=
  ⟨h.cells.set i e, List.length_set.trans h.size⟩

/-- `swap(HEAP[i], HEAP[j])`: exchange of two whole entries (R10). -/
def heapSwap (h : Arr HeapEntry 256) (i j : Nat) : Arr HeapEntry 256 :=
  heapPut (heapPut h i (heapAt h j)) j (heapAt h i)

/-- Read of the arena's node n; an index outside 256 to 510 does not exist (R36; log 13). -/
def arenaGet (a : Arr Node 255) (n : NodeId) : Except Fault Node :=
  match a.cells[n.toNat - Config.arenaBase]? with
  | some nd => if isLeaf n then .error (.arenaIndex n) else .ok nd
  | none => .error (.arenaIndex n)

/-- Write of the arena's node n; an index outside 256 to 510 does not exist (R36; log 13). -/
def arenaSet (a : Arr Node 255) (n : NodeId) (nd : Node) : Except Fault (Arr Node 255) :=
  if isLeaf n ∨ n = 511 then .error (.arenaIndex n) else .ok ⟨a.cells.set (n.toNat - Config.arenaBase) nd, List.length_set.trans a.size⟩

/-- Word w of a CODE_BITS entry: bits 32·w + 31 down to 32·w (20_memory.md R65, R71). -/
def codeWord (c : CodeBits) (w : Byte) : Word32 := c.extractLsb' (32 * w.toNat) 32

/-- The next bit of a code of which `len` bits are still to append: `CODE_BITS[CUR_SYM][CUR_LEN − 1]` (R71). -/
def codeBit (c : CodeBits) (len : Byte) : Bool := c.getLsbD (len.toNat - 1)

/-- The RDREG words (10_state.md R40); 14 to 255 are reserved. -/
def regWord (s : State) (r : Byte) : Option Word32 :=
  match r.toNat with
  | 0 => some (statusWord s)
  | 1 => some (s.usc.setWidth 32)
  | 2 => some s.total
  | 3 => some (s.errInfo.setWidth 32)
  | 4 => some (s.root.setWidth 32)
  | 5 => some (s.nnode.setWidth 32)
  | 6 => some (BitVec.ofNat 32 s.pq.hsize.val)
  | 7 => some (s.sel.setWidth 32)
  | 8 => some ((0 : BitVec 21) ++ s.nbits ++ s.acc)
  | 9 => some s.ea.freq
  | 10 => some (s.ea.node.setWidth 32)
  | 11 => some s.eb.freq
  | 12 => some (s.eb.node.setWidth 32)
  | 13 => some ((0 : BitVec 16) ++ s.curLen ++ s.curSym)
  | _ => none

/-- Legal in every ready state: NOP, CLEAR, SELSYM, RDREG (R121). -/
def legalReady : List SeqState := [.idle, .scan, .pack, .done, .fault]

/-- Legal in S_IDLE: START (R121). -/
def legalStart : List SeqState := [.idle]

/-- Legal in a pass: BYTE, EOS (R121). -/
def legalPass : List SeqState := [.scan, .pack]

/-- Legal in every ready state but S_FAULT: ABORT (R121). -/
def legalAbort : List SeqState := [.idle, .scan, .pack, .done]

/-- Legal once the tables are complete: RDFREQ, RDLEN, RDCODE (R121). -/
def legalTables : List SeqState := [.pack, .done]

end Sys2Proof.Machine
end

