-- ==== Sys2Proof/Machine/Ops.lean ====
section
/-! DEFINITION. Machine/Ops.lean: the operations that several instructions share: the fault entry (60_exceptions.md
R260) and the return from a fault beside it (R263, the reset of the registers), the acceptance of a command
(40_commands.md R120, R121), the response and `emit`. -/
namespace Sys2Proof.Machine

/-- TAKING A FAULT, `raise Kind(info)` (R260): outside S_FAULT it writes ERR, ERRINFO and SEQ and nothing else; in
S_FAULT it does nothing. A step that raises applies this to the state it began with, so that every other write of the
step is discarded. -/
def raise (k : ErrKind) (info : CmdWord) (s : State) : State :=
  if s.seq = .fault then s else { s with err := k, errInfo := info, seq := .fault }

/-- THE RETURN FROM A FAULT AND FROM A RUN: what CLEAR (R132, R282) and `rst` (R280) do. Every scalar register takes
its reset value, OUTQ becomes empty, the arrays are not written (log 2). EMITTED starts again (R38), so the popped
bytes of the run before are forgotten (log 10). The wires and the host's fields are no registers and stay. -/
def toReset (s : State) : State :=
  { s with
    seq := .idle, err := .none, errInfo := 0, sel := 0, usc := 0, total := 0
    pq := { s.pq with hsize := 0 }
    nnode := 256, root := 0, ea := ⟨0, 0⟩, eb := ⟨0, 0⟩, curSym := 0, curLen := 0, acc := 0, nbits := 0
    outq := [], popped := [] }

/-- `respond(w)`: the response word of the read command being accepted (00_scope.md R10, 30_encoding.md R94). -/
def respond (w : Word32) (s : State) : State := { s with rsp := some w }

/-- `emit(b)`: append at the tail of OUTQ (R38). -/
def emit (b : Byte) (s : State) : State := { s with outq := s.outq ++ [b] }

/-- A read-class word that is not executed answers 0; a word of the other class answers nothing (R94). -/
def respondZero (w : CmdWord) (s : State) : State := if isRead w then respond 0 s else s

/-- What a malformed or misplaced word does when it is accepted: IllegalCommand with ERRINFO = the word, or in S_FAULT
nothing; in both cases the response 0 if it is read class (30_encoding.md R93, R256, R261). -/
def illegalCommand (w : CmdWord) (s : State) : State := respondZero w (raise .illegalCommand w s)

/-- The acceptance of a command with the word w (R120): in a busy state it is held and nothing changes; in a ready
state a malformed operand or a state that is not one of its legal ones is an illegal command; otherwise the command's
own effect. -/
def accept (w : CmdWord) (operandOk : Bool) (legal : List SeqState) (s : State) (effect : State) : Result :=
  if isBusy s.seq then .next s
  else if operandOk ∧ s.seq ∈ legal then .next effect
  else .next (illegalCommand w s)

/-- The end of an operation that may raise: its own result, or the fault entry applied to the state the step began
with (R260). -/
def settle (info : CmdWord) (s : State) : Except ErrKind State → Result
  | .ok t => .next t
  | .error k => .next (raise k info s)

end Sys2Proof.Machine
end

