-- ==== Sys2Proof/Machine/BitPacker.lean ====
section
/-! DEFINITION. Machine/BitPacker.lean: the Bit-Packed Writer, BP_LATCH, BP_PUT_BIT, BP_EMIT and BP_FLUSH, and the
output port's OUT_POP (45_bit_packer.md). An operation that is held, or not enabled, changes nothing (log 6). -/
namespace Sys2Proof.Machine

/-- BP_LATCH(d) (R206). -/
def bpLatch (d : Byte) (s : State) : State :=
  { s with curSym := d, curLen := (tableGet s.code d).len, seq := .emit }

/-- The accumulator with one bit appended: `((ACC << 1) | b)[7:0]` (R207). -/
def shiftIn (b : Bool) (acc : Byte) : Byte := (acc <<< 1) ||| (BitVec.ofBool b).setWidth 8

/-- BP_PUT_BIT(b)'s effect (R207): the eighth bit emits the byte and resets the accumulator. -/
def putBit (b : Bool) (s : State) : State :=
  if s.nbits = 7 then { emit (shiftIn b s.acc) s with acc := 0, nbits := 0 }
  else { s with acc := shiftIn b s.acc, nbits := s.nbits + 1 }

/-- Appending a bit would emit and OUTQ has no room: the hold of R208. -/
def putHeld (s : State) : Bool := s.nbits == 7 && outFull s

/-- The bits pending at the end, moved to the high-order end with zeros below: `(ACC << (8 − NBITS))[7:0]` (R209). -/
def flushByte (s : State) : Byte := s.acc <<< (8 - s.nbits.toNat)

/-- BP_LATCH as an operation by itself (R206, R104). -/
def execBpLatch (d : Byte) (s : State) : Result := .next (bpLatch d s)

/-- BP_PUT_BIT as an operation by itself (R207, R104): `emit` is enabled only when OUTQ has room (R38). -/
def execBpPutBit (b : Bool) (s : State) : Result := if putHeld s then .next s else .next (putBit b s)

/-- BP_EMIT (R208): back to S_PACK when the whole code is appended, else the next bit, held while it would emit into a
full OUTQ. -/
def execBpEmit (s : State) : Result :=
  if s.curLen = 0 then .next { s with seq := .pack }
  else if putHeld s then .next s
  else .next { putBit (codeBit (tableGet s.code s.curSym).bits s.curLen) s with curLen := s.curLen - 1 }

/-- BP_FLUSH (R209): the last 1 to 7 bits as one byte, held while OUTQ is full; nothing when none is pending. -/
def execBpFlush (s : State) : Result :=
  if s.nbits = 0 then .next { s with seq := .done }
  else if outFull s then .next s
  else .next { emit (flushByte s) s with acc := 0, nbits := 0, seq := .done }

/-- OUT_POP (R210): the oldest emitted byte goes to the host; not enabled when OUTQ is empty. -/
def execOutPop (s : State) : Result :=
  match s.outq with
  | [] => .next s
  | b :: rest => .next { s with outq := rest, popped := s.popped ++ [b] }

end Sys2Proof.Machine
end

