-- ==== Sys2Proof/Machine/CodeTable.lean ====
section
/-! DEFINITION. Machine/CodeTable.lean: the Code Table Generator and the code table, CG_GEN, CG_TRAVERSE, CG_SINGLE and
CT_LOOKUP (44_code_table.md). -/
namespace Sys2Proof.Machine

/-- A pending subtree of R192's stack: (node, len, bits). The stack is local to the operation. -/
structure Pending where
  node : NodeId
  len : Byte
  bits : CodeBits
  deriving DecidableEq, Repr

/-- The two subtrees of an Internal node, left on top: left appends '0', right appends '1' (R192). -/
def children (p : Pending) (nd : Node) : List Pending :=
  [⟨nd.left, p.len + 1, p.bits <<< 1⟩, ⟨nd.right, p.len + 1, (p.bits <<< 1) ||| 1⟩]

/-- R192's loop with at most `fuel` pops, writing a code at each Leaf. -/
def traverse (a : Arr Node 255) : Nat → List Pending → Arr CodeEntry 256 → Except Fault (Arr CodeEntry 256)
  | _, [], c => .ok c
  | 0, _ :: _, _ => .error .endlessTraversal
  | fuel + 1, p :: stack, c =>
    if isLeaf p.node then traverse a fuel stack (tableSet c (leafSym p.node) ⟨p.len, p.bits⟩)
    else match arenaGet a p.node with
      | .ok nd => traverse a fuel (children p nd ++ stack) c
      | .error f => .error f

/-- CG_TRAVERSE's table (R192). A tree of at most 256 leaves takes at most 511 pops (R228; log 14). -/
def traverseRoot (s : State) : Except Fault (Arr CodeEntry 256) :=
  traverse s.arena Config.maxPops [⟨s.root, 0, 0⟩] s.code

/-- CG_SINGLE's table (R193): the one-bit code "0" for the only symbol. ROOT ≥ 256 is no symbol (log 13). -/
def singleCode (s : State) : Except Fault (Arr CodeEntry 256) :=
  if isLeaf s.root then .ok (tableSet s.code (leafSym s.root) ⟨1, 0⟩) else .error (.codeTableIndex s.root)

/-- CG_GEN's table (R191). -/
def genCode (s : State) : Except Fault (Arr CodeEntry 256) :=
  if isLeaf s.root then singleCode s else traverseRoot s

/-- The code table written, or the stop. -/
def putCode (s : State) : Except Fault (Arr CodeEntry 256) → Result
  | .ok c => .next { s with code := c }
  | .error f => .fault f

/-- CT_LOOKUP(d)'s effect (R194): MissingCode for a symbol without a code, else the entry on the result wires (log 8). -/
def ctLookup (d : Byte) (s : State) : Except ErrKind State :=
  if (tableGet s.code d).len = 0 then .error .missingCode else .ok { s with ctOut := tableGet s.code d }

/-- CG_GEN (R191). -/
def execCgGen (s : State) : Result := putCode { s with seq := .pack } (genCode s)

/-- CG_TRAVERSE as an operation by itself (R192, R104). -/
def execCgTraverse (s : State) : Result := putCode s (traverseRoot s)

/-- CG_SINGLE as an operation by itself (R193, R104). -/
def execCgSingle (s : State) : Result := putCode s (singleCode s)

/-- CT_LOOKUP as an operation by itself (R194, R104); its fault records the BYTE word. -/
def execCtLookup (d : Byte) (s : State) : Result := settle (cmdWord 0x2 d) s (ctLookup d s)

end Sys2Proof.Machine
end

