-- ==== Sys2Proof/Machine/Scanner.lean ====
section
/-! DEFINITION. Machine/Scanner.lean: the Frequency Scanner, INIT and FREQ_INC (41_frequency_scanner.md). -/
namespace Sys2Proof.Machine

/-- FREQ_INC(d) (R141). The additions are those of 32-, 9- and 32-bit registers; in a run none wraps (R11; log 12). -/
def freqInc (d : Byte) (s : State) : State :=
  if totalFull s then raise .lengthOverflow (cmdWord 0x2 d) s
  else
    { s with
      usc := if tableGet s.freq d = 0 then s.usc + 1 else s.usc
      freq := tableSet s.freq d (tableGet s.freq d + 1)
      total := s.total + 1 }

/-- INIT (R140). -/
def execInit (s : State) : Result :=
  .next { s with
    freq := Arr.fill 256 0, code := Arr.fill 256 ⟨0, 0⟩
    usc := 0, total := 0, pq := { s.pq with hsize := 0 }, nnode := 256, root := 0
    ea := ⟨0, 0⟩, eb := ⟨0, 0⟩, curSym := 0, curLen := 0, acc := 0, nbits := 0
    seq := .scan }

/-- FREQ_INC as an operation by itself (R141, R104). -/
def execFreqInc (d : Byte) (s : State) : Result := .next (freqInc d s)

end Sys2Proof.Machine
end

