-- ==== Sys2Proof/Machine/Commands.lean ====
section
/-! DEFINITION. Machine/Commands.lean: the eleven host commands (40_commands.md R122 to R132), each accepted as R120 and
R121 say (`accept`). -/
namespace Sys2Proof.Machine

/-- NOP (R122). -/
def execNop (s : State) : Result := accept (cmdWord 0x0 0) true legalReady s s

/-- START (R123). -/
def execStart (s : State) : Result := accept (cmdWord 0x1 0) true legalStart s { s with seq := .init }

/-- BYTE d in S_PACK (R124): CT_LOOKUP, which may raise MissingCode and then leaves everything else, and BP_LATCH. -/
def packByte (d : Byte) (s : State) : State :=
  match ctLookup d s with
  | .ok t => bpLatch d t
  | .error k => raise k (cmdWord 0x2 d) s

/-- BYTE d (R124): the scan pass counts it, the pack pass starts to encode it. -/
def execByte (d : Byte) (s : State) : Result :=
  accept (cmdWord 0x2 d) true legalPass s (if s.seq = .scan then freqInc d s else packByte d s)

/-- The end of the scan pass (R125): EmptyAlphabet, a status and no fault, or the build. -/
def endScan (s : State) : State :=
  if s.usc = 0 then { s with err := .emptyAlphabet, seq := .done } else { s with seq := .load }

/-- EOS (R125). -/
def execEos (s : State) : Result :=
  accept (cmdWord 0x3 0) true legalPass s (if s.seq = .scan then endScan s else { s with seq := .flush })

/-- CLEAR (R132). -/
def execClear (s : State) : Result := accept (cmdWord 0x4 0) true legalReady s (toReset s)

/-- SELSYM s (R127). -/
def execSelsym (sym : Byte) (s : State) : Result := accept (cmdWord 0x5 sym) true legalReady s { s with sel := sym }

/-- The kind ABORT k reports (R126): 1 InputUnavailable, 2 OutputUnwritable. -/
def abortKind (k : Byte) : Option ErrKind :=
  match k.toNat with
  | 1 => some .inputUnavailable
  | 2 => some .outputUnwritable
  | _ => none

/-- ABORT k (R126). -/
def execAbort (k : Byte) (s : State) : Result :=
  accept (cmdWord 0x6 k) (abortKind k).isSome legalAbort s (raise ((abortKind k).getD .none) (cmdWord 0x6 k) s)

/-- RDFREQ (R128). -/
def execRdfreq (s : State) : Result := accept (cmdWord 0x8 0) true legalTables s (respond (tableGet s.freq s.sel) s)

/-- RDLEN (R129). -/
def execRdlen (s : State) : Result :=
  accept (cmdWord 0x9 0) true legalTables s (respond ((tableGet s.code s.sel).len.setWidth 32) s)

/-- RDCODE w (R130). -/
def execRdcode (w : Byte) (s : State) : Result :=
  accept (cmdWord 0xA w) (decide (w < 8)) legalTables s (respond (codeWord (tableGet s.code s.sel).bits w) s)

/-- RDREG r (R131). -/
def execRdreg (r : Byte) (s : State) : Result :=
  accept (cmdWord 0xB r) (regWord s r).isSome legalReady s (respond ((regWord s r).getD 0) s)

end Sys2Proof.Machine
end

