-- ==== Sys2Proof/Machine/PriorityQueue.lean ====
section
/-! DEFINITION. Machine/PriorityQueue.lean: the Priority Queue, HEAPIFY_DOWN, BUILD_HEAP, PQ_INSERT and
PQ_EXTRACT_MIN (42_priority_queue.md), literally as R151 to R154 give them: the tie-break is what they produce (R155). -/
namespace Sys2Proof.Machine

/-- The position m of R151's loop body: i, replaced by the left child if that is strictly smaller, then by the right
child if that is strictly smaller than the candidate. `n` is HSIZE. -/
def smallest (h : Arr HeapEntry 256) (n i : Nat) : Nat :=
  let l := 2 * i + 1
  let r := 2 * i + 2
  let m := if l < n ∧ (heapAt h l).freq < (heapAt h i).freq then l else i
  if r < n ∧ (heapAt h r).freq < (heapAt h m).freq then r else m

/-- R151's loop, at most `fuel` times. -/
def siftDown : Nat → Arr HeapEntry 256 → Nat → Nat → Arr HeapEntry 256
  | 0, h, _, _ => h
  | fuel + 1, h, n, i =>
    if smallest h n i = i then h else siftDown fuel (heapSwap h i (smallest h n i)) n (smallest h n i)

/-- HEAPIFY_DOWN(i) (R151). The position rises each time round and stays below HSIZE ≤ 256, so 256 times are never
used up. A position without a child, so one at or past HSIZE too, stops at once (log 18). -/
def heapifyDown (h : Arr HeapEntry 256) (n i : Nat) : Arr HeapEntry 256 := siftDown Config.heapCap h n i

/-- HEAPIFY_DOWN(k − 1), …, HEAPIFY_DOWN(0). -/
def heapifyFrom (n : Nat) : Nat → Arr HeapEntry 256 → Arr HeapEntry 256
  | 0, h => h
  | k + 1, h => heapifyFrom n k (heapifyDown h n k)

/-- BUILD_HEAP (R152): from floor(HSIZE / 2) − 1 down to 0. -/
def buildHeap (h : Arr HeapEntry 256) (n : Nat) : Arr HeapEntry 256 := heapifyFrom n (n / 2) h

/-- PQ_INSERT(e) (R153): QueueFull at 256 entries, else append and re-heapify. -/
def pqInsert (e : HeapEntry) (q : Queue) : Except ErrKind Queue :=
  if room : q.hsize.val < Config.heapCap then
    .ok { heap := buildHeap (heapPut q.heap q.hsize.val e) (q.hsize.val + 1)
          hsize := ⟨q.hsize.val + 1, Nat.succ_lt_succ room⟩ }
  else .error .queueFull

/-- PQ_EXTRACT_MIN (R154): QueueEmpty at 0 entries, else the root, with the last entry moved to the root and sifted
down. -/
def pqExtractMin (q : Queue) : Except ErrKind (HeapEntry × Queue) :=
  if q.hsize.val = 0 then .error .queueEmpty
  else
    let n := q.hsize.val - 1
    .ok (heapAt q.heap 0,
      { heap := if 0 < n then heapifyDown (heapPut q.heap 0 (heapAt q.heap n)) n 0 else q.heap
        hsize := ⟨n, Nat.lt_of_le_of_lt (Nat.sub_le _ _) q.hsize.isLt⟩ })

/-- PQ_INSERT on the state. -/
def insertEntry (e : HeapEntry) (s : State) : Except ErrKind State :=
  match pqInsert e s.pq with
  | .ok q => .ok { s with pq := q }
  | .error k => .error k

/-- PQ_EXTRACT_MIN on the state, its result on PQ_OUT (30_encoding.md R97). -/
def extractEntry (s : State) : Except ErrKind State :=
  match pqExtractMin s.pq with
  | .ok (e, q) => .ok { s with pq := q, pqOut := e }
  | .error k => .error k

/-- HEAPIFY_DOWN as an operation by itself (R151, R104). -/
def execHeapifyDown (i : Byte) (s : State) : Result :=
  .next { s with pq := { s.pq with heap := heapifyDown s.pq.heap s.pq.hsize.val i.toNat } }

/-- BUILD_HEAP as an operation by itself (R152, R104). -/
def execBuildHeap (s : State) : Result :=
  .next { s with pq := { s.pq with heap := buildHeap s.pq.heap s.pq.hsize.val } }

/-- PQ_INSERT as a request on the queue's port (R153, R97); its fault records 0. -/
def execPqInsert (e : HeapEntry) (s : State) : Result := settle 0 s (insertEntry e s)

/-- PQ_EXTRACT_MIN as a request on the queue's port (R154, R97); its fault records 0. -/
def execPqExtractMin (s : State) : Result := settle 0 s (extractEntry s)

end Sys2Proof.Machine
end

