-- ==== Sys2Proof/Machine/TreeBuilder.lean ====
section
/-! DEFINITION. Machine/TreeBuilder.lean: the Tree Builder, TB_LOAD, TB_XA, TB_XB, TB_INS and TB_ROOT
(43_tree_builder.md). Its requests to the queue are part of its own atomic operations (30_encoding.md R97). -/
namespace Sys2Proof.Machine

/-- One leaf per symbol with a count, in ascending order from symbol s on: R171's loop over the counts from s up. -/
def loadLeaves : Nat → List Word32 → Queue → Except ErrKind Queue
  | _, [], q => .ok q
  | s, f :: rest, q =>
    if f = 0 then loadLeaves (s + 1) rest q
    else match pqInsert ⟨f, BitVec.ofNat 9 s⟩ q with
      | .ok q' => loadLeaves (s + 1) rest q'
      | .error k => .error k

/-- The state after TB_LOAD and TB_INS: another merge while more than one entry is left (R171, R174). -/
def mergeOrRoot (q : Queue) : SeqState := if 1 < q.hsize.val then .xa else .root

/-- TB_LOAD's effect (R171). -/
def tbLoad (s : State) : Except ErrKind State :=
  match loadLeaves 0 s.freq.cells s.pq with
  | .ok q => .ok { s with pq := q, seq := mergeOrRoot q }
  | .error k => .error k

/-- TB_XA's effect (R172): EA is the first extracted. -/
def tbXa (s : State) : Except ErrKind State :=
  match extractEntry s with
  | .ok t => .ok { t with ea := t.pqOut, seq := .xb }
  | .error k => .error k

/-- TB_XB's effect (R173): EB is the second extracted. -/
def tbXb (s : State) : Except ErrKind State :=
  match extractEntry s with
  | .ok t => .ok { t with eb := t.pqOut, seq := .ins }
  | .error k => .error k

/-- The frequency of the node TB_INS creates: EA.freq + EB.freq, a 32-bit addition that no run overflows (R11, R174;
log 12). -/
def mergedFreq (s : State) : Word32 := s.ea.freq + s.eb.freq

/-- The node TB_INS creates: first extracted → right, second extracted → left (R174). -/
def mergedNode (s : State) : Node := { freq := mergedFreq s, left := s.eb.node, right := s.ea.node }

/-- TB_INS's effect after the arena is written (R174): reinsert the node, count it, next merge or the root. -/
def tbReinsert (s : State) : Except ErrKind State :=
  match insertEntry ⟨mergedFreq s, s.nnode⟩ s with
  | .ok t => .ok { t with nnode := t.nnode + 1, seq := mergeOrRoot t.pq }
  | .error k => .error k

/-- TB_LOAD (R171). -/
def execTbLoad (s : State) : Result := settle 0 s (tbLoad s)

/-- TB_XA (R172). -/
def execTbXa (s : State) : Result := settle 0 s (tbXa s)

/-- TB_XB (R173). -/
def execTbXb (s : State) : Result := settle 0 s (tbXb s)

/-- TB_INS (R174). NNODE outside 256 to 510 names no arena entry (log 13). -/
def execTbIns (s : State) : Result :=
  match arenaSet s.arena s.nnode (mergedNode s) with
  | .ok a => settle 0 s (tbReinsert { s with arena := a })
  | .error f => .fault f

/-- TB_ROOT (R175): the one entry left is not extracted. -/
def execTbRoot (s : State) : Result := .next { s with root := (heapAt s.pq.heap 0).node, seq := .gen }

end Sys2Proof.Machine
end

