-- ==== Sys2Proof/Machine/Dispatch.lean ====
section
/-! DEFINITION. Machine/Dispatch.lean: one arm per operation, each one call of its meaning. -/
namespace Sys2Proof.Machine

def exec (i : Instr) (s : State) : Host.Outcome State Fault Refusal :=
  match i with
  | .nop => Sys2Proof.Machine.execNop s
  | .start => Sys2Proof.Machine.execStart s
  | .byte d => Sys2Proof.Machine.execByte d s
  | .eos => Sys2Proof.Machine.execEos s
  | .clear => Sys2Proof.Machine.execClear s
  | .selsym sym => Sys2Proof.Machine.execSelsym sym s
  | .abort k => Sys2Proof.Machine.execAbort k s
  | .rdfreq => Sys2Proof.Machine.execRdfreq s
  | .rdlen => Sys2Proof.Machine.execRdlen s
  | .rdcode w => Sys2Proof.Machine.execRdcode w s
  | .rdreg r => Sys2Proof.Machine.execRdreg r s
  | .init => Sys2Proof.Machine.execInit s
  | .freqInc d => Sys2Proof.Machine.execFreqInc d s
  | .heapifyDown p => Sys2Proof.Machine.execHeapifyDown p s
  | .buildHeap => Sys2Proof.Machine.execBuildHeap s
  | .pqInsert e => Sys2Proof.Machine.execPqInsert e s
  | .pqExtractMin => Sys2Proof.Machine.execPqExtractMin s
  | .tbLoad => Sys2Proof.Machine.execTbLoad s
  | .tbXa => Sys2Proof.Machine.execTbXa s
  | .tbXb => Sys2Proof.Machine.execTbXb s
  | .tbIns => Sys2Proof.Machine.execTbIns s
  | .tbRoot => Sys2Proof.Machine.execTbRoot s
  | .cgGen => Sys2Proof.Machine.execCgGen s
  | .cgTraverse => Sys2Proof.Machine.execCgTraverse s
  | .cgSingle => Sys2Proof.Machine.execCgSingle s
  | .ctLookup d => Sys2Proof.Machine.execCtLookup d s
  | .bpLatch d => Sys2Proof.Machine.execBpLatch d s
  | .bpPutBit b => Sys2Proof.Machine.execBpPutBit b s
  | .bpEmit => Sys2Proof.Machine.execBpEmit s
  | .bpFlush => Sys2Proof.Machine.execBpFlush s
  | .outPop => Sys2Proof.Machine.execOutPop s

end Sys2Proof.Machine
end

