-- ==== Sys2Proof/Machine/Fetch.lean ====
section
/-! DEFINITION. Machine/Fetch.lean: what the next step is. HUFENC fetches nothing from a memory: an internal operation
is selected by SEQ (30_encoding.md R95), a command is the word at the command port (R90, R120), a queue request stands
on the request wires (R97), OUT_POP is HOST-OUT's (45_bit_packer.md R210). Which agent moves next is data (log 3). -/
namespace Sys2Proof.Machine

/-- What a step does. -/
inductive Action where
  | run (i : Instr)
  | malformed (w : CmdWord)
  | reset
  | wait
  deriving DecidableEq, Repr

/-- CORE's turn: the operation SEQ selects; in a ready state CORE has no step (R226). -/
def fetchCore (s : State) : Action × State :=
  match decodeSeq (seqCode s.seq) with
  | .ok i => (.run i, s)
  | .error _ => (.wait, s)

/-- HOST-CMD's turn: in a ready state the word presented is accepted and leaves the port; in a busy state it is held
(R120). -/
def fetchCmd (s : State) : Action × State :=
  if isBusy s.seq then (.wait, s)
  else match s.cmds with
    | [] => (.wait, s)
    | w :: rest => match decodeCmd w with
      | .ok i => (.run i, { s with cmds := rest })
      | .error _ => (.malformed w, { s with cmds := rest })

/-- HOST-OUT's turn: OUT_POP, which exists only when OUTQ is not empty (R210). -/
def fetchOut (s : State) : Action × State := if pinOutValid s then (.run .outPop, s) else (.wait, s)

/-- The step of the agent whose turn it is. An agent that has no step enabled leaves the state as it is. -/
def fetchTurn (t : Turn) (s : State) : Action × State :=
  match t with
  | .core => fetchCore s
  | .hostCmd => fetchCmd s
  | .hostOut => fetchOut s
  | .rst => (.reset, s)

/-- Whose turn it is when no turn is listed (log 3): HOST-OUT while it drains and OUTQ is not empty, then CORE in a busy
state, HOST-CMD in a ready one. -/
def defaultTurn (s : State) : Turn :=
  if s.drain && pinOutValid s then .hostOut else if isBusy s.seq then .core else .hostCmd

/-- The next step: a request on the queue's wires first, then the turn listed, then the default turn. -/
def fetch (s : State) : Action × State :=
  match s.pqReq with
  | .insert e => (.run (.pqInsert e), { s with pqReq := .idle })
  | .extractMin => (.run .pqExtractMin, { s with pqReq := .idle })
  | .idle => match s.turns with
    | [] => fetchTurn (defaultTurn s) s
    | t :: rest => fetchTurn t { s with turns := rest }

/-- The state with a selector placed where the next step takes its operation from: a word at the head of the command
port with HOST-CMD's turn first, a SEQ code in SEQ with CORE's turn first, a request on the queue's wires. A selector
that selects nothing is placed only where it is a command word. -/
def place (s : State) : Selector → State
  | .cmd w => { s with cmds := w :: s.cmds, turns := .hostCmd :: s.turns, pqReq := .idle }
  | .seq c => match seqOfCode c with
    | some q => { s with seq := q, turns := .core :: s.turns, pqReq := .idle }
    | none => s
  | .pq op pqIn => match decodePq op pqIn with
    | .ok (.pqInsert e) => { s with pqReq := .insert e }
    | .ok .pqExtractMin => { s with pqReq := .extractMin }
    | .ok _ | .error _ => s

end Sys2Proof.Machine
end

