-- ==== Sys2Proof/Machine/Step.lean ====
section
/-! DEFINITION. Machine/Step.lean: one step of HUFENC (00_scope.md R7): the acceptance of one command, one internal
operation, the removal of one byte, or `rst`. -/
namespace Sys2Proof.Machine

/-- One step. The response port carries a word only in the step that gives it (30_encoding.md R94; log 9). -/
def step (s : State) : Host.Outcome State Fault Refusal :=
  match fetch { s with rsp := none } with
  | (.run i, t) => exec i t
  | (.malformed w, t) => .next (illegalCommand w t)
  | (.reset, t) => .next (toReset t)
  | (.wait, t) => .next t

/-- The state with a row of the opcode table placed where `step` takes its next operation from (log 4, 11). -/
def State.withFetchWord (s : State) (nbits w : Nat) : State :=
  match tableSelector nbits w with
  | some sel => place s sel
  | none => s

end Sys2Proof.Machine
end

