-- ==== Sys2Proof/Machine/Script.lean ====
section
/-! DEFINITION. Machine/Script.lean: the plain text form of a command sequence (30_encoding.md R102) and its
pseudo-commands (R103). A script is only a way to write the words the host presents; no step reads one (log 19). -/
namespace Sys2Proof.Machine

/-- A line of a script (R102, R103). `drain` is a directive to HOST-OUT and stands for no word. `blank`, a line of blanks or
of a comment alone, is a line of its own that stands for no word: DESIGN CHOICE (log 19). -/
inductive ScriptLine where
  | blank
  | cmd (i : Instr)
  | stream (bs : List Byte)
  | pass (bs : List Byte)
  | encodeRun (bs : List Byte)
  | dump (s : Byte)
  | drain
  deriving DecidableEq, Repr

/-- `STREAM b0 … bn`: one BYTE per byte, in order (R103). -/
def streamOf (bs : List Byte) : List Instr := bs.map Instr.byte

/-- `PASS <bytes>`: the stream, then EOS (R103). -/
def passOf (bs : List Byte) : List Instr := streamOf bs ++ [.eos]

/-- `ENCODE <bytes>`: START and two passes; one pass only when the input is empty (R103). -/
def encodeOf (bs : List Byte) : List Instr := .start :: passOf bs ++ (if bs = [] then [] else passOf bs)

/-- The commands a line stands for (R102, R103). -/
def ScriptLine.expand : ScriptLine → List Instr
  | .blank => []
  | .cmd i => [i]
  | .stream bs => streamOf bs
  | .pass bs => passOf bs
  | .encodeRun bs => encodeOf bs
  | .dump s => [.selsym s, .rdfreq, .rdlen, .rdcode 0]
  | .drain => []

/-- The command word of a command (R91); none for an operation that is no command. -/
def wordOf (i : Instr) : Option CmdWord :=
  match encode i with
  | some (.cmd w) => some w
  | _ => none

/-- The words of a script's lines, in order (R102). -/
def assembleLines (ls : List ScriptLine) : List CmdWord := (ls.flatMap ScriptLine.expand).filterMap wordOf

/-- DRAIN is complete: OUTQ is empty and SEQ is a ready state (R103). -/
def drained (s : State) : Bool := !pinOutValid s && pinCmdReady s

/-- A token of a line: a mnemonic or number, a quoted character, a quoted string. -/
inductive Token where
  | word (cs : List Char)
  | chr (c : Char)
  | text (cs : List Char)
  deriving DecidableEq, Repr

/-- Where the lexer stands: between tokens, in a word, after an opening ', after a quoted character, in a string. Read
characters stand in reverse. -/
inductive LexMode where
  | gap
  | word (rev : List Char)
  | quote
  | quoted (c : Char)
  | text (rev : List Char)
  deriving DecidableEq, Repr

/-- A blank between tokens. DESIGN CHOICE (log 19): a space, a tab or a carriage return; R102 does not say what separates
tokens. -/
def isBlank (c : Char) : Bool := c == ' ' || c == '\t' || c == '\r'

/-- The tokens of a line up to a comment, which a `;` outside quotes starts (R102). None for a quote left open. DESIGN CHOICE
(log 19): where a quote may stand, and that there is no escape. -/
def lex : LexMode → List Char → Option (List Token)
  | .gap, [] => some []
  | .word rev, [] => some [.word rev.reverse]
  | .quote, [] => none
  | .quoted _, [] => none
  | .text _, [] => none
  | .gap, c :: cs =>
    if c = ';' then some []
    else if isBlank c then lex .gap cs
    else if c = '\'' then lex .quote cs
    else if c = '"' then lex (.text []) cs
    else lex (.word [c]) cs
  | .word rev, c :: cs =>
    if c = ';' then some [.word rev.reverse]
    else if isBlank c then (lex .gap cs).map (.word rev.reverse :: ·)
    else lex (.word (c :: rev)) cs
  | .quote, c :: cs => lex (.quoted c) cs
  | .quoted c, d :: cs => if d = '\'' then (lex .gap cs).map (.chr c :: ·) else none
  | .text rev, c :: cs =>
    if c = '"' then (lex .gap cs).map (.text rev.reverse :: ·) else lex (.text (c :: rev)) cs

/-- A digit's value in a base of at most 16. DESIGN CHOICE (log 19): a hexadecimal digit above 9 is a letter of either
case; R102 gives the prefix `0x` and is silent on the case of the digits. -/
def digitValue (base : Nat) (c : Char) : Option Nat :=
  let n := c.toNat
  let v := if 48 ≤ n ∧ n ≤ 57 then some (n - 48)
    else if 97 ≤ n ∧ n ≤ 102 then some (n - 87)
    else if 65 ≤ n ∧ n ≤ 70 then some (n - 55)
    else none
  v.bind fun d => if d < base then some d else none

/-- The number a list of digits writes. -/
def digitsValue (base : Nat) : Nat → List Char → Option Nat
  | acc, [] => some acc
  | acc, c :: cs => match digitValue base c with
    | some d => digitsValue base (acc * base + d) cs
    | none => none

/-- A number below 256 as an operand (R92). -/
def byteOfNat (n : Nat) : Option Byte := if n < 256 then some (BitVec.ofNat 8 n) else none

/-- A character's code, for a printable ASCII character (R102). -/
def byteOfChar (c : Char) : Option Byte :=
  if 32 ≤ c.toNat ∧ c.toNat ≤ 126 then some (BitVec.ofNat 8 c.toNat) else none

/-- An operand: a decimal number, a hexadecimal number with prefix 0x, or a quoted printable character (R102). -/
def operandOf : Token → Option Byte
  | .word ('0' :: 'x' :: d :: ds) => (digitsValue 16 0 (d :: ds)).bind byteOfNat
  | .word (d :: ds) => (digitsValue 10 0 (d :: ds)).bind byteOfNat
  | .chr c => byteOfChar c
  | .word [] | .text _ => none

/-- The bytes after STREAM, PASS or ENCODE: operands, or one string (R103). -/
def bytesOf : List Token → Option (List Byte)
  | [.text cs] => cs.mapM byteOfChar
  | ts => ts.mapM operandOf

/-- A command without an operand, by its mnemonic (R91, R102). -/
def plainLine (m : List Char) : Option ScriptLine :=
  if m = ['N', 'O', 'P'] then some (.cmd .nop)
  else if m = ['S', 'T', 'A', 'R', 'T'] then some (.cmd .start)
  else if m = ['E', 'O', 'S'] then some (.cmd .eos)
  else if m = ['C', 'L', 'E', 'A', 'R'] then some (.cmd .clear)
  else if m = ['R', 'D', 'F', 'R', 'E', 'Q'] then some (.cmd .rdfreq)
  else if m = ['R', 'D', 'L', 'E', 'N'] then some (.cmd .rdlen)
  else if m = ['D', 'R', 'A', 'I', 'N'] then some .drain
  else none

/-- A command or pseudo-command with one operand, by its mnemonic (R91, R102, R103). DESIGN CHOICE (log 19): any byte is
taken, one that the command's encoding does not admit too. -/
def operandLine (m : List Char) (b : Byte) : Option ScriptLine :=
  if m = ['B', 'Y', 'T', 'E'] then some (.cmd (.byte b))
  else if m = ['S', 'E', 'L', 'S', 'Y', 'M'] then some (.cmd (.selsym b))
  else if m = ['A', 'B', 'O', 'R', 'T'] then some (.cmd (.abort b))
  else if m = ['R', 'D', 'C', 'O', 'D', 'E'] then some (.cmd (.rdcode b))
  else if m = ['R', 'D', 'R', 'E', 'G'] then some (.cmd (.rdreg b))
  else if m = ['D', 'U', 'M', 'P'] then some (.dump b)
  else none

/-- A pseudo-command with a list of bytes, by its name (R103). -/
def bytesLine (m : List Char) (bs : List Byte) : Option ScriptLine :=
  if m = ['S', 'T', 'R', 'E', 'A', 'M'] then some (.stream bs)
  else if m = ['P', 'A', 'S', 'S'] then some (.pass bs)
  else if m = ['E', 'N', 'C', 'O', 'D', 'E'] then some (.encodeRun bs)
  else none

/-- A line of tokens: a mnemonic, then its operand if it has one (R102). -/
def lineOf : List Token → Option ScriptLine
  | [] => some .blank
  | .word m :: ops =>
    ((bytesOf ops).bind (bytesLine m)).or
      (match ops with
        | [] => plainLine m
        | [op] => (operandOf op).bind (operandLine m)
        | _ => none)
  | _ => none

/-- A line of script text (R102). None for text that is no line of a script. -/
def parseLine (cs : List Char) : Option ScriptLine := (lex .gap cs).bind lineOf

/-- The words of a script's text, given line by line (R102). -/
def assemble (text : List (List Char)) : Option (List CmdWord) := (text.mapM parseLine).map assembleLines

end Sys2Proof.Machine
end

