-- ==== Sys2Proof/Safety.lean ====
section
/-! DEFINITION. Safety.lean: the terms in which claims about HUFENC are made: the end of a run (46_sequencer.md R229),
the transitions SEQ may take (R225), the invariants of the rules (R31, R32, R34, R157, R178, R195), the tree a run
builds, and the closed form of the output (45_bit_packer.md R212). No meaning of an operation stands here. -/
namespace Sys2Proof.Machine

/-! ## The end of a run and the sequencer -/

/-- A run has ended (R229). -/
def ended (s : State) : Bool := s.seq == .done || s.seq == .fault

/-- The stage a sequencer state belongs to: before a run, scan, build, generate, write, complete (30_encoding.md R95,
R227). S_FAULT belongs to none and is put last. -/
def stage : SeqState → Nat
  | .idle => 0
  | .init | .scan => 1
  | .load | .xa | .xb | .ins | .root => 2
  | .gen => 3
  | .pack | .emit | .flush => 4
  | .done => 5
  | .fault => 6

/-- The rows of R225 that are not `rst` and change SEQ, as pairs (from, to). -/
def seqEdges : List (SeqState × SeqState) :=
  -- CLEAR in a ready state
  [(.scan, .idle), (.pack, .idle), (.done, .idle), (.fault, .idle)] ++
  -- a fault raised at the acceptance of a command
  [(.idle, .fault), (.scan, .fault), (.pack, .fault), (.done, .fault)] ++
  -- the stages of a run
  [(.idle, .init), (.init, .scan), (.scan, .done), (.scan, .load), (.load, .xa), (.load, .root), (.xa, .xb),
   (.xb, .ins), (.ins, .xa), (.ins, .root), (.root, .gen), (.gen, .pack), (.pack, .emit), (.pack, .flush),
   (.emit, .pack), (.flush, .done)] ++
  -- a queue fault (unreachable)
  [(.load, .fault), (.xa, .fault), (.xb, .fault), (.ins, .fault)]

/-- The malformed command words, in the words of 30_encoding.md R93. -/
def malformedWord (w : CmdWord) : Prop :=
  let op := w.extractLsb' 8 4
  let arg := w.extractLsb' 0 8
  op = 0x7 ∨ 0xC ≤ op ∨
  ((op = 0x0 ∨ op = 0x1 ∨ op = 0x3 ∨ op = 0x4 ∨ op = 0x8 ∨ op = 0x9) ∧ arg ≠ 0) ∨
  (op = 0x6 ∧ arg ≠ 1 ∧ arg ≠ 2) ∨ (op = 0xA ∧ 7 < arg) ∨ (op = 0xB ∧ 13 < arg)

/-- The column "legal in states" of 30_encoding.md R91, by OP: the states in which a well-formed word is not misplaced
and not discarded (40_commands.md R121). -/
def legalStates (op : BitVec 4) : List SeqState :=
  match op.toNat with
  | 0x0 | 0x4 | 0x5 | 0xB => [.idle, .scan, .pack, .done, .fault]
  | 0x1 => [.idle]
  | 0x2 | 0x3 => [.scan, .pack]
  | 0x6 => [.idle, .scan, .pack, .done]
  | 0x8 | 0x9 | 0xA => [.pack, .done]
  | _ => []

/-- The number of CORE's steps from here to a ready state (R228): 3·USC from S_LOAD, CUR_LEN + 1 from S_EMIT. -/
def coreWork (s : State) : Nat :=
  match s.seq with
  | .init => 1
  | .load => 3 * s.usc.toNat
  | .xa => 3 * (s.pq.hsize.val - 1) + 2
  | .xb => 3 * s.pq.hsize.val + 1
  | .ins => 3 * s.pq.hsize.val + 3
  | .root => 2
  | .gen => 1
  | .emit => s.curLen.toNat + 1
  | .flush => 1
  | .idle | .scan | .pack | .done | .fault => 0

/-! ## The priority queue -/

/-- The queue's entries, HEAP[0] to HEAP[HSIZE − 1] (R27). -/
def entries (q : Queue) : List HeapEntry := q.heap.cells.take q.hsize.val

/-- Between positions from `i` on and their children below `n`, no key is above its child's. -/
def OrderedFrom (h : Arr HeapEntry 256) (n i : Nat) : Prop :=
  ∀ j, j < n → 1 ≤ j → i ≤ (j - 1) / 2 → (heapAt h ((j - 1) / 2)).freq ≤ (heapAt h j).freq

/-- The heap order invariant (42_priority_queue.md R157). -/
def HeapOrdered (q : Queue) : Prop := OrderedFrom q.heap q.hsize.val 0

/-- h' is h with the whole entries at i and m exchanged (00_scope.md R10, 42_priority_queue.md R151). -/
def Swapped (h h' : Arr HeapEntry 256) (i m : Nat) : Prop :=
  ∀ k, heapAt h' k = if k = i then heapAt h m else if k = m then heapAt h i else heapAt h k

/-- R156's sift-up, the form an insertion is equal to: while j > 0 and HEAP[j].freq < HEAP[floor((j − 1) / 2)].freq,
swap the two and go on from the parent. -/
def siftUp : Nat → Arr HeapEntry 256 → Nat → Arr HeapEntry 256
  | 0, h, _ => h
  | fuel + 1, h, j =>
    if 0 < j ∧ (heapAt h j).freq < (heapAt h ((j - 1) / 2)).freq then siftUp fuel (heapSwap h j ((j - 1) / 2)) ((j - 1) / 2)
    else h

/-! ## Counts -/

/-- The sum of all FREQ[s]. -/
def freqSum (a : Arr Word32 256) : Nat := (a.cells.map BitVec.toNat).sum

/-- The symbols present, in ascending order: those with FREQ[s] ≠ 0 (R34). -/
def presentSyms (a : Arr Word32 256) : List Byte :=
  ((List.range 256).map (BitVec.ofNat 8)).filter fun s => tableGet a s != 0

/-- The leaves' heap entries {FREQ[s], s}, in ascending order (43_tree_builder.md R171). -/
def leafEntries (a : Arr Word32 256) : List HeapEntry := (presentSyms a).map fun s => ⟨tableGet a s, leafId s⟩

/-- The meanings of a list of operations, one after the other, each only if the one before it gave a next state. -/
def execAll : List Instr → State → Result
  | [], s => .next s
  | i :: rest, s => match exec i s with
    | .next t => execAll rest t
    | .fault f => .fault f
    | .refused r => .refused r

/-! ## Trees and codes -/

/-- A Huffman tree: HUF's "tagged variant" of Leaf and Internal (R12), with the arena index of an Internal node. -/
inductive HuffTree where
  | leaf (sym : Byte)
  | node (id : NodeId) (l r : HuffTree)
  deriving DecidableEq, Repr

/-- The node index of a tree's root (R36). -/
def HuffTree.rootId : HuffTree → NodeId
  | .leaf sym => leafId sym
  | .node id _ _ => id

/-- The symbols at a tree's leaves, from left to right. -/
def HuffTree.leaves : HuffTree → List Byte
  | .leaf sym => [sym]
  | .node _ l r => l.leaves ++ r.leaves

/-- The sum of the counts at a tree's leaves: freq(n) of R36. -/
def HuffTree.weight (a : Arr Word32 256) : HuffTree → Nat
  | .leaf sym => (tableGet a sym).toNat
  | .node _ l r => l.weight a + r.weight a

/-- The indices of a tree's Internal nodes. -/
def HuffTree.inner : HuffTree → List NodeId
  | .leaf _ => []
  | .node id l r => id :: (l.inner ++ r.inner)

/-- The arena holds the tree: each Internal node's entry has its children's indices (R36). -/
def HuffTree.Stored (a : Arr Node 255) : HuffTree → Prop
  | .leaf _ => True
  | .node id l r => (∃ f, arenaGet a id = .ok ⟨f, l.rootId, r.rootId⟩) ∧ l.Stored a ∧ r.Stored a

/-- Each Internal node's NODE_FREQ is the sum of the counts at its leaves (R178 (e)). -/
def HuffTree.Weighed (a : Arr Node 255) (fr : Arr Word32 256) : HuffTree → Prop
  | .leaf _ => True
  | .node id l r =>
    (∃ nd, arenaGet a id = .ok nd ∧ nd.freq = BitVec.ofNat 32 ((HuffTree.node id l r).weight fr)) ∧
      l.Weighed a fr ∧ r.Weighed a fr

/-- Every Internal node's index is below n, so it was created (R28). -/
def HuffTree.Below (n : NodeId) : HuffTree → Prop
  | .leaf _ => True
  | .node id l r => id < n ∧ l.Below n ∧ r.Below n

/-- Each leaf's symbol with the edge labels on the path to it: '0' (false) to the left, '1' (true) to the right, the
edge out of the root first (44_code_table.md R190). -/
def HuffTree.paths : HuffTree → List (Byte × List Bool)
  | .leaf sym => [(sym, [])]
  | .node _ l r => l.paths.map (fun p => (p.1, false :: p.2)) ++ r.paths.map (fun p => (p.1, true :: p.2))

/-- A bit-string's value, its first bit the most significant (20_memory.md R64). -/
def bitsValue (c : List Bool) : CodeBits := c.foldl (fun v b => (v <<< 1) ||| (BitVec.ofBool b).setWidth 256) 0

/-- A code as a table entry (R64, R100). -/
def entryOf (c : List Bool) : CodeEntry := ⟨BitVec.ofNat 8 c.length, bitsValue c⟩

/-- The code a table entry holds: its bits in order, the first one first (R64). -/
def codeOf (e : CodeEntry) : List Bool := (List.range e.len.toNat).map fun j => e.bits.getLsbD (e.len.toNat - 1 - j)

/-- The table entry of a symbol in a tree: its path, or for a tree of one leaf the one-bit code "0" (R190, R193);
{0, 0} for a symbol that is not in the tree (R191). -/
def HuffTree.entry (t : HuffTree) (sym : Byte) : CodeEntry :=
  match t with
  | .leaf only => if sym = only then entryOf [false] else ⟨0, 0⟩
  | .node _ _ _ => match t.paths.find? (fun p => p.1 == sym) with
    | some p => entryOf p.2
    | none => ⟨0, 0⟩

/-- The roots of the forest of a build: the queue's entries, and EA, EB while they are out of it (R178 (g)). -/
def buildRoots (s : State) : List HeapEntry :=
  match s.seq with
  | .xb => s.ea :: entries s.pq
  | .ins => s.ea :: s.eb :: entries s.pq
  | _ => entries s.pq

/-- The trees ts are the forest of the build (R178 (d), (e), (g)): their roots are the entries `roots`, each with its
own weight; the arena holds them; and their leaves are the present symbols, each once. -/
structure IsForest (s : State) (roots : List HeapEntry) (ts : List HuffTree) : Prop where
  roots : (ts.map fun t => (⟨BitVec.ofNat 32 (t.weight s.freq), t.rootId⟩ : HeapEntry)).Perm roots
  stored : ∀ t ∈ ts, t.Stored s.arena ∧ t.Weighed s.arena s.freq ∧ t.Below s.nnode
  leaves : (ts.flatMap HuffTree.leaves).Perm (presentSyms s.freq)

/-- The tree ROOT names: the one tree left in the queue, over all the present symbols, which the arena holds, each
Internal node with its own weight and below NNODE (R178 (c) to (f), R190). -/
def IsRootTree (s : State) (t : HuffTree) : Prop := IsForest s (entries s.pq) [t] ∧ t.rootId = s.root

/-! ## Invariants -/

/-- The states of a run in which the tables hold what the rules say: from S_SCAN on (R34), not S_FAULT, which S_IDLE
reaches too. -/
def inRun (q : SeqState) : Bool := q != .idle && q != .init && q != .fault

/-- The code table is complete: from S_PACK to the end of a run that was not empty (R195). -/
def coded (s : State) : Bool :=
  s.seq == .pack || s.seq == .emit || s.seq == .flush || (s.seq == .done && s.err == .none)

/-- The registers' ranges and what SEQ says of them: ERR (R22), ERRINFO (R23), CUR_LEN (R31), ACC (R32), OUTQ (R38),
OUT_DEPTH (R6), and the request wires idle (R97). -/
structure RegistersOk (s : State) : Prop where
  depth : 1 ≤ s.outDepth
  outq : s.outq.length ≤ s.outDepth
  acc : s.acc.toNat < 2 ^ s.nbits.toNat
  curLen : s.seq ≠ .emit → s.curLen = 0
  faultErr : s.seq = .fault → s.err ≠ .none ∧ s.err ≠ .emptyAlphabet
  okErr : s.seq ≠ .fault → s.errInfo = 0 ∧ (s.err = .none ∨ (s.err = .emptyAlphabet ∧ s.seq = .done))
  wires : s.pqReq = .idle

/-- The counts (R34, R142): the sum of all FREQ[s] equals TOTAL and USC is the number of symbols present. -/
def CountsOk (s : State) : Prop :=
  inRun s.seq → freqSum s.freq = s.total.toNat ∧ s.usc.toNat = (presentSyms s.freq).length

/-- HSIZE, NNODE and USC through the build (R178 (a), (b)). -/
def BuildOk (s : State) : Prop :=
  match s.seq with
  | .scan => s.pq.hsize.val = 0 ∧ s.nnode = 256
  | .load => s.pq.hsize.val = 0 ∧ s.nnode = 256 ∧ s.usc ≠ 0
  | .xa => 256 ≤ s.nnode.toNat ∧ 2 ≤ s.pq.hsize.val ∧ s.nnode.toNat + s.pq.hsize.val = 256 + s.usc.toNat
  | .xb => 256 ≤ s.nnode.toNat ∧ 1 ≤ s.pq.hsize.val ∧ s.nnode.toNat + s.pq.hsize.val = 255 + s.usc.toNat
  | .ins => 256 ≤ s.nnode.toNat ∧ s.nnode.toNat + s.pq.hsize.val = 254 + s.usc.toNat
  | .root | .gen | .pack | .emit | .flush =>
    s.pq.hsize.val = 1 ∧ s.usc ≠ 0 ∧ s.nnode.toNat = 255 + s.usc.toNat
  | .done => (s.err = .none → s.pq.hsize.val = 1 ∧ s.usc ≠ 0 ∧ s.nnode.toNat = 255 + s.usc.toNat) ∧
    (s.err = .emptyAlphabet → s.usc = 0)
  | .idle | .init | .fault => True

/-- The forest of the build (R178 (d) to (g)), and from S_GEN on to the end of the run the tree ROOT names. -/
def ForestOk (s : State) : Prop :=
  match s.seq with
  | .xa | .xb | .ins | .root => ∃ ts, IsForest s (buildRoots s) ts
  | .gen | .pack | .emit | .flush => ∃ t, IsRootTree s t
  | .done => s.err = .none → ∃ t, IsRootTree s t
  | .idle | .init | .scan | .load | .fault => True

/-- The code table: all {0, 0} from INIT to CG_GEN (R140), then the codes of the tree ROOT names (R190, R191, R195). -/
def CodesOk (s : State) : Prop :=
  ((stage s.seq = 1 ∧ s.seq ≠ .init) ∨ stage s.seq = 2 ∨ stage s.seq = 3 → ∀ sym, tableGet s.code sym = ⟨0, 0⟩) ∧
  (coded s → ∃ t, IsRootTree s t ∧ ∀ sym, tableGet s.code sym = t.entry sym)

/-- All of it. -/
structure RunOk (s : State) : Prop where
  registers : RegistersOk s
  heap : HeapOrdered s.pq
  counts : CountsOk s
  build : BuildOk s
  forest : ForestOk s
  codes : CodesOk s

/-! ## What two runs share -/

/-- Two states that differ only in array content that no rule reads: everything in a state outside a run, and within
one HEAP at or beyond HSIZE and the arena at or beyond NNODE (10_state.md R45, 93 S1, S2, R237). -/
structure Alike (s t : State) : Prop where
  rest : t = { s with
    pq := t.pq, freq := t.freq, arena := t.arena, code := t.code }
  hsize : t.pq.hsize = s.pq.hsize
  tables : inRun s.seq → t.freq = s.freq ∧ t.code = s.code
  heap : inRun s.seq → entries t.pq = entries s.pq
  arena : inRun s.seq → ∀ n : NodeId, n < s.nnode → arenaGet t.arena n = arenaGet s.arena n

/-! ## The output -/

/-- Bits appended to the accumulator one by one (45_bit_packer.md R207). -/
def putBits : List Bool → State → State
  | [], s => s
  | b :: rest, s => putBits rest (putBit b s)

/-- A group of bits as a byte, its first bit as bit 7 of a group of eight (20_memory.md R63). -/
def byteOfBits (g : List Bool) : Byte := g.foldl (fun v b => (v <<< 1) ||| (BitVec.ofBool b).setWidth 8) 0

/-- The first ⌊length / 8⌋ groups of eight bits, as bytes (R212). -/
def wholeBytes (c : List Bool) : List Byte :=
  (List.range (c.length / 8)).map fun k => byteOfBits ((c.drop (8 * k)).take 8)

/-- The bits after the last whole group (R212). -/
def restBits (c : List Bool) : List Bool := c.drop (8 * (c.length / 8))

/-- The bits pending in the accumulator, the earliest first (10_state.md R32). -/
def pendingBits (s : State) : List Bool := (List.range s.nbits.toNat).map fun j => s.acc.getLsbD (s.nbits.toNat - 1 - j)

end Sys2Proof.Machine
end

