-- ==== Sys2Proof/Certificates/Slice0/Obligations.lean ====
section
/-! DEFINITION. Certificates/Slice0/Obligations.lean: the statements for the provers, each with the rule of spec/ it
formalises. They are about the machine; none is about a program. -/

open Sys2Proof Sys2Proof.Machine

/-! ## Encodings -/

/-- V1.1 of 95_test_vectors.md and the codes of 30_encoding.md R95 and R97: a few words of every format, written out. -/
def Obligations.TabledWordsDecode : Prop :=
  decode (.cmd 0x000) = .ok .nop ∧ decode (.cmd 0x100) = .ok .start ∧ decode (.cmd 0x2FF) = .ok (.byte 0xFF) ∧
  decode (.cmd 0x261) = .ok (.byte 0x61) ∧ decode (.cmd 0x300) = .ok .eos ∧ decode (.cmd 0x400) = .ok .clear ∧
  decode (.cmd 0x561) = .ok (.selsym 0x61) ∧ decode (.cmd 0x602) = .ok (.abort 2) ∧
  decode (.cmd 0x800) = .ok .rdfreq ∧ decode (.cmd 0x900) = .ok .rdlen ∧ decode (.cmd 0xA07) = .ok (.rdcode 7) ∧
  decode (.cmd 0xB0D) = .ok (.rdreg 13) ∧ decode (.seq 0b0001) = .ok .init ∧ decode (.seq 0b0110) = .ok .tbIns ∧
  decode (.seq 0b1000) = .ok .cgGen ∧ decode (.seq 0b1011) = .ok .bpFlush ∧ decode (.pq 0b10 0) = .ok .pqExtractMin ∧
  decode (.pq 0b01 ((3 : BitVec 32) ++ (97 : BitVec 9))) = .ok (.pqInsert ⟨3, 97⟩)

/-- Decoding what the encoder writes gives the operation back, every operand at every value its encoding admits; the
operations without an encoding are the SUBOP and PORT rows of R104. -/
def Obligations.DecodeOfEncodeIsTheInstruction : Prop :=
  (∀ (i : Instr) (sel : Selector), i.wellFormed = true → encode i = some sel → decode sel = .ok i) ∧
  (∀ i : Instr, encode i = none ↔
    i = .buildHeap ∨ i = .cgTraverse ∨ i = .cgSingle ∨ i = .outPop ∨ (∃ b, i = .bpPutBit b) ∨
    ∃ d, i = .freqInc d ∨ i = .heapifyDown d ∨ i = .ctLookup d ∨ i = .bpLatch d)

/-- R91 with R93: the command words the decoder rejects are exactly the malformed ones, and every other word is the word
the encoder writes for the command it decodes to, so no two words are one command and no bit of a word is dropped. -/
def Obligations.CommandDecoderIsExact : Prop :=
  (∀ w : CmdWord, (∃ e, decodeCmd w = .error e) ↔ malformedWord w) ∧
  (∀ (w : CmdWord) (i : Instr), decodeCmd w = .ok i → encode i = some (.cmd w) ∧ i.wellFormed = true)

/-- The words of a script's lines decode, in order, to commands. R102 and R103 give these: a command line its one command,
STREAM a BYTE per byte, PASS the stream and EOS, ENCODE START and two passes, or one when the input is empty, DUMP the three
table reads of a symbol, DRAIN none. That a line of blanks or of a comment alone (`blank`) gives no word is the model's choice
(log 19). The command lines are those whose operand is well formed; the others are in
`MalformedOperandLinesAssemble`. -/
def Obligations.ScriptWordsDecodeToTheirLines : Prop :=
  ∀ ls : List ScriptLine,
    (∀ i, ScriptLine.cmd i ∈ ls → i.wellFormed = true ∧ ∃ w, encode i = some (.cmd w)) →
    (assembleLines ls).map decodeCmd = (ls.flatMap fun l => match l with
      | .blank | .drain => []
      | .cmd i => [i]
      | .stream bs => bs.map .byte
      | .pass bs => bs.map .byte ++ [.eos]
      | .encodeRun [] => [.start, .eos]
      | .encodeRun (b :: bs) => .start :: ((b :: bs).map .byte ++ [.eos] ++ (b :: bs).map .byte ++ [.eos])
      | .dump sym => [.selsym sym, .rdfreq, .rdlen, .rdcode 0]).map Except.ok

/-! ## One step -/

/-- What `step` adds around `exec`: it clears the response port, and runs the operation its source selects: a command
word that decodes, accepted in a ready state and taken from the port; the operation of a busy SEQ; OUT_POP; a request
on the queue's wires. The model's choices in it: with no turn listed it is the default turn's (log 3); a request on the
wires is a step of its own, before any turn, `rst` included (log 7; in R97 the requests are part of the Tree Builder's own
operations, and in a run none stands on the wires). -/
def Obligations.StepRunsTheSelectedOperation : Prop :=
  (∀ (s : State) (w : CmdWord) (cs : List CmdWord) (ts : List Turn) (i : Instr), s.pqReq = .idle →
    s.turns = .hostCmd :: ts → isBusy s.seq = false → s.cmds = w :: cs → decode (.cmd w) = .ok i →
    step s = exec i { s with rsp := none, turns := ts, cmds := cs }) ∧
  (∀ (s : State) (ts : List Turn) (i : Instr), s.pqReq = .idle → s.turns = .core :: ts →
    decode (.seq (seqCode s.seq)) = .ok i → step s = exec i { s with rsp := none, turns := ts }) ∧
  (∀ (s : State) (ts : List Turn), s.pqReq = .idle → s.turns = .hostOut :: ts → s.outq ≠ [] →
    step s = exec .outPop { s with rsp := none, turns := ts }) ∧
  (∀ (s : State) (e : HeapEntry), s.pqReq = .insert e →
    step s = exec (.pqInsert e) { s with rsp := none, pqReq := .idle }) ∧
  (∀ s : State, s.pqReq = .extractMin → step s = exec .pqExtractMin { s with rsp := none, pqReq := .idle }) ∧
  (∀ s : State, s.pqReq = .idle → s.turns = [] →
    step s = step { s with turns :=
      [if s.drain = true ∧ s.outq ≠ [] then .hostOut else if isBusy s.seq then .core else .hostCmd] })

/-- R93 with R121: in a ready state other than S_FAULT a malformed or misplaced word raises IllegalCommand with ERRINFO
= the word; in S_FAULT it is discarded; either way it answers 0 if it is read class. A word that is neither runs. -/
def Obligations.IllegalWordsFaultOrAreDiscarded : Prop :=
  ∀ (s : State) (w : CmdWord) (cs : List CmdWord) (ts : List Turn), s.pqReq = .idle → s.turns = .hostCmd :: ts →
    s.cmds = w :: cs → isBusy s.seq = false →
    (malformedWord w ∨ s.seq ∉ legalStates (w.extractLsb' 8 4) →
      (s.seq ≠ .fault → step s = .next { s with
        turns := ts, cmds := cs, err := .illegalCommand, errInfo := w, seq := .fault,
        rsp := if w.getLsbD 11 then some 0 else none }) ∧
      (s.seq = .fault → step s = .next { s with
        turns := ts, cmds := cs, rsp := if w.getLsbD 11 then some 0 else none })) ∧
    (¬ malformedWord w → s.seq ∈ legalStates (w.extractLsb' 8 4) →
      ∃ i, decode (.cmd w) = .ok i ∧ step s = exec i { s with turns := ts, cmds := cs, rsp := none })

/-- R120: a command presented in a busy state is held: it changes nothing, and the word stays at the port. -/
def Obligations.CommandsAreHeldWhileBusy : Prop :=
  ∀ (s : State) (ts : List Turn), isBusy s.seq = true →
    (∀ (i : Instr) (w : CmdWord), encode i = some (.cmd w) → exec i s = .next s) ∧
    (s.pqReq = .idle → s.turns = .hostCmd :: ts → step s = .next { s with turns := ts, rsp := none })

/-- R280 with R281: `rst`, in every state, busy ones included, gives every scalar register its reset value and empties
OUTQ; the arrays keep their content. Then `busy` = 0, `cmd_ready` = 1, `done` = 0, `fault` = 0, `out_valid` = 0 and
RDREG 0 responds 0. The popped bytes and the turn consumed are the model's own fields (log 3, 10). -/
def Obligations.RstResetsEveryScalarRegister : Prop :=
  ∀ (s : State) (ts : List Turn), s.pqReq = .idle → s.turns = .rst :: ts → ∃ t,
    step s = .next t ∧
    t = { s with
      seq := .idle, err := .none, errInfo := 0, sel := 0, usc := 0, total := 0, nnode := 256, root := 0,
      ea := ⟨0, 0⟩, eb := ⟨0, 0⟩, curSym := 0, curLen := 0, acc := 0, nbits := 0, outq := [],
      pq := { heap := s.pq.heap, hsize := 0 }, popped := [], turns := ts, rsp := none } ∧
    pinBusy t = false ∧ pinCmdReady t = true ∧ pinDone t = false ∧ pinFault t = false ∧ pinOutValid t = false ∧
    exec (.rdreg 0) t = .next { t with rsp := some 0x00000000 }

/-! ## Host commands -/

/-- R122 and R127: NOP leaves every register unchanged, SELSYM s writes SEL and nothing else, in every ready state,
S_FAULT included. -/
def Obligations.NopAndSelsymInEveryReadyState : Prop :=
  ∀ s : State, isBusy s.seq = false →
    exec .nop s = .next s ∧ ∀ sym : Byte, exec (.selsym sym) s = .next { s with sel := sym }

/-- R123: START in S_IDLE enters S_INIT and changes nothing else. -/
def Obligations.StartEntersInit : Prop :=
  ∀ s : State, s.seq = .idle → exec .start s = .next { s with seq := .init }

/-- R124 in S_SCAN: BYTE d is FREQ_INC(d). In S_PACK, for a symbol with a code: CT_LOOKUP, whose result stands on the
wires (log 8), then BP_LATCH. -/
def Obligations.ByteCountsOrStartsAnEncode : Prop :=
  ∀ (s : State) (d : Byte),
    (s.seq = .scan → exec (.byte d) s = exec (.freqInc d) s) ∧
    (s.seq = .pack → (tableGet s.code d).len ≠ 0 →
      exec (.byte d) s = .next { s with
        curSym := d, curLen := (tableGet s.code d).len, seq := .emit, ctOut := tableGet s.code d })

/-- R125: EOS closes the scan pass, with the status EmptyAlphabet and S_DONE when no symbol was counted and with the
build otherwise; and closes the pack pass. -/
def Obligations.EosClosesThePass : Prop :=
  ∀ s : State,
    (s.seq = .scan → s.usc = 0 → exec .eos s = .next { s with err := .emptyAlphabet, seq := .done }) ∧
    (s.seq = .scan → s.usc ≠ 0 → exec .eos s = .next { s with seq := .load }) ∧
    (s.seq = .pack → exec .eos s = .next { s with seq := .flush })

/-- R126: ABORT 1 and ABORT 2 raise the kind the host reports, in every ready state but S_FAULT, where they are
discarded; OUTQ is not emptied. -/
def Obligations.AbortRaisesTheReportedKind : Prop :=
  ∀ s : State, isBusy s.seq = false →
    (s.seq ≠ .fault →
      exec (.abort 1) s = .next { s with err := .inputUnavailable, errInfo := 0x601, seq := .fault } ∧
      exec (.abort 2) s = .next { s with err := .outputUnwritable, errInfo := 0x602, seq := .fault }) ∧
    (s.seq = .fault → exec (.abort 1) s = .next s ∧ exec (.abort 2) s = .next s)

/-- R282 with R132: CLEAR, in every ready state, has exactly the effect of `rst` on the registers and OUTQ and leaves
the arrays as they are; in a busy state it is not accepted. `rst` as a turn (log 3) and the popped bytes, which both
forget (log 10), are the model's own. -/
def Obligations.ClearEqualsReset : Prop :=
  (∀ s : State, isBusy s.seq = false →
    exec .clear s = .next { s with
      seq := .idle, err := .none, errInfo := 0, sel := 0, usc := 0, total := 0, nnode := 256, root := 0,
      ea := ⟨0, 0⟩, eb := ⟨0, 0⟩, curSym := 0, curLen := 0, acc := 0, nbits := 0, outq := [],
      pq := { heap := s.pq.heap, hsize := 0 }, popped := [] } ∧
    ∀ ts, s.pqReq = .idle → s.turns = .rst :: ts → step s = exec .clear { s with turns := ts, rsp := none }) ∧
  (∀ s : State, isBusy s.seq = true → exec .clear s = .next s)

/-- R128, R129, R130: in S_PACK and S_DONE the table reads answer FREQ[SEL], CODE_LEN[SEL] and bits 32·w + 31 down to
32·w of CODE_BITS[SEL], zero-extended, and change no state. -/
def Obligations.TableReadsAnswer : Prop :=
  ∀ s : State, s.seq = .pack ∨ s.seq = .done →
    exec .rdfreq s = .next { s with rsp := some (tableGet s.freq s.sel) } ∧
    exec .rdlen s = .next { s with rsp := some (BitVec.ofNat 32 (tableGet s.code s.sel).len.toNat) } ∧
    ∀ w : Byte, w < 8 → ∃ v : Word32, exec (.rdcode w) s = .next { s with rsp := some v } ∧
      ∀ k, k < 32 → v.getLsbD k = (tableGet s.code s.sel).bits.getLsbD (32 * w.toNat + k)

/-- R131 with R39 and R40: in every ready state RDREG r answers the word of register r and changes no state. STATUS is
SEQ, ERR and OUTNE in bits 3:0, 7:4 and 8; PACKER is NBITS and ACC; CUR is CUR_LEN and CUR_SYM. Registers 14 to 255 are
reserved and raise IllegalCommand. -/
def Obligations.RdregAnswersTheRegister : Prop :=
  ∀ s : State, isBusy s.seq = false →
    (∀ r : Byte, 13 < r → s.seq ≠ .fault → exec (.rdreg r) s = .next { s with
      err := .illegalCommand, errInfo := 0xB00 + r.setWidth 12, seq := .fault, rsp := some 0 }) ∧
    ∀ (r : Byte) (v : Nat), (r, v) ∈ ([(0, (seqCode s.seq).toNat + 16 * (errCode s.err).toNat + (if s.outq = [] then 0 else 256)),
      (1, s.usc.toNat), (2, s.total.toNat), (3, s.errInfo.toNat), (4, s.root.toNat), (5, s.nnode.toNat),
      (6, s.pq.hsize.val), (7, s.sel.toNat), (8, 256 * s.nbits.toNat + s.acc.toNat), (9, s.ea.freq.toNat),
      (10, s.ea.node.toNat), (11, s.eb.freq.toNat), (12, s.eb.node.toNat),
      (13, 256 * s.curLen.toNat + s.curSym.toNat)] : List (Byte × Nat)) →
    exec (.rdreg r) s = .next { s with rsp := some (BitVec.ofNat 32 v) }

/-! ## Frequency Scanner -/

/-- R140: INIT zeroes the tables and the run's registers and enters S_SCAN; ERR, ERRINFO, SEL, OUTQ, HEAP and the
arena are not written. -/
def Obligations.InitPreparesARun : Prop :=
  ∀ s : State, ∃ fr co,
    exec .init s = .next { s with
      freq := fr, code := co, usc := 0, total := 0, pq := { heap := s.pq.heap, hsize := 0 }, nnode := 256, root := 0,
      ea := ⟨0, 0⟩, eb := ⟨0, 0⟩, curSym := 0, curLen := 0, acc := 0, nbits := 0, seq := .scan } ∧
    ∀ sym : Byte, tableGet fr sym = 0 ∧ tableGet co sym = ⟨0, 0⟩

/-- R141: FREQ_INC(d) counts one byte, or raises LengthOverflow and counts nothing; where the counts add up to TOTAL no
addition wraps. In states no run reaches, the additions wrap at their registers' widths, which is the model's choice
(log 12). -/
def Obligations.FreqIncCountsOneByte : Prop :=
  ∀ (s : State) (d : Byte),
    (s.total.toNat = 2 ^ 32 - 1 → s.seq ≠ .fault →
      exec (.freqInc d) s = .next { s with err := .lengthOverflow, errInfo := 0x200 + d.setWidth 12, seq := .fault }) ∧
    (s.total.toNat < 2 ^ 32 - 1 → ∃ fr,
      exec (.freqInc d) s = .next { s with
        freq := fr, total := s.total + 1, usc := if tableGet s.freq d = 0 then s.usc + 1 else s.usc } ∧
      tableGet fr d = tableGet s.freq d + 1 ∧ (∀ x, x ≠ d → tableGet fr x = tableGet s.freq x) ∧
      (freqSum s.freq = s.total.toNat → s.usc.toNat = (presentSyms s.freq).length →
        (tableGet fr d).toNat = (tableGet s.freq d).toNat + 1 ∧ (s.total + 1).toNat = s.total.toNat + 1 ∧
        s.usc.toNat + (if tableGet s.freq d = 0 then 1 else 0) ≤ 256))

/-- R142: after the bytes ds of a scan pass that began with INIT's tables, FREQ[x] is how often x occurs in ds, USC the
number of distinct bytes, TOTAL the length and the sum of all FREQ[x] (R230); and nothing else has changed. -/
def Obligations.ScanPassCountsItsBytes : Prop :=
  ∀ (s : State) (ds : List Byte), s.seq = .scan → s.usc = 0 → s.total = 0 → (∀ x, tableGet s.freq x = 0) →
    ds.length < 2 ^ 32 → ∃ fr,
      execAll (ds.map Instr.byte) s = .next { s with
        freq := fr, total := BitVec.ofNat 32 ds.length, usc := BitVec.ofNat 9 ds.dedup.length } ∧
      (∀ x, (tableGet fr x).toNat = ds.count x) ∧ freqSum fr = ds.length

/-! ## Priority Queue -/

/-- R151: HEAPIFY_DOWN(i) restores the order at and below i when it held below i; it only moves entries, and moves none
above i nor at or beyond HSIZE. Which array results, in every state: with no child strictly smaller, the same; else it
swaps with the left child, unless the right one is strictly smaller than the left one, and goes on from there. -/
def Obligations.HeapifyDownRestoresOrder : Prop :=
  (∀ (s : State) (i : Byte), OrderedFrom s.pq.heap s.pq.hsize.val (i.toNat + 1) → ∃ h,
    exec (.heapifyDown i) s = .next { s with pq := { heap := h, hsize := s.pq.hsize } } ∧
    OrderedFrom h s.pq.hsize.val i.toNat ∧ h.cells.Perm s.pq.heap.cells ∧
    ∀ j, j < i.toNat ∨ s.pq.hsize.val ≤ j → heapAt h j = heapAt s.pq.heap j) ∧
  ∀ (s : State) (i : Byte),
    let f := fun k => (heapAt s.pq.heap k).freq
    let l := 2 * i.toNat + 1
    let r := 2 * i.toNat + 2
    ((l < s.pq.hsize.val → f i.toNat ≤ f l) → (r < s.pq.hsize.val → f i.toNat ≤ f r) →
      exec (.heapifyDown i) s = .next s) ∧
    ∀ (m : Byte) (h : Arr HeapEntry 256), m.toNat < s.pq.hsize.val → Swapped s.pq.heap h i.toNat m.toNat →
      f m.toNat < f i.toNat →
      (m.toNat = l ∧ (r < s.pq.hsize.val → f l ≤ f r)) ∨ (m.toNat = r ∧ f r < f l) →
      exec (.heapifyDown i) s = exec (.heapifyDown m) { s with pq := { heap := h, hsize := s.pq.hsize } }

/-- R152: BUILD_HEAP is HEAPIFY_DOWN from position ⌊HSIZE / 2⌋ − 1 down to 0, which says which array results; after it
the heap order holds whatever HEAP held; it only moves the queue's entries. -/
def Obligations.BuildHeapOrdersAnyContent : Prop :=
  ∀ s : State, ∃ q,
    exec .buildHeap s = .next { s with pq := q } ∧
    execAll ((List.range (s.pq.hsize.val / 2)).reverse.map fun i => .heapifyDown (BitVec.ofNat 8 i)) s =
      .next { s with pq := q } ∧ q.hsize = s.pq.hsize ∧ HeapOrdered q ∧
    (entries q).Perm (entries s.pq) ∧ ∀ j, s.pq.hsize.val ≤ j → heapAt q.heap j = heapAt s.pq.heap j

/-- R153 with R150: PQ_INSERT appends the entry and restores the order, by BUILD_HEAP on the queue with the entry
appended; at 256 entries it raises QueueFull. -/
def Obligations.InsertAddsOneEntry : Prop :=
  ∀ (s : State) (e : HeapEntry),
    (s.pq.hsize.val < 256 → ∃ q,
      exec (.pqInsert e) s = .next { s with pq := q } ∧ q.hsize.val = s.pq.hsize.val + 1 ∧ HeapOrdered q ∧
      (entries q).Perm (e :: entries s.pq) ∧ (∀ j, s.pq.hsize.val < j → heapAt q.heap j = heapAt s.pq.heap j) ∧
      ∀ p : Queue, p.hsize.val = s.pq.hsize.val + 1 →
        (∀ j, heapAt p.heap j = if j = s.pq.hsize.val then e else heapAt s.pq.heap j) →
        exec .buildHeap { s with pq := p } = .next { s with pq := q }) ∧
    (s.pq.hsize.val = 256 → s.seq ≠ .fault →
      exec (.pqInsert e) s = .next { s with err := .queueFull, errInfo := 0, seq := .fault })

/-- R156: with the heap in order, PQ_INSERT leaves HEAP exactly as a strict sift-up of the appended entry would. -/
def Obligations.InsertEqualsSiftUp : Prop :=
  ∀ (s : State) (e : HeapEntry), HeapOrdered s.pq → (room : s.pq.hsize.val < 256) →
    exec (.pqInsert e) s = .next { s with
      pq := { heap := siftUp 256 (heapPut s.pq.heap s.pq.hsize.val e) s.pq.hsize.val
              hsize := ⟨s.pq.hsize.val + 1, Nat.succ_lt_succ room⟩ } }

/-- R154 with R150: PQ_EXTRACT_MIN returns and removes an entry with the smallest frequency, the one at position 0, and
keeps the order; on an empty queue it raises QueueEmpty. Which array results, in every state: the last entry moves to
position 0 and HEAPIFY_DOWN(0) follows. -/
def Obligations.ExtractRemovesTheMinimum : Prop :=
  ∀ s : State,
    (∀ p : Queue, p.hsize.val + 1 = s.pq.hsize.val →
      (∀ j, heapAt p.heap j = heapAt s.pq.heap (if j = 0 then p.hsize.val else j)) →
      exec .pqExtractMin s = exec (.heapifyDown 0) { s with pq := p, pqOut := heapAt s.pq.heap 0 }) ∧
    (HeapOrdered s.pq → 0 < s.pq.hsize.val → ∃ q,
      exec .pqExtractMin s = .next { s with pq := q, pqOut := heapAt s.pq.heap 0 } ∧
      q.hsize.val + 1 = s.pq.hsize.val ∧ HeapOrdered q ∧
      (entries s.pq).Perm (heapAt s.pq.heap 0 :: entries q) ∧
      (∀ x ∈ entries s.pq, (heapAt s.pq.heap 0).freq ≤ x.freq) ∧
      ∀ j, q.hsize.val ≤ j → heapAt q.heap j = heapAt s.pq.heap j) ∧
    (s.pq.hsize.val = 0 → s.seq ≠ .fault →
      exec .pqExtractMin s = .next { s with err := .queueEmpty, errInfo := 0, seq := .fault })

/-! ## Tree Builder -/

/-- R171: TB_LOAD inserts one leaf per present symbol, in ascending order, each by PQ_INSERT, and goes on to the merge
loop, or to S_ROOT when one is left. -/
def Obligations.LoadInsertsTheLeaves : Prop :=
  ∀ s : State, HeapOrdered s.pq → s.pq.hsize.val + (presentSyms s.freq).length ≤ 256 → ∃ q,
    exec .tbLoad s = .next { s with pq := q, seq := if 1 < q.hsize.val then .xa else .root } ∧
    execAll ((leafEntries s.freq).map .pqInsert) s = .next { s with pq := q } ∧
    q.hsize.val = s.pq.hsize.val + (presentSyms s.freq).length ∧ HeapOrdered q ∧
    (entries q).Perm (leafEntries s.freq ++ entries s.pq)

/-- R172, R173: TB_XA and TB_XB extract a minimum into EA and EB, by PQ_EXTRACT_MIN. -/
def Obligations.ExtractsFillEaAndEb : Prop :=
  ∀ s : State, HeapOrdered s.pq → 0 < s.pq.hsize.val → ∃ q,
    exec .tbXa s = .next { s with pq := q, pqOut := heapAt s.pq.heap 0, ea := heapAt s.pq.heap 0, seq := .xb } ∧
    exec .tbXb s = .next { s with pq := q, pqOut := heapAt s.pq.heap 0, eb := heapAt s.pq.heap 0, seq := .ins } ∧
    exec .pqExtractMin s = .next { s with pq := q, pqOut := heapAt s.pq.heap 0 } ∧
    q.hsize.val + 1 = s.pq.hsize.val ∧ HeapOrdered q ∧ (entries s.pq).Perm (heapAt s.pq.heap 0 :: entries q) ∧
    ∀ x ∈ entries s.pq, (heapAt s.pq.heap 0).freq ≤ x.freq

/-- R174: TB_INS creates the node with the two as its right and left child, reinserts it by PQ_INSERT, counts it, and goes
on. In states no run reaches EA.freq + EB.freq wraps at 32 bits, which is the model's choice (log 12). -/
def Obligations.InsCreatesTheInternalNode : Prop :=
  ∀ s : State, 256 ≤ s.nnode.toNat → s.nnode.toNat ≤ 510 → s.pq.hsize.val < 256 → ∃ a q,
    exec .tbIns s = .next { s with
      arena := a, pq := q, nnode := s.nnode + 1, seq := if 1 < q.hsize.val then .xa else .root } ∧
    arenaGet a s.nnode = .ok ⟨s.ea.freq + s.eb.freq, s.eb.node, s.ea.node⟩ ∧
    (∀ m, m ≠ s.nnode → arenaGet a m = arenaGet s.arena m) ∧
    exec (.pqInsert ⟨s.ea.freq + s.eb.freq, s.nnode⟩) s = .next { s with pq := q } ∧
    q.hsize.val = s.pq.hsize.val + 1 ∧ HeapOrdered q ∧
    (entries q).Perm (⟨s.ea.freq + s.eb.freq, s.nnode⟩ :: entries s.pq)

/-- R175: TB_ROOT copies HEAP[0].node to ROOT; the entry is not extracted. -/
def Obligations.RootIsTheEntryLeft : Prop :=
  ∀ s : State, exec .tbRoot s = .next { s with root := (heapAt s.pq.heap 0).node, seq := .gen }

/-! ## Code Table Generator and Code Table -/

/-- R192 with R190: where ROOT names a tree the arena holds, whose leaves are distinct, CG_TRAVERSE writes the path of
every leaf as its code and no other entry. -/
def Obligations.TraverseWritesThePaths : Prop :=
  ∀ (s : State) (t : HuffTree), t.rootId = s.root → t.Stored s.arena → t.leaves.Nodup → ∃ c,
    exec .cgTraverse s = .next { s with code := c } ∧
    (∀ p ∈ t.paths, tableGet c p.1 = entryOf p.2) ∧ ∀ sym, sym ∉ t.leaves → tableGet c sym = tableGet s.code sym

/-- R193: CG_SINGLE gives the only symbol the one-bit code "0", and writes no other entry. -/
def Obligations.SingleSymbolGetsCodeZero : Prop :=
  ∀ s : State, s.root < 256 → ∃ c,
    exec .cgSingle s = .next { s with code := c } ∧ tableGet c (s.root.setWidth 8) = ⟨1, 0⟩ ∧
    ∀ sym, sym ≠ s.root.setWidth 8 → tableGet c sym = tableGet s.code sym

/-- R191: CG_GEN fills the table from the tree ROOT names, one leaf or more, and enters S_PACK. -/
def Obligations.GenFillsTheCodeTable : Prop :=
  ∀ (s : State) (t : HuffTree), t.rootId = s.root → t.Stored s.arena → t.leaves.Nodup → ∃ c,
    exec .cgGen s = .next { s with code := c, seq := .pack } ∧
    (∀ sym ∈ t.leaves, tableGet c sym = t.entry sym) ∧ ∀ sym, sym ∉ t.leaves → tableGet c sym = tableGet s.code sym

/-- R194: CT_LOOKUP(d) gives the entry of a symbol with a code and raises MissingCode for one without; the fault leaves
ACC, NBITS and OUTQ, and everything else but ERR, ERRINFO and SEQ, as they were. -/
def Obligations.LookupFindsTheCodeOrFails : Prop :=
  ∀ (s : State) (d : Byte),
    ((tableGet s.code d).len ≠ 0 → exec (.ctLookup d) s = .next { s with ctOut := tableGet s.code d }) ∧
    ((tableGet s.code d).len = 0 → s.seq ≠ .fault →
      exec (.ctLookup d) s = .next { s with err := .missingCode, errInfo := 0x200 + d.setWidth 12, seq := .fault })

/-- The model's choice (log 13): an operation whose operand is an index that does not exist stops by name: TB_INS with
NNODE, and CG_TRAVERSE and CG_GEN with ROOT, outside the arena's 256 to 510, and CG_SINGLE with ROOT past the table. -/
def Obligations.IndicesThatDoNotExistStop : Prop :=
  ∀ s : State,
    (s.nnode.toNat < 256 ∨ s.nnode.toNat = 511 → exec .tbIns s = .fault (.arenaIndex s.nnode)) ∧
    (s.root.toNat = 511 → exec .cgTraverse s = .fault (.arenaIndex s.root) ∧
      exec .cgGen s = .fault (.arenaIndex s.root)) ∧
    (256 ≤ s.root.toNat → exec .cgSingle s = .fault (.codeTableIndex s.root))

/-! ## Bit-Packed Writer and output port -/

/-- R206: BP_LATCH(d). The spec calls it only after CT_LOOKUP(d) succeeded; by itself the operation runs in every state
(log 20). -/
def Obligations.LatchStartsASymbol : Prop :=
  ∀ (s : State) (d : Byte),
    exec (.bpLatch d) s = .next { s with curSym := d, curLen := (tableGet s.code d).len, seq := .emit }

/-- R207: BP_PUT_BIT(b) appends a bit, and on the eighth emits the byte and resets; with OUTQ full the eighth bit waits.
No pending bit is shifted out. -/
def Obligations.PutBitAppendsOrEmits : Prop :=
  ∀ (s : State) (b : Bool), ∃ v : Byte,
    (s.acc.toNat < 2 ^ s.nbits.toNat → v.toNat = 2 * s.acc.toNat + b.toNat) ∧
    (∀ k, k < 8 → v.getLsbD k = if k = 0 then b else s.acc.getLsbD (k - 1)) ∧
    (s.nbits ≠ 7 → exec (.bpPutBit b) s = .next { s with acc := v, nbits := s.nbits + 1 }) ∧
    (s.nbits = 7 → s.outq.length < s.outDepth →
      exec (.bpPutBit b) s = .next { s with outq := s.outq ++ [v], acc := 0, nbits := 0 }) ∧
    (s.nbits = 7 → s.outDepth ≤ s.outq.length → exec (.bpPutBit b) s = .next s)

/-- R208: BP_EMIT returns to S_PACK when the code is appended; otherwise it appends bit CUR_LEN − 1 of the code as
BP_PUT_BIT does, held while that would emit into a full OUTQ. -/
def Obligations.EmitAppendsTheNextCodeBit : Prop :=
  ∀ s : State,
    (s.curLen = 0 → exec .bpEmit s = .next { s with seq := .pack }) ∧
    (s.curLen ≠ 0 → s.nbits = 7 → s.outDepth ≤ s.outq.length → exec .bpEmit s = .next s) ∧
    (s.curLen ≠ 0 → ¬ (s.nbits = 7 ∧ s.outDepth ≤ s.outq.length) → ∃ t,
      exec (.bpPutBit ((tableGet s.code s.curSym).bits.getLsbD (s.curLen.toNat - 1))) s = .next t ∧
      exec .bpEmit s = .next { t with curLen := s.curLen - 1 })

/-- R209: BP_FLUSH emits the pending bits at the high-order end of a byte with zeros below, held while OUTQ is full, and
emits nothing when none is pending. -/
def Obligations.FlushPadsTheLastByte : Prop :=
  ∀ s : State,
    (s.nbits = 0 → exec .bpFlush s = .next { s with seq := .done }) ∧
    (s.nbits ≠ 0 → s.outDepth ≤ s.outq.length → exec .bpFlush s = .next s) ∧
    (s.nbits ≠ 0 → s.outq.length < s.outDepth → ∃ v : Byte,
      exec .bpFlush s = .next { s with outq := s.outq ++ [v], acc := 0, nbits := 0, seq := .done } ∧
      ∀ k, k < 8 → v.getLsbD k = (if k < 8 - s.nbits.toNat then false else s.acc.getLsbD (k - (8 - s.nbits.toNat))))

/-- R210: OUT_POP hands the oldest emitted byte to the host, in every SEQ state. -/
def Obligations.PopTakesTheOldestByte : Prop :=
  ∀ (s : State) (b : Byte) (rest : List Byte), s.outq = b :: rest →
    pinOutValid s = true ∧ pinOutData s = some b ∧
    exec .outPop s = .next { s with outq := rest, popped := s.popped ++ [b] }

/-- R208: with room in OUTQ, BYTE d and CODE_LEN[d] + 1 times BP_EMIT append the bits of d's code in order and are back
in S_PACK. -/
def Obligations.ByteAppendsItsWholeCode : Prop :=
  ∀ (s : State) (d : Byte), s.seq = .pack → (tableGet s.code d).len ≠ 0 → s.outq.length + 32 ≤ s.outDepth →
    execAll (.byte d :: List.replicate ((tableGet s.code d).len.toNat + 1) .bpEmit) s =
      .next { putBits (codeOf (tableGet s.code d)) s with
        curSym := d, curLen := 0, ctOut := tableGet s.code d }

/-- R212: appending bits emits the whole groups of eight, first bit as bit 7, and keeps the rest pending; nothing else
changes. -/
def Obligations.PackedBytesAreTheBitsInOrder : Prop :=
  ∀ (s : State) (c : List Bool), s.acc.toNat < 2 ^ s.nbits.toNat →
    putBits c s = { s with
      outq := s.outq ++ wholeBytes (pendingBits s ++ c), acc := (putBits c s).acc, nbits := (putBits c s).nbits } ∧
    pendingBits (putBits c s) = restBits (pendingBits s ++ c) ∧
    (putBits c s).acc.toNat < 2 ^ (putBits c s).nbits.toNat

/-- R67 and R213: OUT_POP and an internal operation that is not held commute, so when HOST-OUT pops changes neither the
emitted bytes nor the final state. -/
def Obligations.PopCommutesWithCore : Prop :=
  ∀ (s t : State) (i : Instr), s.outq ≠ [] → held s = false → opOfState s.seq = some i → exec i s = .next t →
    ∃ u v, exec .outPop s = .next u ∧ exec i u = .next v ∧ exec .outPop t = .next v ∧ emitted v = emitted t

/-- R285: while the emission is held and HOST-OUT does not pop, CORE makes no progress. -/
def Obligations.UndrainedOutputHoldsForEver : Prop :=
  ∀ s : State, held s = true → s.pqReq = .idle → s.turns = [] → s.drain = false → s.rsp = none →
    ∀ k, Sys2Proof.core.run k s = .next s

/-! ## Faults -/

/-- R260: a step that raises changes ERR, ERRINFO and SEQ and nothing else, the `fault` pin then reads 1; in S_FAULT
`raise` does nothing. -/
def Obligations.FaultEntryWritesThreeRegisters : Prop :=
  (∀ (k : ErrKind) (info : CmdWord) (s : State),
    (s.seq ≠ .fault → raise k info s = { s with err := k, errInfo := info, seq := .fault }) ∧
    (s.seq = .fault → raise k info s = s) ∧ pinFault (raise k info s) = true) ∧
  (∀ (s : State) (d : Byte), s.seq = .scan → s.total.toNat = 2 ^ 32 - 1 →
    exec (.byte d) s = .next { s with err := .lengthOverflow, errInfo := 0x200 + d.setWidth 12, seq := .fault }) ∧
  (∀ (s : State) (d : Byte), s.seq = .pack → (tableGet s.code d).len = 0 →
    exec (.byte d) s = .next { s with err := .missingCode, errInfo := 0x200 + d.setWidth 12, seq := .fault }) ∧
  (∀ s : State, s.seq ≠ .fault → s.pq.hsize.val = 0 →
    exec .tbXa s = .next { s with err := .queueEmpty, errInfo := 0, seq := .fault } ∧
    exec .tbXb s = .next { s with err := .queueEmpty, errInfo := 0, seq := .fault }) ∧
  (∀ s : State, s.seq ≠ .fault → s.pq.hsize.val = 256 → 256 ≤ s.nnode.toNat → s.nnode.toNat ≤ 510 →
    exec .tbIns s = .next { s with err := .queueFull, errInfo := 0, seq := .fault }) ∧
  (∀ s : State, s.seq ≠ .fault → 256 < s.pq.hsize.val + (presentSyms s.freq).length →
    exec .tbLoad s = .next { s with err := .queueFull, errInfo := 0, seq := .fault })

/-- R261, R263: in S_FAULT nothing but CLEAR and `rst` changes SEQ, ERR or ERRINFO; SELSYM writes SEL, reads answer,
OUT_POP works, and no other register or array changes. -/
def Obligations.FirstFaultIsKept : Prop :=
  ∀ s t : State, s.seq = .fault → s.pqReq = .idle → step s = .next t → s.turns.head? ≠ some .rst →
    s.cmds.head? ≠ some 0x400 →
    t = { s with sel := t.sel, outq := t.outq, popped := t.popped, rsp := t.rsp, cmds := t.cmds, turns := t.turns }

/-! ## The whole machine -/

/-- R225: a step moves SEQ only along the rows of the transition relation; `rst` alone leads to S_IDLE from anywhere. -/
def Obligations.SeqMovesOnlyAsTheTableSays : Prop :=
  ∀ s t : State, s.pqReq = .idle → step s = .next t →
    t.seq = s.seq ∨ (s.seq, t.seq) ∈ seqEdges ∨ (s.turns.head? = some .rst ∧ t.seq = .idle)

/-- R143 and R196: only INIT and the scan pass write FREQ, USC and TOTAL (CLEAR and `rst` reset USC and TOTAL to 0), and
only INIT and CG_GEN write the code table. -/
def Obligations.TablesAreImmutableOnceMade : Prop :=
  ∀ s t : State, s.pqReq = .idle → step s = .next t →
    (s.seq ≠ .init → s.seq ≠ .scan → t.freq = s.freq ∧ ((t.usc = s.usc ∧ t.total = s.total) ∨
      ((s.turns.head? = some .rst ∨ s.cmds.head? = some 0x400) ∧ t.seq = .idle ∧ t.usc = 0 ∧ t.total = 0))) ∧
    (s.seq ≠ .init → s.seq ≠ .gen → t.code = s.code)

/-- R22: ERR is written only by `raise`, by EOS on an empty scan pass, and by reset and CLEAR. -/
def Obligations.ErrIsWrittenOnlyAsSaid : Prop :=
  ∀ s t : State, s.pqReq = .idle → step s = .next t → t.err ≠ s.err →
    (s.seq ≠ .fault ∧ t.seq = .fault) ∨
    (s.seq = .scan ∧ s.usc = 0 ∧ t.seq = .done ∧ t.err = .emptyAlphabet) ∨
    ((s.turns.head? = some .rst ∨ s.cmds.head? = some 0x400) ∧ t.seq = .idle ∧ t.err = .none)

/-- R24: SEL is written only by SELSYM and cleared by reset and CLEAR. -/
def Obligations.SelIsWrittenOnlyBySelsym : Prop :=
  ∀ s t : State, s.pqReq = .idle → step s = .next t → t.sel ≠ s.sel →
    (∃ cs, s.cmds = cmdWord 0x5 t.sel :: cs ∧ isBusy s.seq = false ∧ t.seq = s.seq) ∨
    ((s.turns.head? = some .rst ∨ s.cmds.head? = some 0x400) ∧ t.seq = .idle ∧ t.sel = 0)

/-- The reset state meets every invariant below. -/
def Obligations.ResetMeetsTheInvariants : Prop := RunOk State.reset

/-- R22, R31, R32, R38: every step keeps the registers in their ranges and in step with SEQ. -/
def Obligations.StepKeepsRegistersOk : Prop :=
  ∀ s t : State, RegistersOk s → step s = .next t → RegistersOk t

/-- R157: every step, a request on the queue's wires included, keeps the heap order. -/
def Obligations.StepKeepsHeapOrder : Prop :=
  ∀ s t : State, HeapOrdered s.pq → step s = .next t → HeapOrdered t.pq

/-- R34: every step keeps the sum of all FREQ[s] equal to TOTAL and USC equal to the number of symbols present. -/
def Obligations.StepKeepsCounts : Prop :=
  ∀ s t : State, s.pqReq = .idle → CountsOk s → step s = .next t → CountsOk t

/-- R178, R190, R195: every step keeps all the invariants: the queue holds a forest over the present symbols, then ROOT
names one tree over them, in the arena to the end of the run, and then the code table holds its paths. -/
def Obligations.StepKeepsTheRunInvariant : Prop :=
  ∀ s t : State, RunOk s → step s = .next t → RunOk t

/-- R158, R66, R178: in a state that meets the invariants every step has a next state, so none meets the model's own stops
(log 13, 14), and no step raises QueueEmpty or QueueFull. -/
def Obligations.RunsNeverStopAndNeverMeetAQueueFault : Prop :=
  ∀ s : State, RunOk s → ∃ t, step s = .next t ∧
    (t.err = .queueEmpty ∨ t.err = .queueFull → t.err = s.err ∧ s.seq = .fault)

/-- R231 with R195 (a), (b), (d): with the table complete, exactly the present symbols have a code, no code is a prefix
of another's, and the bits above a code are 0. -/
def Obligations.CodesArePrefixFree : Prop :=
  ∀ s : State, RunOk s → coded s = true →
    (∀ x, tableGet s.freq x ≠ 0 ↔ (tableGet s.code x).len ≠ 0) ∧
    (∀ x y, x ≠ y → tableGet s.freq x ≠ 0 → tableGet s.freq y ≠ 0 →
      ¬ codeOf (tableGet s.code x) <+: codeOf (tableGet s.code y)) ∧
    ∀ x, (tableGet s.code x).bits.toNat < 2 ^ (tableGet s.code x).len.toNat

/-- R195 (c): with two symbols or more the code lengths satisfy the Kraft equality, here times 2^255. -/
def Obligations.KraftEquality : Prop :=
  ∀ s : State, RunOk s → coded s = true → 2 ≤ s.usc.toNat →
    ((presentSyms s.freq).map fun x => 2 ^ (255 - (tableGet s.code x).len.toNat)).sum = 2 ^ 255

/-- R232, R178 (a), (c), (d): with two symbols or more there is one tree under ROOT in the arena; its leaves are the USC
present symbols, its internal nodes the USC − 1 entries 256 to NNODE − 1, each once, and the code table holds its codes. -/
def Obligations.TreeHasUscLeaves : Prop :=
  ∀ s : State, RunOk s → coded s = true → 2 ≤ s.usc.toNat →
    s.nnode.toNat - 256 = s.usc.toNat - 1 ∧
    ∃ t : HuffTree, t.rootId = s.root ∧ t.Stored s.arena ∧
      (∀ u : HuffTree, u.rootId = s.root → u.Stored s.arena → u = t) ∧
      t.leaves.length = s.usc.toNat ∧ t.leaves.Perm (presentSyms s.freq) ∧
      t.inner.Perm ((List.range (s.usc.toNat - 1)).map fun k => BitVec.ofNat 9 (256 + k)) ∧
      ∀ sym, tableGet s.code sym = t.entry sym

/-- R228: a step of CORE that is not held brings a busy state one step nearer to a ready one; the build takes at most
768 steps and an encode at most 256. -/
def Obligations.BusySequencesEnd : Prop :=
  ∀ (s t : State) (ts : List Turn), RunOk s → isBusy s.seq = true → held s = false → s.turns = .core :: ts →
    step s = .next t →
    coreWork t + 1 = coreWork s ∧ coreWork s ≤ (if s.seq = .emit then 256 else 768) ∧
    (isBusy t.seq = false ↔ coreWork t = 0)

/-- R237: what the arrays held before a run changes nothing: two states that differ only in array content no rule reads
step alike, with the same response and the same bytes. -/
def Obligations.UnreadContentIsNeverObserved : Prop :=
  ∀ s s' t : State, RunOk s → Alike s s' → step s = .next t →
    ∃ t', step s' = .next t' ∧ Alike t t' ∧ t'.rsp = t.rsp ∧ emitted t' = emitted t

/-! ## Script lines with a malformed operand -/

/-- A line ABORT b, RDCODE b or RDREG b is in its place in the script's words the one word {OP, b} of R91, for every byte b,
and where b is malformed (R93) the decoder rejects that word by name. That a line with a malformed operand is a line of a
script at all is the model's choice (log 19): R102 gives each line its word and is silent on such an operand. -/
def Obligations.MalformedOperandLinesAssemble : Prop :=
  ∀ b : Byte,
    (∀ (i : Instr) (w : CmdWord), (i = .abort b ∧ w = 0x600 ||| b.zeroExtend 12) ∨
      (i = .rdcode b ∧ w = 0xA00 ||| b.zeroExtend 12) ∨ (i = .rdreg b ∧ w = 0xB00 ||| b.zeroExtend 12) →
      ∀ ls ls' : List ScriptLine,
        assembleLines (ls ++ .cmd i :: ls') = assembleLines ls ++ w :: assembleLines ls') ∧
    (b ≠ 1 → b ≠ 2 → decodeCmd (0x600 ||| b.zeroExtend 12) = .error (.abortKind b)) ∧
    (8 ≤ b.toNat → decodeCmd (0xA00 ||| b.zeroExtend 12) = .error (.codeWordNumber b)) ∧
    (14 ≤ b.toNat → decodeCmd (0xB00 ||| b.zeroExtend 12) = .error (.registerNumber b))
end

