-- ==== Sys2Proof/Laws/Arrays.lean ====
section
/-! SUPPORT. Laws/Arrays.lean: reads and writes of the arrays (20_memory.md R67, R71): a read after a write to the same
entry gives the value written, a write leaves every other entry alone, and equal reads mean equal arrays. -/
namespace Sys2Proof.Machine

/-- Arrays with the same entries are equal. -/
theorem arr_ext {α : Type} {n : Nat} {a b : Arr α n} (h : a.cells = b.cells) : a = b := by
  cases a; cases b; simp_all

@[simp] theorem fill_cells {α : Type} (n : Nat) (x : α) : (Arr.fill n x).cells = List.replicate n x := rfl

@[simp] theorem tableGet_fill {α : Type} (x : α) (i : Byte) : tableGet (Arr.fill 256 x) i = x :=
  List.getElem_replicate _

@[simp] theorem tableGet_tableSet_same {α : Type} (a : Arr α 256) (i : Byte) (x : α) :
    tableGet (tableSet a i x) i = x := by
  simp [tableGet, tableSet]

theorem tableGet_tableSet_ne {α : Type} (a : Arr α 256) {i j : Byte} (x : α) (h : j ≠ i) :
    tableGet (tableSet a i x) j = tableGet a j := by
  have : i.toNat ≠ j.toNat := fun e => h (BitVec.eq_of_toNat_eq e.symm)
  simp [tableGet, tableSet, List.getElem_set_ne this]

/-- A read by symbol of a written array, both cases. -/
theorem tableGet_tableSet {α : Type} (a : Arr α 256) (i j : Byte) (x : α) :
    tableGet (tableSet a i x) j = if j = i then x else tableGet a j := by
  split
  · subst_vars; simp
  · exact tableGet_tableSet_ne a x ‹_›

/-- Two 256-entry arrays that read alike at every symbol are equal. -/
theorem table_ext {α : Type} {a b : Arr α 256} (h : ∀ i, tableGet a i = tableGet b i) : a = b := by
  apply arr_ext
  apply List.ext_getElem (by rw [a.size, b.size])
  intro k h1 h2
  have hk : k < 256 := by rw [a.size] at h1; exact h1
  have := h (BitVec.ofNat 8 k)
  simpa [tableGet, Nat.mod_eq_of_lt hk] using this

@[simp] theorem heapPut_cells (h : Arr HeapEntry 256) (i : Nat) (e : HeapEntry) :
    (heapPut h i e).cells = h.cells.set i e := rfl

theorem heapAt_heapPut_same (h : Arr HeapEntry 256) {i : Nat} (e : HeapEntry) (hi : i < 256) :
    heapAt (heapPut h i e) i = e := by
  simp [heapAt, h.size, hi]

theorem heapAt_heapPut_ne (h : Arr HeapEntry 256) {i j : Nat} (e : HeapEntry) (hij : j ≠ i) :
    heapAt (heapPut h i e) j = heapAt h j := by
  simp [heapAt, List.getElem?_set_ne hij.symm]

theorem heapAt_eq_getElem (h : Arr HeapEntry 256) {i : Nat} (hi : i < 256) :
    heapAt h i = h.cells[i]'(h.size.symm ▸ hi) := by
  simp [heapAt, List.getElem?_eq_getElem (h.size.symm ▸ hi : i < h.cells.length)]

theorem heapAt_swap_left (h : Arr HeapEntry 256) {i j : Nat} (hi : i < 256) (hj : j < 256) :
    heapAt (heapSwap h i j) i = heapAt h j := by
  by_cases e : i = j
  · subst e; simp [heapSwap, heapAt_heapPut_same, hi]
  · rw [heapSwap, heapAt_heapPut_ne _ _ e, heapAt_heapPut_same _ _ hi]

theorem heapAt_swap_right (h : Arr HeapEntry 256) {i j : Nat} (hj : j < 256) :
    heapAt (heapSwap h i j) j = heapAt h i := heapAt_heapPut_same _ _ hj

theorem heapAt_swap_ne (h : Arr HeapEntry 256) {i j k : Nat} (hi : k ≠ i) (hj : k ≠ j) :
    heapAt (heapSwap h i j) k = heapAt h k := by
  rw [heapSwap, heapAt_heapPut_ne _ _ hj, heapAt_heapPut_ne _ _ hi]

/-- Two HEAP arrays that read alike at every position are equal. -/
theorem heap_ext {a b : Arr HeapEntry 256} (h : ∀ i, i < 256 → heapAt a i = heapAt b i) : a = b := by
  apply arr_ext
  apply List.ext_getElem (by rw [a.size, b.size])
  intro k h1 h2
  have hk : k < 256 := a.size ▸ h1
  rw [← heapAt_eq_getElem a hk, ← heapAt_eq_getElem b hk, h k hk]

/-- A leaf's index is no index of the arena. -/
theorem arenaGet_leaf (a : Arr Node 255) {n : NodeId} (h : isLeaf n = true) : arenaGet a n = .error (.arenaIndex n) := by
  unfold arenaGet
  split <;> simp [h]

/-- What a successful arena write leaves: the node at its index, every other index as before. -/
theorem arenaSet_ok {a b : Arr Node 255} {n : NodeId} {nd : Node} (h : arenaSet a n nd = .ok b) :
    arenaGet b n = .ok nd ∧ ∀ m, m ≠ n → arenaGet b m = arenaGet a m := by
  unfold arenaSet at h
  split at h
  · cases h
  · rename_i hn
    simp only [not_or, Bool.not_eq_true] at hn
    cases h
    have h1 : 256 ≤ n.toNat := by have := hn.1; simp [isLeaf] at this; bv_omega
    have h2 : n.toNat - 256 < a.cells.length := by rw [a.size]; have := hn.2; bv_omega
    constructor
    · unfold arenaGet
      simp [Config.arenaBase, h2, hn.1]
    · intro m hm
      by_cases hl : isLeaf m = true
      · rw [arenaGet_leaf _ hl, arenaGet_leaf _ hl]
      · have : n.toNat - 256 ≠ m.toNat - 256 := by
          simp [isLeaf] at hl
          bv_omega
        unfold arenaGet
        simp [Config.arenaBase, List.getElem?_set_ne this]

/-- An arena write fails only at an index that does not exist. -/
theorem arenaSet_isOk {a : Arr Node 255} {n : NodeId} (nd : Node) (h1 : 256 ≤ n.toNat) (h2 : n.toNat ≤ 510) :
    ∃ b, arenaSet a n nd = .ok b := by
  unfold arenaSet
  have : ¬ (isLeaf n = true ∨ n = 511) := by
    simp only [isLeaf, decide_eq_true_eq, not_or]
    constructor <;> bv_omega
  exact ⟨_, if_neg this⟩

end Sys2Proof.Machine
end

