-- ==== Sys2Proof/Laws/State.lean ====
section
/-! SUPPORT. Laws/State.lean: for each shared update of the state, one lemma per field, so that no proof unfolds a
record update. -/
namespace Sys2Proof.Machine

variable (s : State)

/-! ## raise (R260): everything but SEQ, ERR and ERRINFO stays -/

@[simp] theorem raise_sel (k : ErrKind) (info : CmdWord) : (raise k info s).sel = s.sel := by unfold raise; split <;> rfl
@[simp] theorem raise_usc (k : ErrKind) (info : CmdWord) : (raise k info s).usc = s.usc := by unfold raise; split <;> rfl
@[simp] theorem raise_total (k : ErrKind) (info : CmdWord) : (raise k info s).total = s.total := by unfold raise; split <;> rfl
@[simp] theorem raise_pq (k : ErrKind) (info : CmdWord) : (raise k info s).pq = s.pq := by unfold raise; split <;> rfl
@[simp] theorem raise_nnode (k : ErrKind) (info : CmdWord) : (raise k info s).nnode = s.nnode := by unfold raise; split <;> rfl
@[simp] theorem raise_root (k : ErrKind) (info : CmdWord) : (raise k info s).root = s.root := by unfold raise; split <;> rfl
@[simp] theorem raise_ea (k : ErrKind) (info : CmdWord) : (raise k info s).ea = s.ea := by unfold raise; split <;> rfl
@[simp] theorem raise_eb (k : ErrKind) (info : CmdWord) : (raise k info s).eb = s.eb := by unfold raise; split <;> rfl
@[simp] theorem raise_curSym (k : ErrKind) (info : CmdWord) : (raise k info s).curSym = s.curSym := by unfold raise; split <;> rfl
@[simp] theorem raise_curLen (k : ErrKind) (info : CmdWord) : (raise k info s).curLen = s.curLen := by unfold raise; split <;> rfl
@[simp] theorem raise_acc (k : ErrKind) (info : CmdWord) : (raise k info s).acc = s.acc := by unfold raise; split <;> rfl
@[simp] theorem raise_nbits (k : ErrKind) (info : CmdWord) : (raise k info s).nbits = s.nbits := by unfold raise; split <;> rfl
@[simp] theorem raise_freq (k : ErrKind) (info : CmdWord) : (raise k info s).freq = s.freq := by unfold raise; split <;> rfl
@[simp] theorem raise_arena (k : ErrKind) (info : CmdWord) : (raise k info s).arena = s.arena := by unfold raise; split <;> rfl
@[simp] theorem raise_code (k : ErrKind) (info : CmdWord) : (raise k info s).code = s.code := by unfold raise; split <;> rfl
@[simp] theorem raise_outq (k : ErrKind) (info : CmdWord) : (raise k info s).outq = s.outq := by unfold raise; split <;> rfl
@[simp] theorem raise_pqReq (k : ErrKind) (info : CmdWord) : (raise k info s).pqReq = s.pqReq := by unfold raise; split <;> rfl
@[simp] theorem raise_pqOut (k : ErrKind) (info : CmdWord) : (raise k info s).pqOut = s.pqOut := by unfold raise; split <;> rfl
@[simp] theorem raise_ctOut (k : ErrKind) (info : CmdWord) : (raise k info s).ctOut = s.ctOut := by unfold raise; split <;> rfl
@[simp] theorem raise_rsp (k : ErrKind) (info : CmdWord) : (raise k info s).rsp = s.rsp := by unfold raise; split <;> rfl
@[simp] theorem raise_outDepth (k : ErrKind) (info : CmdWord) : (raise k info s).outDepth = s.outDepth := by unfold raise; split <;> rfl
@[simp] theorem raise_popped (k : ErrKind) (info : CmdWord) : (raise k info s).popped = s.popped := by unfold raise; split <;> rfl
@[simp] theorem raise_cmds (k : ErrKind) (info : CmdWord) : (raise k info s).cmds = s.cmds := by unfold raise; split <;> rfl
@[simp] theorem raise_turns (k : ErrKind) (info : CmdWord) : (raise k info s).turns = s.turns := by unfold raise; split <;> rfl
@[simp] theorem raise_drain (k : ErrKind) (info : CmdWord) : (raise k info s).drain = s.drain := by unfold raise; split <;> rfl

@[simp] theorem raise_seq (k : ErrKind) (info : CmdWord) : (raise k info s).seq = .fault := by
  unfold raise
  split
  · assumption
  · rfl

/-- Outside S_FAULT `raise` is the fault entry. -/
theorem raise_eq (k : ErrKind) (info : CmdWord) (h : s.seq ≠ .fault) :
    raise k info s = { s with err := k, errInfo := info, seq := .fault } := if_neg h

/-- In S_FAULT `raise` does nothing. -/
theorem raise_fault (k : ErrKind) (info : CmdWord) (h : s.seq = .fault) : raise k info s = s := if_pos h

/-! ## respond (R94) -/

@[simp] theorem respond_seq (w : Word32) : (respond w s).seq = s.seq := rfl
@[simp] theorem respond_err (w : Word32) : (respond w s).err = s.err := rfl
@[simp] theorem respond_errInfo (w : Word32) : (respond w s).errInfo = s.errInfo := rfl
@[simp] theorem respond_sel (w : Word32) : (respond w s).sel = s.sel := rfl
@[simp] theorem respond_usc (w : Word32) : (respond w s).usc = s.usc := rfl
@[simp] theorem respond_total (w : Word32) : (respond w s).total = s.total := rfl
@[simp] theorem respond_pq (w : Word32) : (respond w s).pq = s.pq := rfl
@[simp] theorem respond_nnode (w : Word32) : (respond w s).nnode = s.nnode := rfl
@[simp] theorem respond_root (w : Word32) : (respond w s).root = s.root := rfl
@[simp] theorem respond_ea (w : Word32) : (respond w s).ea = s.ea := rfl
@[simp] theorem respond_eb (w : Word32) : (respond w s).eb = s.eb := rfl
@[simp] theorem respond_curSym (w : Word32) : (respond w s).curSym = s.curSym := rfl
@[simp] theorem respond_curLen (w : Word32) : (respond w s).curLen = s.curLen := rfl
@[simp] theorem respond_acc (w : Word32) : (respond w s).acc = s.acc := rfl
@[simp] theorem respond_nbits (w : Word32) : (respond w s).nbits = s.nbits := rfl
@[simp] theorem respond_freq (w : Word32) : (respond w s).freq = s.freq := rfl
@[simp] theorem respond_arena (w : Word32) : (respond w s).arena = s.arena := rfl
@[simp] theorem respond_code (w : Word32) : (respond w s).code = s.code := rfl
@[simp] theorem respond_outq (w : Word32) : (respond w s).outq = s.outq := rfl
@[simp] theorem respond_pqReq (w : Word32) : (respond w s).pqReq = s.pqReq := rfl
@[simp] theorem respond_pqOut (w : Word32) : (respond w s).pqOut = s.pqOut := rfl
@[simp] theorem respond_ctOut (w : Word32) : (respond w s).ctOut = s.ctOut := rfl
@[simp] theorem respond_rsp (w : Word32) : (respond w s).rsp = some w := rfl
@[simp] theorem respond_outDepth (w : Word32) : (respond w s).outDepth = s.outDepth := rfl
@[simp] theorem respond_popped (w : Word32) : (respond w s).popped = s.popped := rfl
@[simp] theorem respond_cmds (w : Word32) : (respond w s).cmds = s.cmds := rfl
@[simp] theorem respond_turns (w : Word32) : (respond w s).turns = s.turns := rfl
@[simp] theorem respond_drain (w : Word32) : (respond w s).drain = s.drain := rfl

/-! ## emit (R38) -/

@[simp] theorem emit_seq (b : Byte) : (emit b s).seq = s.seq := rfl
@[simp] theorem emit_err (b : Byte) : (emit b s).err = s.err := rfl
@[simp] theorem emit_errInfo (b : Byte) : (emit b s).errInfo = s.errInfo := rfl
@[simp] theorem emit_sel (b : Byte) : (emit b s).sel = s.sel := rfl
@[simp] theorem emit_usc (b : Byte) : (emit b s).usc = s.usc := rfl
@[simp] theorem emit_total (b : Byte) : (emit b s).total = s.total := rfl
@[simp] theorem emit_pq (b : Byte) : (emit b s).pq = s.pq := rfl
@[simp] theorem emit_nnode (b : Byte) : (emit b s).nnode = s.nnode := rfl
@[simp] theorem emit_root (b : Byte) : (emit b s).root = s.root := rfl
@[simp] theorem emit_ea (b : Byte) : (emit b s).ea = s.ea := rfl
@[simp] theorem emit_eb (b : Byte) : (emit b s).eb = s.eb := rfl
@[simp] theorem emit_curSym (b : Byte) : (emit b s).curSym = s.curSym := rfl
@[simp] theorem emit_curLen (b : Byte) : (emit b s).curLen = s.curLen := rfl
@[simp] theorem emit_acc (b : Byte) : (emit b s).acc = s.acc := rfl
@[simp] theorem emit_nbits (b : Byte) : (emit b s).nbits = s.nbits := rfl
@[simp] theorem emit_freq (b : Byte) : (emit b s).freq = s.freq := rfl
@[simp] theorem emit_arena (b : Byte) : (emit b s).arena = s.arena := rfl
@[simp] theorem emit_code (b : Byte) : (emit b s).code = s.code := rfl
@[simp] theorem emit_outq (b : Byte) : (emit b s).outq = s.outq ++ [b] := rfl
@[simp] theorem emit_pqReq (b : Byte) : (emit b s).pqReq = s.pqReq := rfl
@[simp] theorem emit_pqOut (b : Byte) : (emit b s).pqOut = s.pqOut := rfl
@[simp] theorem emit_ctOut (b : Byte) : (emit b s).ctOut = s.ctOut := rfl
@[simp] theorem emit_rsp (b : Byte) : (emit b s).rsp = s.rsp := rfl
@[simp] theorem emit_outDepth (b : Byte) : (emit b s).outDepth = s.outDepth := rfl
@[simp] theorem emit_popped (b : Byte) : (emit b s).popped = s.popped := rfl
@[simp] theorem emit_cmds (b : Byte) : (emit b s).cmds = s.cmds := rfl
@[simp] theorem emit_turns (b : Byte) : (emit b s).turns = s.turns := rfl
@[simp] theorem emit_drain (b : Byte) : (emit b s).drain = s.drain := rfl

/-! ## toReset (R280, R132): the scalars and OUTQ; the arrays stay -/

@[simp] theorem toReset_seq : (toReset s).seq = .idle := rfl
@[simp] theorem toReset_err : (toReset s).err = .none := rfl
@[simp] theorem toReset_errInfo : (toReset s).errInfo = 0 := rfl
@[simp] theorem toReset_sel : (toReset s).sel = 0 := rfl
@[simp] theorem toReset_usc : (toReset s).usc = 0 := rfl
@[simp] theorem toReset_total : (toReset s).total = 0 := rfl
@[simp] theorem toReset_pq : (toReset s).pq = { s.pq with hsize := 0 } := rfl
@[simp] theorem toReset_nnode : (toReset s).nnode = 256 := rfl
@[simp] theorem toReset_root : (toReset s).root = 0 := rfl
@[simp] theorem toReset_ea : (toReset s).ea = ⟨0, 0⟩ := rfl
@[simp] theorem toReset_eb : (toReset s).eb = ⟨0, 0⟩ := rfl
@[simp] theorem toReset_curSym : (toReset s).curSym = 0 := rfl
@[simp] theorem toReset_curLen : (toReset s).curLen = 0 := rfl
@[simp] theorem toReset_acc : (toReset s).acc = 0 := rfl
@[simp] theorem toReset_nbits : (toReset s).nbits = 0 := rfl
@[simp] theorem toReset_freq : (toReset s).freq = s.freq := rfl
@[simp] theorem toReset_arena : (toReset s).arena = s.arena := rfl
@[simp] theorem toReset_code : (toReset s).code = s.code := rfl
@[simp] theorem toReset_outq : (toReset s).outq = [] := rfl
@[simp] theorem toReset_pqReq : (toReset s).pqReq = s.pqReq := rfl
@[simp] theorem toReset_pqOut : (toReset s).pqOut = s.pqOut := rfl
@[simp] theorem toReset_ctOut : (toReset s).ctOut = s.ctOut := rfl
@[simp] theorem toReset_rsp : (toReset s).rsp = s.rsp := rfl
@[simp] theorem toReset_outDepth : (toReset s).outDepth = s.outDepth := rfl
@[simp] theorem toReset_popped : (toReset s).popped = [] := rfl
@[simp] theorem toReset_cmds : (toReset s).cmds = s.cmds := rfl
@[simp] theorem toReset_turns : (toReset s).turns = s.turns := rfl
@[simp] theorem toReset_drain : (toReset s).drain = s.drain := rfl

/-! ## respondZero (R94): everything but the response stays -/

@[simp] theorem respondZero_seq (w : CmdWord) : (respondZero w s).seq = s.seq := by unfold respondZero; split <;> rfl
@[simp] theorem respondZero_err (w : CmdWord) : (respondZero w s).err = s.err := by unfold respondZero; split <;> rfl
@[simp] theorem respondZero_errInfo (w : CmdWord) : (respondZero w s).errInfo = s.errInfo := by unfold respondZero; split <;> rfl
@[simp] theorem respondZero_sel (w : CmdWord) : (respondZero w s).sel = s.sel := by unfold respondZero; split <;> rfl
@[simp] theorem respondZero_usc (w : CmdWord) : (respondZero w s).usc = s.usc := by unfold respondZero; split <;> rfl
@[simp] theorem respondZero_total (w : CmdWord) : (respondZero w s).total = s.total := by unfold respondZero; split <;> rfl
@[simp] theorem respondZero_pq (w : CmdWord) : (respondZero w s).pq = s.pq := by unfold respondZero; split <;> rfl
@[simp] theorem respondZero_nnode (w : CmdWord) : (respondZero w s).nnode = s.nnode := by unfold respondZero; split <;> rfl
@[simp] theorem respondZero_root (w : CmdWord) : (respondZero w s).root = s.root := by unfold respondZero; split <;> rfl
@[simp] theorem respondZero_ea (w : CmdWord) : (respondZero w s).ea = s.ea := by unfold respondZero; split <;> rfl
@[simp] theorem respondZero_eb (w : CmdWord) : (respondZero w s).eb = s.eb := by unfold respondZero; split <;> rfl
@[simp] theorem respondZero_curSym (w : CmdWord) : (respondZero w s).curSym = s.curSym := by unfold respondZero; split <;> rfl
@[simp] theorem respondZero_curLen (w : CmdWord) : (respondZero w s).curLen = s.curLen := by unfold respondZero; split <;> rfl
@[simp] theorem respondZero_acc (w : CmdWord) : (respondZero w s).acc = s.acc := by unfold respondZero; split <;> rfl
@[simp] theorem respondZero_nbits (w : CmdWord) : (respondZero w s).nbits = s.nbits := by unfold respondZero; split <;> rfl
@[simp] theorem respondZero_freq (w : CmdWord) : (respondZero w s).freq = s.freq := by unfold respondZero; split <;> rfl
@[simp] theorem respondZero_arena (w : CmdWord) : (respondZero w s).arena = s.arena := by unfold respondZero; split <;> rfl
@[simp] theorem respondZero_code (w : CmdWord) : (respondZero w s).code = s.code := by unfold respondZero; split <;> rfl
@[simp] theorem respondZero_outq (w : CmdWord) : (respondZero w s).outq = s.outq := by unfold respondZero; split <;> rfl
@[simp] theorem respondZero_pqReq (w : CmdWord) : (respondZero w s).pqReq = s.pqReq := by unfold respondZero; split <;> rfl
@[simp] theorem respondZero_pqOut (w : CmdWord) : (respondZero w s).pqOut = s.pqOut := by unfold respondZero; split <;> rfl
@[simp] theorem respondZero_ctOut (w : CmdWord) : (respondZero w s).ctOut = s.ctOut := by unfold respondZero; split <;> rfl
@[simp] theorem respondZero_outDepth (w : CmdWord) : (respondZero w s).outDepth = s.outDepth := by unfold respondZero; split <;> rfl
@[simp] theorem respondZero_popped (w : CmdWord) : (respondZero w s).popped = s.popped := by unfold respondZero; split <;> rfl
@[simp] theorem respondZero_cmds (w : CmdWord) : (respondZero w s).cmds = s.cmds := by unfold respondZero; split <;> rfl
@[simp] theorem respondZero_turns (w : CmdWord) : (respondZero w s).turns = s.turns := by unfold respondZero; split <;> rfl
@[simp] theorem respondZero_drain (w : CmdWord) : (respondZero w s).drain = s.drain := by unfold respondZero; split <;> rfl

/-! ## illegalCommand (R93): everything but SEQ, ERR, ERRINFO and the response stays -/

@[simp] theorem illegalCommand_sel (w : CmdWord) : (illegalCommand w s).sel = s.sel := by simp [illegalCommand]
@[simp] theorem illegalCommand_usc (w : CmdWord) : (illegalCommand w s).usc = s.usc := by simp [illegalCommand]
@[simp] theorem illegalCommand_total (w : CmdWord) : (illegalCommand w s).total = s.total := by simp [illegalCommand]
@[simp] theorem illegalCommand_pq (w : CmdWord) : (illegalCommand w s).pq = s.pq := by simp [illegalCommand]
@[simp] theorem illegalCommand_nnode (w : CmdWord) : (illegalCommand w s).nnode = s.nnode := by simp [illegalCommand]
@[simp] theorem illegalCommand_root (w : CmdWord) : (illegalCommand w s).root = s.root := by simp [illegalCommand]
@[simp] theorem illegalCommand_ea (w : CmdWord) : (illegalCommand w s).ea = s.ea := by simp [illegalCommand]
@[simp] theorem illegalCommand_eb (w : CmdWord) : (illegalCommand w s).eb = s.eb := by simp [illegalCommand]
@[simp] theorem illegalCommand_curSym (w : CmdWord) : (illegalCommand w s).curSym = s.curSym := by simp [illegalCommand]
@[simp] theorem illegalCommand_curLen (w : CmdWord) : (illegalCommand w s).curLen = s.curLen := by simp [illegalCommand]
@[simp] theorem illegalCommand_acc (w : CmdWord) : (illegalCommand w s).acc = s.acc := by simp [illegalCommand]
@[simp] theorem illegalCommand_nbits (w : CmdWord) : (illegalCommand w s).nbits = s.nbits := by simp [illegalCommand]
@[simp] theorem illegalCommand_freq (w : CmdWord) : (illegalCommand w s).freq = s.freq := by simp [illegalCommand]
@[simp] theorem illegalCommand_arena (w : CmdWord) : (illegalCommand w s).arena = s.arena := by simp [illegalCommand]
@[simp] theorem illegalCommand_code (w : CmdWord) : (illegalCommand w s).code = s.code := by simp [illegalCommand]
@[simp] theorem illegalCommand_outq (w : CmdWord) : (illegalCommand w s).outq = s.outq := by simp [illegalCommand]
@[simp] theorem illegalCommand_pqReq (w : CmdWord) : (illegalCommand w s).pqReq = s.pqReq := by simp [illegalCommand]
@[simp] theorem illegalCommand_pqOut (w : CmdWord) : (illegalCommand w s).pqOut = s.pqOut := by simp [illegalCommand]
@[simp] theorem illegalCommand_ctOut (w : CmdWord) : (illegalCommand w s).ctOut = s.ctOut := by simp [illegalCommand]
@[simp] theorem illegalCommand_outDepth (w : CmdWord) : (illegalCommand w s).outDepth = s.outDepth := by simp [illegalCommand]
@[simp] theorem illegalCommand_popped (w : CmdWord) : (illegalCommand w s).popped = s.popped := by simp [illegalCommand]
@[simp] theorem illegalCommand_cmds (w : CmdWord) : (illegalCommand w s).cmds = s.cmds := by simp [illegalCommand]
@[simp] theorem illegalCommand_turns (w : CmdWord) : (illegalCommand w s).turns = s.turns := by simp [illegalCommand]
@[simp] theorem illegalCommand_drain (w : CmdWord) : (illegalCommand w s).drain = s.drain := by simp [illegalCommand]

@[simp] theorem illegalCommand_seq (w : CmdWord) : (illegalCommand w s).seq = .fault := by simp [illegalCommand]

/-- Outside S_FAULT an illegal command is the fault entry with the kind IllegalCommand. -/
theorem illegalCommand_eq (w : CmdWord) (h : s.seq ≠ .fault) :
    illegalCommand w s =
      { s with err := .illegalCommand, errInfo := w, seq := .fault, rsp := if isRead w then some 0 else s.rsp } := by
  unfold illegalCommand respondZero
  rw [raise_eq s _ _ h]
  cases isRead w <;> rfl

/-- In S_FAULT an illegal command changes nothing but the response. -/
theorem illegalCommand_fault (w : CmdWord) (h : s.seq = .fault) :
    illegalCommand w s = { s with rsp := if isRead w then some 0 else s.rsp } := by
  unfold illegalCommand respondZero
  rw [raise_fault s _ _ h]
  cases isRead w <;> rfl

/-! ## bpLatch (R206) -/

@[simp] theorem bpLatch_seq (d : Byte) : (bpLatch d s).seq = .emit := rfl
@[simp] theorem bpLatch_err (d : Byte) : (bpLatch d s).err = s.err := rfl
@[simp] theorem bpLatch_errInfo (d : Byte) : (bpLatch d s).errInfo = s.errInfo := rfl
@[simp] theorem bpLatch_sel (d : Byte) : (bpLatch d s).sel = s.sel := rfl
@[simp] theorem bpLatch_usc (d : Byte) : (bpLatch d s).usc = s.usc := rfl
@[simp] theorem bpLatch_total (d : Byte) : (bpLatch d s).total = s.total := rfl
@[simp] theorem bpLatch_pq (d : Byte) : (bpLatch d s).pq = s.pq := rfl
@[simp] theorem bpLatch_nnode (d : Byte) : (bpLatch d s).nnode = s.nnode := rfl
@[simp] theorem bpLatch_root (d : Byte) : (bpLatch d s).root = s.root := rfl
@[simp] theorem bpLatch_ea (d : Byte) : (bpLatch d s).ea = s.ea := rfl
@[simp] theorem bpLatch_eb (d : Byte) : (bpLatch d s).eb = s.eb := rfl
@[simp] theorem bpLatch_curSym (d : Byte) : (bpLatch d s).curSym = d := rfl
@[simp] theorem bpLatch_curLen (d : Byte) : (bpLatch d s).curLen = (tableGet s.code d).len := rfl
@[simp] theorem bpLatch_acc (d : Byte) : (bpLatch d s).acc = s.acc := rfl
@[simp] theorem bpLatch_nbits (d : Byte) : (bpLatch d s).nbits = s.nbits := rfl
@[simp] theorem bpLatch_freq (d : Byte) : (bpLatch d s).freq = s.freq := rfl
@[simp] theorem bpLatch_arena (d : Byte) : (bpLatch d s).arena = s.arena := rfl
@[simp] theorem bpLatch_code (d : Byte) : (bpLatch d s).code = s.code := rfl
@[simp] theorem bpLatch_outq (d : Byte) : (bpLatch d s).outq = s.outq := rfl
@[simp] theorem bpLatch_pqReq (d : Byte) : (bpLatch d s).pqReq = s.pqReq := rfl
@[simp] theorem bpLatch_pqOut (d : Byte) : (bpLatch d s).pqOut = s.pqOut := rfl
@[simp] theorem bpLatch_ctOut (d : Byte) : (bpLatch d s).ctOut = s.ctOut := rfl
@[simp] theorem bpLatch_rsp (d : Byte) : (bpLatch d s).rsp = s.rsp := rfl
@[simp] theorem bpLatch_outDepth (d : Byte) : (bpLatch d s).outDepth = s.outDepth := rfl
@[simp] theorem bpLatch_popped (d : Byte) : (bpLatch d s).popped = s.popped := rfl
@[simp] theorem bpLatch_cmds (d : Byte) : (bpLatch d s).cmds = s.cmds := rfl
@[simp] theorem bpLatch_turns (d : Byte) : (bpLatch d s).turns = s.turns := rfl
@[simp] theorem bpLatch_drain (d : Byte) : (bpLatch d s).drain = s.drain := rfl

/-! ## putBit (R207): only ACC, NBITS and OUTQ change -/

@[simp] theorem putBit_seq (b : Bool) : (putBit b s).seq = s.seq := by unfold putBit; split <;> rfl
@[simp] theorem putBit_err (b : Bool) : (putBit b s).err = s.err := by unfold putBit; split <;> rfl
@[simp] theorem putBit_errInfo (b : Bool) : (putBit b s).errInfo = s.errInfo := by unfold putBit; split <;> rfl
@[simp] theorem putBit_sel (b : Bool) : (putBit b s).sel = s.sel := by unfold putBit; split <;> rfl
@[simp] theorem putBit_usc (b : Bool) : (putBit b s).usc = s.usc := by unfold putBit; split <;> rfl
@[simp] theorem putBit_total (b : Bool) : (putBit b s).total = s.total := by unfold putBit; split <;> rfl
@[simp] theorem putBit_pq (b : Bool) : (putBit b s).pq = s.pq := by unfold putBit; split <;> rfl
@[simp] theorem putBit_nnode (b : Bool) : (putBit b s).nnode = s.nnode := by unfold putBit; split <;> rfl
@[simp] theorem putBit_root (b : Bool) : (putBit b s).root = s.root := by unfold putBit; split <;> rfl
@[simp] theorem putBit_ea (b : Bool) : (putBit b s).ea = s.ea := by unfold putBit; split <;> rfl
@[simp] theorem putBit_eb (b : Bool) : (putBit b s).eb = s.eb := by unfold putBit; split <;> rfl
@[simp] theorem putBit_curSym (b : Bool) : (putBit b s).curSym = s.curSym := by unfold putBit; split <;> rfl
@[simp] theorem putBit_curLen (b : Bool) : (putBit b s).curLen = s.curLen := by unfold putBit; split <;> rfl
@[simp] theorem putBit_freq (b : Bool) : (putBit b s).freq = s.freq := by unfold putBit; split <;> rfl
@[simp] theorem putBit_arena (b : Bool) : (putBit b s).arena = s.arena := by unfold putBit; split <;> rfl
@[simp] theorem putBit_code (b : Bool) : (putBit b s).code = s.code := by unfold putBit; split <;> rfl
@[simp] theorem putBit_pqReq (b : Bool) : (putBit b s).pqReq = s.pqReq := by unfold putBit; split <;> rfl
@[simp] theorem putBit_pqOut (b : Bool) : (putBit b s).pqOut = s.pqOut := by unfold putBit; split <;> rfl
@[simp] theorem putBit_ctOut (b : Bool) : (putBit b s).ctOut = s.ctOut := by unfold putBit; split <;> rfl
@[simp] theorem putBit_rsp (b : Bool) : (putBit b s).rsp = s.rsp := by unfold putBit; split <;> rfl
@[simp] theorem putBit_outDepth (b : Bool) : (putBit b s).outDepth = s.outDepth := by unfold putBit; split <;> rfl
@[simp] theorem putBit_popped (b : Bool) : (putBit b s).popped = s.popped := by unfold putBit; split <;> rfl
@[simp] theorem putBit_cmds (b : Bool) : (putBit b s).cmds = s.cmds := by unfold putBit; split <;> rfl
@[simp] theorem putBit_turns (b : Bool) : (putBit b s).turns = s.turns := by unfold putBit; split <;> rfl
@[simp] theorem putBit_drain (b : Bool) : (putBit b s).drain = s.drain := by unfold putBit; split <;> rfl

end Sys2Proof.Machine
end

