-- ==== Sys2Proof/Laws/Ops.lean ====
section
/-! SUPPORT. Laws/Ops.lean: one lemma per shared operation that says everything it can do: the acceptance of a command
(40_commands.md R120, R121), the end of an operation that may raise (60_exceptions.md R260), and what a step of one
operation can answer. -/
namespace Sys2Proof.Machine

/-- An accepted command always answers a next state: the same state while busy, its effect where it is legal, else the
illegal command. -/
theorem accept_eq (w : CmdWord) (ok : Bool) (legal : List SeqState) (s e : State) :
    accept w ok legal s e =
      .next (if isBusy s.seq then s else if ok ∧ s.seq ∈ legal then e else illegalCommand w s) := by
  unfold accept
  split <;> [rfl; split <;> rfl]

/-- In a busy state a command is held (R120). -/
theorem accept_busy (w : CmdWord) (ok : Bool) (legal : List SeqState) {s : State} (e : State)
    (h : isBusy s.seq = true) : accept w ok legal s e = .next s := by
  simp [accept_eq, h]

/-- A well-formed command in one of its legal states has its own effect (R121). -/
theorem accept_legal (w : CmdWord) {ok : Bool} {legal : List SeqState} {s : State} (e : State)
    (hb : isBusy s.seq = false) (ho : ok = true) (hl : s.seq ∈ legal) : accept w ok legal s e = .next e := by
  simp [accept_eq, hb, ho, hl]

/-- A malformed or misplaced command is an illegal one (R93). -/
theorem accept_illegal (w : CmdWord) {ok : Bool} {legal : List SeqState} {s : State} (e : State)
    (hb : isBusy s.seq = false) (h : ¬ (ok = true ∧ s.seq ∈ legal)) :
    accept w ok legal s e = .next (illegalCommand w s) := by
  rw [accept_eq, hb, if_neg Bool.false_ne_true, if_neg h]

/-- The three things the acceptance of a command can do, with what each says of the state. -/
theorem accept_cases {w : CmdWord} {ok : Bool} {legal : List SeqState} {s e t : State}
    (h : accept w ok legal s e = .next t) :
    (isBusy s.seq = true ∧ t = s) ∨
    (isBusy s.seq = false ∧ ok = true ∧ s.seq ∈ legal ∧ t = e) ∨
    (isBusy s.seq = false ∧ ¬ (ok = true ∧ s.seq ∈ legal) ∧ t = illegalCommand w s) := by
  rw [accept_eq] at h
  cases h
  by_cases hb : isBusy s.seq = true
  · exact .inl ⟨hb, if_pos hb⟩
  · rw [Bool.not_eq_true] at hb
    by_cases hl : ok = true ∧ s.seq ∈ legal
    · exact .inr (.inl ⟨hb, hl.1, hl.2, by simp [hb, hl]⟩)
    · exact .inr (.inr ⟨hb, hl, by rw [hb, if_neg Bool.false_ne_true, if_neg hl]⟩)

@[simp] theorem settle_ok (info : CmdWord) (s t : State) : settle info s (.ok t) = .next t := rfl

@[simp] theorem settle_error (info : CmdWord) (s : State) (k : ErrKind) :
    settle info s (.error k) = .next (raise k info s) := rfl

/-- What the end of an operation that may raise can be. -/
theorem settle_cases {info : CmdWord} {s t : State} {r : Except ErrKind State} (h : settle info s r = .next t) :
    r = .ok t ∨ ∃ k, r = .error k ∧ t = raise k info s := by
  cases r with
  | ok u => cases h; exact .inl rfl
  | error k => cases h; exact .inr ⟨k, rfl, rfl⟩

/-- An operation that may raise always answers a next state. -/
theorem settle_next (info : CmdWord) (s : State) (r : Except ErrKind State) : ∃ t, settle info s r = .next t := by
  cases r <;> exact ⟨_, rfl⟩

/-- What a code-table operation can be: it writes the table, or stops. -/
theorem putCode_cases {s t : State} {r : Except Fault (Arr CodeEntry 256)} (h : putCode s r = .next t) :
    ∃ c, r = .ok c ∧ t = { s with code := c } := by
  cases r with
  | ok c => cases h; exact ⟨c, rfl, rfl⟩
  | error f => cases h

/-- FREQ_INC either raises LengthOverflow or counts (R141). -/
theorem freqInc_cases (d : Byte) (s : State) :
    (totalFull s = true ∧ freqInc d s = raise .lengthOverflow (cmdWord 0x2 d) s) ∨
    (totalFull s = false ∧ freqInc d s = { s with
      usc := if tableGet s.freq d = 0 then s.usc + 1 else s.usc
      freq := tableSet s.freq d (tableGet s.freq d + 1)
      total := s.total + 1 }) := by
  unfold freqInc
  cases h : totalFull s <;> simp

/-- BYTE in S_PACK either raises MissingCode or latches the symbol (R124, R194). -/
theorem packByte_cases (d : Byte) (s : State) :
    ((tableGet s.code d).len = 0 ∧ packByte d s = raise .missingCode (cmdWord 0x2 d) s) ∨
    ((tableGet s.code d).len ≠ 0 ∧ packByte d s = bpLatch d { s with ctOut := tableGet s.code d }) := by
  unfold packByte ctLookup
  by_cases h : (tableGet s.code d).len = 0
  · rw [if_pos h]; exact .inl ⟨h, rfl⟩
  · rw [if_neg h]; exact .inr ⟨h, rfl⟩

/-- No operation refuses. -/
theorem exec_not_refused (i : Instr) (s : State) (r : Refusal) : exec i s ≠ .refused r := by
  have ha : ∀ w ok l s' e, accept w ok l s' e ≠ .refused r := fun w ok l s' e h => by
    rw [accept_eq] at h; cases h
  have hs : ∀ info s' x, settle info s' x ≠ .refused r := fun info s' x h => by
    obtain ⟨t, ht⟩ := settle_next info s' x; rw [ht] at h; cases h
  have hp : ∀ s' x, putCode s' x ≠ .refused r := fun s' x h => by cases x <;> cases h
  have hn : ∀ t : State, (Host.Outcome.next t : Result) ≠ .refused r := fun t h => by cases h
  cases i with
  | tbIns => simp only [exec, execTbIns]; split <;> [exact hs _ _ _; exact fun h => by cases h]
  | bpPutBit b => simp only [exec, execBpPutBit]; split <;> exact hn _
  | bpEmit => simp only [exec, execBpEmit]; split <;> [exact hn _; split <;> exact hn _]
  | bpFlush => simp only [exec, execBpFlush]; split <;> [exact hn _; split <;> exact hn _]
  | outPop => simp only [exec, execOutPop]; split <;> exact hn _
  | nop => exact ha _ _ _ _ _
  | start => exact ha _ _ _ _ _
  | byte d => exact ha _ _ _ _ _
  | eos => exact ha _ _ _ _ _
  | clear => exact ha _ _ _ _ _
  | selsym x => exact ha _ _ _ _ _
  | abort k => exact ha _ _ _ _ _
  | rdfreq => exact ha _ _ _ _ _
  | rdlen => exact ha _ _ _ _ _
  | rdcode w => exact ha _ _ _ _ _
  | rdreg x => exact ha _ _ _ _ _
  | init => exact hn _
  | freqInc d => exact hn _
  | heapifyDown x => exact hn _
  | buildHeap => exact hn _
  | pqInsert e => exact hs _ _ _
  | pqExtractMin => exact hs _ _ _
  | tbLoad => exact hs _ _ _
  | tbXa => exact hs _ _ _
  | tbXb => exact hs _ _ _
  | tbRoot => exact hn _
  | cgGen => exact hp _ _
  | cgTraverse => exact hp _ _
  | cgSingle => exact hp _ _
  | ctLookup d => exact hs _ _ _
  | bpLatch d => exact hn _

end Sys2Proof.Machine
end

