-- ==== Sys2Proof/Laws/Queue.lean ====
section
/-! SUPPORT. Laws/Queue.lean: the Priority Queue's operations (42_priority_queue.md R151 to R154): where the smallest of
a position and its children is, one turn of the loop, when an insertion and an extraction answer, and what they change. -/
namespace Sys2Proof.Machine

/-- The position R151 swaps with is the position itself, its left child or its right child. -/
theorem smallest_mem (h : Arr HeapEntry 256) (n i : Nat) :
    smallest h n i = i ∨ (smallest h n i = 2 * i + 1 ∧ 2 * i + 1 < n) ∨ (smallest h n i = 2 * i + 2 ∧ 2 * i + 2 < n) := by
  simp only [smallest]
  split <;> split <;> simp_all

/-- The smallest is no larger than the position, nor than a child inside the queue. -/
theorem smallest_le (h : Arr HeapEntry 256) (n i : Nat) :
    (heapAt h (smallest h n i)).freq ≤ (heapAt h i).freq ∧
    (2 * i + 1 < n → (heapAt h (smallest h n i)).freq ≤ (heapAt h (2 * i + 1)).freq) ∧
    (2 * i + 2 < n → (heapAt h (smallest h n i)).freq ≤ (heapAt h (2 * i + 2)).freq) := by
  simp only [smallest]
  by_cases h1 : 2 * i + 1 < n ∧ (heapAt h (2 * i + 1)).freq < (heapAt h i).freq
  · rw [if_pos h1]
    by_cases h2 : 2 * i + 2 < n ∧ (heapAt h (2 * i + 2)).freq < (heapAt h (2 * i + 1)).freq
    · rw [if_pos h2]
      have := h1.2; have := h2.2
      exact ⟨by bv_omega, fun _ => by bv_omega, fun _ => by bv_omega⟩
    · rw [if_neg h2]
      have := h1.2
      exact ⟨by bv_omega, fun _ => by bv_omega, fun hn => by
        have := fun hx => h2 ⟨hn, hx⟩; bv_omega⟩
  · rw [if_neg h1]
    by_cases h2 : 2 * i + 2 < n ∧ (heapAt h (2 * i + 2)).freq < (heapAt h i).freq
    · rw [if_pos h2]
      have := h2.2
      exact ⟨by bv_omega, fun hn => by have := fun hx => h1 ⟨hn, hx⟩; bv_omega, fun _ => by bv_omega⟩
    · rw [if_neg h2]
      exact ⟨by bv_omega, fun hn => by have := fun hx => h1 ⟨hn, hx⟩; bv_omega,
        fun hn => by have := fun hx => h2 ⟨hn, hx⟩; bv_omega⟩

/-- A position that is not moved is strictly the smallest or tied: no child inside the queue is strictly smaller. -/
theorem smallest_eq_self (h : Arr HeapEntry 256) (n i : Nat)
    (hl : 2 * i + 1 < n → (heapAt h i).freq ≤ (heapAt h (2 * i + 1)).freq)
    (hr : 2 * i + 2 < n → (heapAt h i).freq ≤ (heapAt h (2 * i + 2)).freq) : smallest h n i = i := by
  have h1 : ¬ (2 * i + 1 < n ∧ (heapAt h (2 * i + 1)).freq < (heapAt h i).freq) := by
    rintro ⟨hn, hx⟩; have := hl hn; bv_omega
  have h2 : ¬ (2 * i + 2 < n ∧ (heapAt h (2 * i + 2)).freq < (heapAt h i).freq) := by
    rintro ⟨hn, hx⟩; have := hr hn; bv_omega
  simp only [smallest, if_neg h1, if_neg h2]

/-- The array with the entries at i and m exchanged is the swapped one, and the only one. -/
theorem swapped_iff {h g : Arr HeapEntry 256} {i m : Nat} (hi : i < 256) (hm : m < 256) :
    Swapped h g i m ↔ g = heapSwap h i m := by
  have hs : Swapped h (heapSwap h i m) i m := by
    intro k
    by_cases h1 : k = i
    · rw [h1, if_pos rfl, heapAt_swap_left h hi hm]
    · by_cases h2 : k = m
      · rw [if_neg h1, if_pos h2, h2, heapAt_swap_right h hm]
      · rw [if_neg h1, if_neg h2, heapAt_swap_ne h h1 h2]
  exact ⟨fun hg => heap_ext fun k _ => (hg k).trans (hs k).symm, fun e => e ▸ hs⟩

/-- One turn of R151's loop. -/
theorem siftDown_succ (fuel : Nat) (h : Arr HeapEntry 256) (n i : Nat) :
    siftDown (fuel + 1) h n i =
      if smallest h n i = i then h else siftDown fuel (heapSwap h i (smallest h n i)) n (smallest h n i) := rfl

/-- A position without a child inside the queue is left alone (R151; log 18). -/
theorem heapifyDown_leaf (h : Arr HeapEntry 256) {n i : Nat} (hi : n ≤ 2 * i + 1) : heapifyDown h n i = h :=
  if_pos (smallest_eq_self h n i (fun hn => by omega) (fun hn => by omega))

/-- An insertion answers exactly when there is room, and counts the entry (R153). -/
theorem pqInsert_ok {e : HeapEntry} {q r : Queue} (h : pqInsert e q = .ok r) :
    q.hsize.val < 256 ∧ r.hsize.val = q.hsize.val + 1 ∧
    r.heap = buildHeap (heapPut q.heap q.hsize.val e) (q.hsize.val + 1) := by
  unfold pqInsert at h
  split at h
  · rename_i hr
    cases h
    exact ⟨hr, rfl, rfl⟩
  · cases h

theorem pqInsert_room (e : HeapEntry) {q : Queue} (h : q.hsize.val < 256) : ∃ r, pqInsert e q = .ok r :=
  ⟨_, dif_pos h⟩

theorem pqInsert_full (e : HeapEntry) {q : Queue} (h : ¬ q.hsize.val < 256) : pqInsert e q = .error .queueFull :=
  dif_neg h

/-- The only fault an insertion raises (R153). -/
theorem pqInsert_error {e : HeapEntry} {q : Queue} {k : ErrKind} (h : pqInsert e q = .error k) :
    k = .queueFull ∧ q.hsize.val = 256 := by
  unfold pqInsert at h
  split at h
  · cases h
  · rename_i hr
    cases h
    have := q.hsize.isLt
    simp only [Config.heapCap] at hr
    exact ⟨rfl, by omega⟩

/-- An extraction answers exactly when the queue is not empty: the entry at position 0 (R154). -/
theorem pqExtractMin_ok {q r : Queue} {e : HeapEntry} (h : pqExtractMin q = .ok (e, r)) :
    q.hsize.val ≠ 0 ∧ e = heapAt q.heap 0 ∧ r.hsize.val = q.hsize.val - 1 ∧
    r.heap = (if 0 < q.hsize.val - 1 then
      heapifyDown (heapPut q.heap 0 (heapAt q.heap (q.hsize.val - 1))) (q.hsize.val - 1) 0 else q.heap) := by
  unfold pqExtractMin at h
  split at h
  · cases h
  · rename_i hn
    cases h
    exact ⟨hn, rfl, rfl, rfl⟩

theorem pqExtractMin_some {q : Queue} (h : q.hsize.val ≠ 0) : ∃ r, pqExtractMin q = .ok (heapAt q.heap 0, r) :=
  ⟨_, if_neg h⟩

theorem pqExtractMin_empty {q : Queue} (h : q.hsize.val = 0) : pqExtractMin q = .error .queueEmpty := if_pos h

/-- The only fault an extraction raises (R154). -/
theorem pqExtractMin_error {q : Queue} {k : ErrKind} (h : pqExtractMin q = .error k) :
    k = .queueEmpty ∧ q.hsize.val = 0 := by
  unfold pqExtractMin at h
  split at h
  · cases h; exact ⟨rfl, ‹_›⟩
  · cases h

/-- An insertion changes the queue and nothing else. -/
theorem insertEntry_cases (e : HeapEntry) (s : State) :
    (∃ q, pqInsert e s.pq = .ok q ∧ insertEntry e s = .ok { s with pq := q }) ∨
    (∃ k, pqInsert e s.pq = .error k ∧ insertEntry e s = .error k) := by
  unfold insertEntry
  cases h : pqInsert e s.pq with
  | ok q => exact .inl ⟨q, rfl, rfl⟩
  | error k => exact .inr ⟨k, rfl, rfl⟩

/-- An extraction changes the queue and PQ_OUT and nothing else. -/
theorem extractEntry_cases (s : State) :
    (∃ q, pqExtractMin s.pq = .ok (heapAt s.pq.heap 0, q) ∧
      extractEntry s = .ok { s with pq := q, pqOut := heapAt s.pq.heap 0 }) ∨
    (s.pq.hsize.val = 0 ∧ extractEntry s = .error .queueEmpty) := by
  unfold extractEntry
  by_cases h : s.pq.hsize.val = 0
  · exact .inr ⟨h, by simp [pqExtractMin_empty h]⟩
  · obtain ⟨r, hr⟩ := pqExtractMin_some h
    exact .inl ⟨r, hr, by simp [hr]⟩

end Sys2Proof.Machine
end

