-- ==== Sys2Proof/Laws/Builder.lean ====
section
/-! SUPPORT. Laws/Builder.lean: everything an operation of the Tree Builder can do (43_tree_builder.md R171 to R175), and
one turn of the traversal (44_code_table.md R192). -/
namespace Sys2Proof.Machine

/-- TB_LOAD loads the queue and goes on, or raises the kind its loading raised. -/
theorem execTbLoad_cases (s : State) :
    (∃ q, loadLeaves 0 s.freq.cells s.pq = .ok q ∧ execTbLoad s = .next { s with pq := q, seq := mergeOrRoot q }) ∨
    (∃ k, loadLeaves 0 s.freq.cells s.pq = .error k ∧ execTbLoad s = .next (raise k 0 s)) := by
  unfold execTbLoad tbLoad
  cases h : loadLeaves 0 s.freq.cells s.pq with
  | ok q => exact .inl ⟨q, rfl, rfl⟩
  | error k => exact .inr ⟨k, rfl, rfl⟩

/-- TB_XA moves the entry at position 0 to EA, or raises QueueEmpty. -/
theorem execTbXa_cases (s : State) :
    (∃ q, pqExtractMin s.pq = .ok (heapAt s.pq.heap 0, q) ∧ execTbXa s = .next
      { s with pq := q, pqOut := heapAt s.pq.heap 0, ea := heapAt s.pq.heap 0, seq := .xb }) ∨
    (s.pq.hsize.val = 0 ∧ execTbXa s = .next (raise .queueEmpty 0 s)) := by
  unfold execTbXa tbXa
  rcases extractEntry_cases s with ⟨q, hq, e⟩ | ⟨h0, e⟩
  · exact .inl ⟨q, hq, by rw [e]; rfl⟩
  · exact .inr ⟨h0, by rw [e]; rfl⟩

/-- TB_XB moves the entry at position 0 to EB, or raises QueueEmpty. -/
theorem execTbXb_cases (s : State) :
    (∃ q, pqExtractMin s.pq = .ok (heapAt s.pq.heap 0, q) ∧ execTbXb s = .next
      { s with pq := q, pqOut := heapAt s.pq.heap 0, eb := heapAt s.pq.heap 0, seq := .ins }) ∨
    (s.pq.hsize.val = 0 ∧ execTbXb s = .next (raise .queueEmpty 0 s)) := by
  unfold execTbXb tbXb
  rcases extractEntry_cases s with ⟨q, hq, e⟩ | ⟨h0, e⟩
  · exact .inl ⟨q, hq, by rw [e]; rfl⟩
  · exact .inr ⟨h0, by rw [e]; rfl⟩

/-- TB_INS writes one arena entry and reinserts the node, raises QueueFull on the state it began with, or stops on an
index that does not exist. -/
theorem execTbIns_cases (s : State) :
    (∃ a q, arenaSet s.arena s.nnode (mergedNode s) = .ok a ∧ pqInsert ⟨mergedFreq s, s.nnode⟩ s.pq = .ok q ∧
      execTbIns s = .next { s with arena := a, pq := q, nnode := s.nnode + 1, seq := mergeOrRoot q }) ∨
    (s.pq.hsize.val = 256 ∧ execTbIns s = .next (raise .queueFull 0 s)) ∨
    (∃ f, arenaSet s.arena s.nnode (mergedNode s) = .error f ∧ execTbIns s = .fault f) := by
  unfold execTbIns
  cases ha : arenaSet s.arena s.nnode (mergedNode s) with
  | error f => exact .inr (.inr ⟨f, rfl, rfl⟩)
  | ok a =>
    unfold tbReinsert
    rcases insertEntry_cases ⟨mergedFreq { s with arena := a }, s.nnode⟩ { s with arena := a } with ⟨q, hq, e⟩ | ⟨k, hk, e⟩
    · exact .inl ⟨a, q, rfl, hq, by simp only [e]; rfl⟩
    · obtain ⟨rfl, h⟩ := pqInsert_error hk
      exact .inr (.inl ⟨h, by simp only [e]; rfl⟩)

/-- An empty stack ends the traversal. -/
theorem traverse_nil (a : Arr Node 255) (fuel : Nat) (c : Arr CodeEntry 256) : traverse a fuel [] c = .ok c := by
  cases fuel <;> rfl

/-- A Leaf on top of the stack: its path becomes its code. -/
theorem traverse_leaf (a : Arr Node 255) (fuel : Nat) {p : Pending} (stack : List Pending) (c : Arr CodeEntry 256)
    (h : isLeaf p.node = true) :
    traverse a (fuel + 1) (p :: stack) c = traverse a fuel stack (tableSet c (leafSym p.node) ⟨p.len, p.bits⟩) := by
  simp only [traverse, h, if_true]

/-- An Internal node on top of the stack: its two subtrees take its place, the left one on top. -/
theorem traverse_node (a : Arr Node 255) (fuel : Nat) {p : Pending} {nd : Node} (stack : List Pending)
    (c : Arr CodeEntry 256) (h : arenaGet a p.node = .ok nd) :
    traverse a (fuel + 1) (p :: stack) c = traverse a fuel (children p nd ++ stack) c := by
  have hl : ¬ isLeaf p.node = true := fun hl => by rw [arenaGet_leaf a hl] at h; cases h
  simp only [traverse, if_neg hl, h]

end Sys2Proof.Machine
end

