-- ==== Sys2Proof/Laws/Packer.lean ====
section
/-! SUPPORT. Laws/Packer.lean: the accumulator (45_bit_packer.md R205, R207): what one appended bit does to ACC, bit by
bit and as a number, and the two cases of BP_PUT_BIT's effect. -/
namespace Sys2Proof.Machine

/-- Bit k of the shifted accumulator: the new bit lowest, the others one place up (R207). -/
theorem shiftIn_bit (b : Bool) (acc : Byte) (k : Nat) (h : k < 8) :
    (shiftIn b acc).getLsbD k = if k = 0 then b else acc.getLsbD (k - 1) := by
  unfold shiftIn
  by_cases hk : k = 0
  · subst hk; cases b <;> simp
  · rw [if_neg hk, BitVec.getLsbD_or, BitVec.getLsbD_shiftLeft]
    cases b <;> simp [hk, h]

/-- No pending bit is lost: below 2^7 the accumulator doubles and takes the bit (R205). -/
theorem shiftIn_toNat (b : Bool) (acc : Byte) (h : acc.toNat < 2 ^ 7) :
    (shiftIn b acc).toNat = 2 * acc.toNat + b.toNat := by
  have : ∀ (b : Bool) (x : BitVec 7), (shiftIn b (x.setWidth 8)).toNat = 2 * x.toNat + b.toNat := by decide
  have e : (BitVec.setWidth 7 acc).setWidth 8 = acc := BitVec.eq_of_toNat_eq (by simp; omega)
  have h7 := this b (acc.setWidth 7)
  rwa [e, BitVec.toNat_setWidth, Nat.mod_eq_of_lt h] at h7

/-- BP_PUT_BIT on the eighth bit: the byte is emitted and the accumulator starts again (R207). -/
theorem putBit_full (b : Bool) {s : State} (h : s.nbits = 7) :
    putBit b s = { s with outq := s.outq ++ [shiftIn b s.acc], acc := 0, nbits := 0 } := if_pos h

/-- BP_PUT_BIT before the eighth bit (R207). -/
theorem putBit_room (b : Bool) {s : State} (h : s.nbits ≠ 7) :
    putBit b s = { s with acc := shiftIn b s.acc, nbits := s.nbits + 1 } := if_neg h

/-- Everything BP_EMIT can do (R208). -/
theorem bpEmit_cases (s : State) :
    (s.curLen = 0 ∧ execBpEmit s = .next { s with seq := .pack }) ∨
    (s.curLen ≠ 0 ∧ putHeld s = true ∧ execBpEmit s = .next s) ∨
    (s.curLen ≠ 0 ∧ putHeld s = false ∧ execBpEmit s = .next
      { putBit (codeBit (tableGet s.code s.curSym).bits s.curLen) s with curLen := s.curLen - 1 }) := by
  unfold execBpEmit
  by_cases h : s.curLen = 0
  · exact .inl ⟨h, if_pos h⟩
  · cases hp : putHeld s
    · exact .inr (.inr ⟨h, rfl, by rw [if_neg h, if_neg Bool.false_ne_true]⟩)
    · exact .inr (.inl ⟨h, rfl, by rw [if_neg h, if_pos rfl]⟩)

/-- Everything BP_FLUSH can do (R209). -/
theorem bpFlush_cases (s : State) :
    (s.nbits = 0 ∧ execBpFlush s = .next { s with seq := .done }) ∨
    (s.nbits ≠ 0 ∧ outFull s = true ∧ execBpFlush s = .next s) ∨
    (s.nbits ≠ 0 ∧ outFull s = false ∧ execBpFlush s = .next
      { s with outq := s.outq ++ [flushByte s], acc := 0, nbits := 0, seq := .done }) := by
  unfold execBpFlush
  by_cases h : s.nbits = 0
  · exact .inl ⟨h, if_pos h⟩
  · cases hp : outFull s
    · exact .inr (.inr ⟨h, rfl, by rw [if_neg h, if_neg Bool.false_ne_true]; rfl⟩)
    · exact .inr (.inl ⟨h, rfl, by rw [if_neg h, if_pos rfl]⟩)

end Sys2Proof.Machine
end

