-- ==== Sys2Proof/Laws/PerInstr.lean ====
section
/-! SUPPORT. Laws/PerInstr.lean: the family RowMatch: what the encoder writes for a well-formed operation has, under the
mask of one of its rows of spec/opcode_table.json, that row's fixed bits (30_encoding.md R104). -/
namespace Sys2Proof.Laws.RowMatch

/-- The (mask, match) pairs of an operation's rows, as spec/opcode_table.json prints them; none for SUBOP and PORT. -/
def rows : Instr → List (Nat × Nat)
  | .nop => [(0xFFF, 0x000)]
  | .start => [(0xFFF, 0x100)]
  | .byte _ => [(0xF00, 0x200)]
  | .eos => [(0xFFF, 0x300)]
  | .clear => [(0xFFF, 0x400)]
  | .selsym _ => [(0xF00, 0x500)]
  | .abort _ => [(0xFFF, 0x601), (0xFFF, 0x602)]
  | .rdfreq => [(0xFFF, 0x800)]
  | .rdlen => [(0xFFF, 0x900)]
  | .rdcode _ => [(0xFF8, 0xA00)]
  | .rdreg _ => [(0xFF8, 0xB00), (0xFFC, 0xB08), (0xFFE, 0xB0C)]
  | .init => [(0xF, 0x1)]
  | .freqInc _ => []
  | .heapifyDown _ => []
  | .buildHeap => []
  | .pqInsert _ => [(0x3, 0x1)]
  | .pqExtractMin => [(0x3, 0x2)]
  | .tbLoad => [(0xF, 0x3)]
  | .tbXa => [(0xF, 0x4)]
  | .tbXb => [(0xF, 0x5)]
  | .tbIns => [(0xF, 0x6)]
  | .tbRoot => [(0xF, 0x7)]
  | .cgGen => [(0xF, 0x8)]
  | .cgTraverse => []
  | .cgSingle => []
  | .ctLookup _ => []
  | .bpLatch _ => []
  | .bpPutBit _ => []
  | .bpEmit => [(0xF, 0xA)]
  | .bpFlush => [(0xF, 0xB)]
  | .outPop => []

/-- The bits of a selector that the opcode table numbers. -/
def bits : Selector → Nat
  | .cmd w => w.toNat
  | .seq c => c.toNat
  | .pq op _ => op.toNat

/-- What the encoder writes matches a row of the operation. -/
def Statement (i : Instr) : Prop :=
  i.wellFormed = true → ∀ sel, encode i = some sel → ∃ r ∈ rows i, bits sel &&& r.1 = r.2

/-- A command word with a byte operand matches a row when it does so for each of the 256 bytes. -/
theorem of_bytes {c : Byte → Instr} {f : Byte → CmdWord} (he : ∀ b, encode (c b) = some (.cmd (f b)))
    (h : ∀ b, (c b).wellFormed = true → ∃ r ∈ rows (c b), (f b).toNat &&& r.1 = r.2) (b : Byte) : Statement (c b) := by
  intro hw sel hs
  rw [he, Option.some.injEq] at hs
  exact hs ▸ h b hw

theorem nop : Statement .nop := by
  rintro - sel ⟨⟩
  decide
theorem start : Statement .start := by
  rintro - sel ⟨⟩
  decide
theorem byte (d : Byte) : Statement (.byte d) := of_bytes (fun _ => rfl) (by decide +kernel) d
theorem eos : Statement .eos := by
  rintro - sel ⟨⟩
  decide
theorem clear : Statement .clear := by
  rintro - sel ⟨⟩
  decide
theorem selsym (s : Byte) : Statement (.selsym s) := of_bytes (fun _ => rfl) (by decide +kernel) s
theorem abort (k : Byte) : Statement (.abort k) := of_bytes (fun _ => rfl) (by decide +kernel) k
theorem rdfreq : Statement .rdfreq := by
  rintro - sel ⟨⟩
  decide
theorem rdlen : Statement .rdlen := by
  rintro - sel ⟨⟩
  decide
theorem rdcode (w : Byte) : Statement (.rdcode w) := of_bytes (fun _ => rfl) (by decide +kernel) w
theorem rdreg (r : Byte) : Statement (.rdreg r) := of_bytes (fun _ => rfl) (by decide +kernel) r
theorem init : Statement .init := by
  rintro - sel ⟨⟩
  decide
theorem freqInc (d : Byte) : Statement (.freqInc d) := nofun
theorem heapifyDown (i : Byte) : Statement (.heapifyDown i) := nofun
theorem buildHeap : Statement .buildHeap := nofun
theorem pqInsert (e : HeapEntry) : Statement (.pqInsert e) := by
  rintro - sel ⟨⟩
  exact ⟨_, List.mem_singleton.2 rfl, by simp [bits]⟩
theorem pqExtractMin : Statement .pqExtractMin := by
  rintro - sel ⟨⟩
  decide
theorem tbLoad : Statement .tbLoad := by
  rintro - sel ⟨⟩
  decide
theorem tbXa : Statement .tbXa := by
  rintro - sel ⟨⟩
  decide
theorem tbXb : Statement .tbXb := by
  rintro - sel ⟨⟩
  decide
theorem tbIns : Statement .tbIns := by
  rintro - sel ⟨⟩
  decide
theorem tbRoot : Statement .tbRoot := by
  rintro - sel ⟨⟩
  decide
theorem cgGen : Statement .cgGen := by
  rintro - sel ⟨⟩
  decide
theorem cgTraverse : Statement .cgTraverse := nofun
theorem cgSingle : Statement .cgSingle := nofun
theorem ctLookup (d : Byte) : Statement (.ctLookup d) := nofun
theorem bpLatch (d : Byte) : Statement (.bpLatch d) := nofun
theorem bpPutBit (b : Bool) : Statement (.bpPutBit b) := nofun
theorem bpEmit : Statement .bpEmit := by
  rintro - sel ⟨⟩
  decide
theorem bpFlush : Statement .bpFlush := by
  rintro - sel ⟨⟩
  decide
theorem outPop : Statement .outPop := nofun

end Sys2Proof.Laws.RowMatch
end

