-- ==== Sys2Proof/Laws/Step.lean ====
section
/-! SUPPORT. Laws/Step.lean: everything one step can be (00_scope.md R7, R8), said once, so that a claim about `step`
unfolds neither the fetch nor the turns. -/
namespace Sys2Proof.Machine

/-- A state's code names that state (30_encoding.md R95). -/
@[simp] theorem seqOfCode_seqCode (q : SeqState) : seqOfCode (seqCode q) = some q := by cases q <;> rfl

/-- What SEQ selects: the operation of its state, or none (R95). -/
theorem decodeSeq_seqCode (q : SeqState) :
    decodeSeq (seqCode q) = match opOfState q with
      | some i => .ok i
      | none => .error (.noOperation (seqCode q)) := by cases q <;> rfl

/-- A state has an internal operation exactly when it is busy (46_sequencer.md R226). -/
theorem opOfState_isSome (q : SeqState) : (opOfState q).isSome = isBusy q := by cases q <;> rfl

/-- `out_valid` says that OUTQ is not empty (10_state.md R41). -/
theorem pinOutValid_iff (s : State) : pinOutValid s = true ↔ s.outq ≠ [] := by
  unfold pinOutValid
  cases s.outq <;> simp

/-- What the turn of one agent can be. -/
theorem turn_cases {s t : State} {a : Turn} (h : (match fetchTurn a s with
    | (.run i, u) => exec i u
    | (.malformed w, u) => .next (illegalCommand w u)
    | (.reset, u) => .next (toReset u)
    | (.wait, u) => .next u : Result) = .next t) :
    (a = .rst ∧ t = toReset s) ∨ t = s ∨
    (a = .hostCmd ∧ isBusy s.seq = false ∧ ∃ w cs, s.cmds = w :: cs ∧
      (((∃ e, decodeCmd w = .error e) ∧ t = illegalCommand w { s with cmds := cs }) ∨
        ∃ i, decodeCmd w = .ok i ∧ exec i { s with cmds := cs } = .next t)) ∨
    (a = .core ∧ ∃ i, opOfState s.seq = some i ∧ exec i s = .next t) ∨
    (a = .hostOut ∧ s.outq ≠ [] ∧ exec .outPop s = .next t) := by
  cases a with
  | rst => cases h; exact .inl ⟨rfl, rfl⟩
  | core =>
    simp only [fetchTurn, fetchCore, decodeSeq_seqCode] at h
    cases ho : opOfState s.seq with
    | some i => rw [ho] at h; exact .inr (.inr (.inr (.inl ⟨rfl, i, rfl, h⟩)))
    | none => rw [ho] at h; cases h; exact .inr (.inl rfl)
  | hostOut =>
    simp only [fetchTurn, fetchOut] at h
    by_cases hq : pinOutValid s = true
    · rw [if_pos hq] at h; exact .inr (.inr (.inr (.inr ⟨rfl, (pinOutValid_iff s).1 hq, h⟩)))
    · rw [if_neg hq] at h; cases h; exact .inr (.inl rfl)
  | hostCmd =>
    simp only [fetchTurn, fetchCmd] at h
    by_cases hb : isBusy s.seq = true
    · rw [if_pos hb] at h; cases h; exact .inr (.inl rfl)
    · rw [if_neg hb] at h
      rw [Bool.not_eq_true] at hb
      cases hc : s.cmds with
      | nil => simp only [hc] at h; cases h; exact .inr (.inl rfl)
      | cons w cs =>
        simp only [hc] at h
        refine .inr (.inr (.inl ⟨rfl, hb, w, cs, rfl, ?_⟩))
        cases hd : decodeCmd w with
        | ok i => simp only [hd] at h; exact .inr ⟨i, rfl, h⟩
        | error e => simp only [hd] at h; cases h; exact .inl ⟨⟨e, rfl⟩, rfl⟩

/-- A step is the turn of the agent listed first, or of the default one when none is listed (log 3). -/
theorem step_turn {s : State} (hp : s.pqReq = .idle) :
    step s = match fetchTurn (s.turns.head?.getD (defaultTurn s)) { s with rsp := none, turns := s.turns.tail } with
      | (.run i, u) => exec i u
      | (.malformed w, u) => .next (illegalCommand w u)
      | (.reset, u) => .next (toReset u)
      | (.wait, u) => .next u := by
  obtain ⟨seq, err, errInfo, sel, usc, total, pq, nnode, root, ea, eb, curSym, curLen, acc, nbits, freq, arena, code,
    outq, pqReq, pqOut, ctOut, rsp, outDepth, popped, cmds, turns, drain⟩ := s
  subst hp
  cases turns <;> rfl

/-- The default turn is never `rst` (log 3). -/
theorem defaultTurn_ne_rst (s : State) : defaultTurn s ≠ .rst := by
  unfold defaultTurn
  split <;> [simp; split <;> simp]

/-- What a step does once the response port is cleared: `rst` in its turn, nothing, a command word accepted, CORE's
operation, or OUT_POP. A request on the queue's wires is the other case, `step_request`. -/
theorem step_cases {s t : State} (hp : s.pqReq = .idle) (h : step s = .next t) :
    (s.turns.head? = some .rst ∧ t = toReset { s with rsp := none, turns := s.turns.tail }) ∨
    t = { s with rsp := none, turns := s.turns.tail } ∨
    (isBusy s.seq = false ∧ ∃ w cs, s.cmds = w :: cs ∧
      (((∃ e, decodeCmd w = .error e) ∧
          t = illegalCommand w { s with rsp := none, turns := s.turns.tail, cmds := cs }) ∨
        ∃ i, decodeCmd w = .ok i ∧ exec i { s with rsp := none, turns := s.turns.tail, cmds := cs } = .next t)) ∨
    (∃ i, opOfState s.seq = some i ∧ exec i { s with rsp := none, turns := s.turns.tail } = .next t) ∨
    (s.outq ≠ [] ∧ exec .outPop { s with rsp := none, turns := s.turns.tail } = .next t) := by
  rw [step_turn hp] at h
  rcases turn_cases h with ⟨ha, e⟩ | e | ⟨-, hx⟩ | ⟨-, hx⟩ | ⟨-, hx⟩
  · refine .inl ⟨?_, e⟩
    cases ht : s.turns.head? with
    | none => rw [ht] at ha; exact absurd ha (defaultTurn_ne_rst s)
    | some a => rw [ht] at ha; exact congrArg some ha
  · exact .inr (.inl e)
  · exact .inr (.inr (.inl hx))
  · exact .inr (.inr (.inr (.inl hx)))
  · exact .inr (.inr (.inr (.inr hx)))

/-- A request on the queue's wires is the next step (30_encoding.md R97). -/
theorem step_request (s : State) :
    (∀ e, s.pqReq = .insert e → step s = execPqInsert e { s with rsp := none, pqReq := .idle }) ∧
    (s.pqReq = .extractMin → step s = execPqExtractMin { s with rsp := none, pqReq := .idle }) := by
  constructor
  · intro e h; simp only [step, fetch, h]; rfl
  · intro h; simp only [step, fetch, h]; rfl

/-- OUT_POP moves one byte (45_bit_packer.md R210). -/
theorem outPop_cons {s : State} {b : Byte} {rest : List Byte} (h : s.outq = b :: rest) :
    execOutPop s = .next { s with outq := rest, popped := s.popped ++ [b] } := by
  simp only [execOutPop, h]

end Sys2Proof.Machine
end

