-- ==== Sys2Proof/Tests/Slice0.lean ====
section
/-! SUPPORT. Tests/Slice0.lean: the model's own tests. Expected values come from spec/95_test_vectors.md and the tables of
spec/30_encoding.md; then, for every statement with hypotheses, a concrete state that meets them. -/
namespace Sys2Proof.Machine

/-! ## Small states -/

/-- The next state of an outcome. -/
def after : Result → Option State
  | .next s => some s
  | .fault _ | .refused _ => none

/-- The fault of an outcome. -/
def stopped : Result → Option Fault
  | .fault f => some f
  | .next _ | .refused _ => none

/-- A field of the next state of an operation. -/
def got {α : Type} (i : Instr) (s : State) (f : State → α) : Option α := (after (exec i s)).map f

/-- The reset state in another sequencer state. -/
def inSeq (q : SeqState) : State := { State.reset with seq := q }

/-- An array with the first entries given and the rest x. -/
def arrOf {α : Type} (n : Nat) (l : List α) (x : α) : Arr α n := ⟨(l ++ List.replicate n x).take n, by simp⟩

/-- A queue with the given entries. -/
def queueOf (l : List HeapEntry) (n : Fin 257) : Queue := ⟨arrOf 256 l ⟨0, 0⟩, n⟩

/-- A state that holds only a queue. -/
def withQueue (l : List HeapEntry) (n : Fin 257) : State := { State.reset with pq := queueOf l n }

/-- The counts of "aaabb". -/
def countsAB : Arr Word32 256 := tableSet (tableSet (Arr.fill 256 0) 97 3) 98 2

/-- The scan pass of "aaabb" before EOS. -/
def scanned : State := { inSeq .scan with freq := countsAB, usc := 2, total := 5 }

/-- S_PACK of P1 ("aaabb"): a = "0", b = "1" (E6, V5.1). -/
def packed : State := { scanned with
  seq := .pack, pq := queueOf [⟨5, 256⟩] 1, nnode := 257, root := 256, ea := ⟨2, 98⟩, eb := ⟨3, 97⟩
  arena := arrOf 255 [⟨5, 97, 98⟩] ⟨0, 0, 0⟩
  code := tableSet (tableSet (Arr.fill 256 ⟨0, 0⟩) 97 ⟨1, 0⟩) 98 ⟨1, 1⟩ }

/-- The arena of P4 and V6.1 with ROOT = 259. -/
def treeP4 : State := { inSeq .gen with
  root := 259, nnode := 260
  arena := arrOf 255 [⟨2, 100, 99⟩, ⟨4, 256, 114⟩, ⟨6, 257, 98⟩, ⟨11, 258, 97⟩] ⟨0, 0, 0⟩ }

/-- V7.2: ACC = 1010011, NBITS = 7, the code of c is "0001". -/
def packing : State := { inSeq .pack with
  acc := 0b1010011, nbits := 7, code := tableSet (Arr.fill 256 ⟨0, 0⟩) 0x63 ⟨4, 1⟩ }

/-- The next step is a turn of HOST-CMD with the word w. -/
def given (w : CmdWord) (s : State) : State := { s with cmds := [w], turns := [.hostCmd] }

/-! ## WellFormed: an ill-formed term for each check -/

theorem test_wellFormed_abort : (Instr.abort 0).wellFormed = false ∧ (Instr.abort 3).wellFormed = false := by decide
theorem test_wellFormed_rdcode : (Instr.rdcode 8).wellFormed = false ∧ (Instr.rdcode 7).wellFormed = true := by decide
theorem test_wellFormed_rdreg : (Instr.rdreg 14).wellFormed = false ∧ (Instr.rdreg 13).wellFormed = true := by decide
theorem test_wellFormed_pqInsert :
    (Instr.pqInsert ⟨1, 511⟩).wellFormed = false ∧ (Instr.pqInsert ⟨1, 510⟩).wellFormed = true := by decide

/-! ## Decode: words written out from R90, R91 (OP in bits 11:8, ARG in 7:0), R95 and R97, R98 -/

theorem test_decode_control :
    decode (.cmd 0b0000_00000000) = .ok .nop ∧ decode (.cmd 0b0001_00000000) = .ok .start ∧
    decode (.cmd 0b0011_00000000) = .ok .eos ∧ decode (.cmd 0b0100_00000000) = .ok .clear := ⟨rfl, rfl, rfl, rfl⟩

theorem test_decode_operands :
    decode (.cmd 0b0010_01100001) = .ok (.byte 0x61) ∧ decode (.cmd 0b0101_10000001) = .ok (.selsym 0x81) ∧
    decode (.cmd 0b0110_00000001) = .ok (.abort 1) ∧ decode (.cmd 0b0110_00000010) = .ok (.abort 2) :=
  ⟨rfl, rfl, rfl, rfl⟩

theorem test_decode_reads :
    decode (.cmd 0b1000_00000000) = .ok .rdfreq ∧ decode (.cmd 0b1001_00000000) = .ok .rdlen ∧
    decode (.cmd 0b1010_00000111) = .ok (.rdcode 7) ∧ decode (.cmd 0b1011_00000111) = .ok (.rdreg 7) ∧
    decode (.cmd 0b1011_00001011) = .ok (.rdreg 11) ∧ decode (.cmd 0b1011_00001101) = .ok (.rdreg 13) :=
  ⟨rfl, rfl, rfl, rfl, rfl, rfl⟩

theorem test_decode_seq :
    [0b0001, 0b0011, 0b0100, 0b0101, 0b0110, 0b0111, 0b1000, 0b1010, 0b1011].map (fun c => (decodeSeq c).toOption) =
      [some .init, some .tbLoad, some .tbXa, some .tbXb, some .tbIns, some .tbRoot, some .cgGen, some .bpEmit,
        some .bpFlush] := by decide

theorem test_decode_seq_rejects :
    [0b0000, 0b0010, 0b1001, 0b1100, 0b1111].map decodeSeq =
      [.error (.noOperation 0), .error (.noOperation 2), .error (.noOperation 9), .error (.noOperation 12),
        .error (.noOperation 15)] ∧
    decodeSeq 13 = .error (.reservedSeq 13) ∧ decodeSeq 14 = .error (.reservedSeq 14) := ⟨rfl, rfl, rfl⟩

/-- PQ_IN of (3, 97): freq in bits 40:9, node in bits 8:0 (R98). -/
theorem test_decode_request :
    decode (.pq 0b01 0b00000000000000000000000000000011_001100001) = .ok (.pqInsert ⟨3, 97⟩) ∧
    decode (.pq 0b10 0) = .ok .pqExtractMin ∧ decode (.pq 0b00 0) = .error .noRequest ∧
    decode (.pq 0b11 0) = .error .reservedRequest ∧ decode (.pq 0b01 511) = .error .noSuchNode :=
  ⟨rfl, rfl, rfl, rfl, rfl⟩

/-- The words of V1.2 that no command decodes to. -/
theorem test_decode_malformed :
    decodeCmd 0x001 = .error (.argNotZero 1) ∧ decodeCmd 0x600 = .error (.abortKind 0) ∧
    decodeCmd 0x603 = .error (.abortKind 3) ∧ decodeCmd 0x700 = .error (.reservedOp 7) ∧
    decodeCmd 0xA08 = .error (.codeWordNumber 8) ∧ decodeCmd 0xB0E = .error (.registerNumber 14) ∧
    decodeCmd 0xFFF = .error (.reservedOp 15) := ⟨rfl, rfl, rfl, rfl, rfl, rfl, rfl⟩

theorem test_decodeTableWord :
    decodeTableWord 12 0x261 = some (.byte 0x61) ∧ decodeTableWord 16 0xB0D = some (.rdreg 13) ∧
    decodeTableWord 8 0x8 = some .cgGen ∧ decodeTableWord 8 0x2 = some .pqExtractMin ∧
    decodeTableWord 2 0x1 = some (.pqInsert ⟨0, 0⟩) := by decide

theorem test_withFetchWord :
    (after (step (State.reset.withFetchWord 12 0x100))).map State.seq = some .init ∧
    (after (step (State.reset.withFetchWord 16 0xB05))).map State.rsp = some (some 0x100) ∧
    (after (step (State.reset.withFetchWord 8 0x1))).map State.seq = some .scan := by decide

/-- R103: `ENCODE "ab"` and `DUMP 'a'`, with a comment; R102: a hexadecimal and a decimal operand. -/
theorem test_script :
    assemble ["ENCODE \"ab\" ; two passes".toList, "DUMP 'a'".toList, "".toList, "BYTE 0x7f".toList,
      "RDREG 13".toList, "DRAIN".toList] =
      some [0x100, 0x261, 0x262, 0x300, 0x261, 0x262, 0x300, 0x561, 0x800, 0x900, 0xA00, 0x27F, 0xB0D] := by
  decide

/-! ## Host commands -/

theorem test_nop_busy_and_ready : got .nop (inSeq .emit) id = some (inSeq .emit) ∧ got .nop packed id = some packed := by
  decide +kernel

/-- V1.3: START in S_SCAN. -/
theorem test_start :
    got .start State.reset State.seq = some .init ∧
    got .start (inSeq .scan) (fun t => (t.seq, t.err, t.errInfo)) = some (.fault, .illegalCommand, 0x100) := by
  decide

/-- V3.2. -/
theorem test_byte_counts :
    got (.byte 0x61) scanned (fun t => (tableGet t.freq 0x61, t.usc, t.total, t.seq)) = some (4, 2, 6, .scan) ∧
    got (.byte 0xFF) scanned (fun t => (tableGet t.freq 0xFF, t.usc, t.total, t.seq)) = some (1, 3, 6, .scan) := by
  decide

/-- V7.2 and V6.5. -/
theorem test_byte_packs :
    got (.byte 0x63) packing (fun t => (t.curSym, t.curLen, t.seq)) = some (0x63, 4, .emit) ∧
    got (.byte 0x64) packing (fun t => (t.err, t.errInfo, t.seq, t.acc, t.nbits)) =
      some (.missingCode, 0x264, .fault, 0b1010011, 7) := by decide

/-- E7 and V5: the two ends of a scan pass. -/
theorem test_eos :
    got .eos (inSeq .scan) (fun t => (t.seq, t.err)) = some (.done, .emptyAlphabet) ∧
    got .eos scanned (fun t => (t.seq, t.err)) = some (.load, .none) ∧
    got .eos packed (fun t => (t.seq, t.err)) = some (.flush, .none) := by decide

theorem test_clear :
    got .clear { packed with outq := [1], sel := 5 }
      (fun t => (t.seq, t.sel, t.total, t.nnode, t.outq)) = some (.idle, 0, 0, 256, []) ∧
    got .clear packed (fun t => t.freq.cells) = some countsAB.cells := by decide +kernel

theorem test_selsym : got (.selsym 0xAB) (inSeq .fault) State.sel = some 0xAB := by decide

theorem test_abort :
    got (.abort 2) packed (fun t => (t.seq, t.err, t.errInfo, t.outq)) = some (.fault, .outputUnwritable, 0x602, []) := by
  decide

/-- V1.3: a table read before S_PACK. -/
theorem test_rdfreq :
    got .rdfreq { packed with sel := 0x61 } State.rsp = some (some 3) ∧
    got .rdfreq scanned (fun t => (t.rsp, t.seq, t.errInfo)) = some (some 0, .fault, 0x800) := by decide

theorem test_rdlen : got .rdlen { packed with sel := 0x62 } State.rsp = some (some 1) := by decide

/-- V6.4: words 0 and 1 of CODE_BITS[0] = 0x800000001. -/
theorem test_rdcode :
    got (.rdcode 0) { packed with code := tableSet packed.code 0 ⟨36, 0x800000001⟩ } State.rsp = some (some 1) ∧
    got (.rdcode 1) { packed with code := tableSet packed.code 0 ⟨36, 0x800000001⟩ } State.rsp = some (some 8) := by
  decide

/-- V1.4: RDREG 0 and RDREG 3 in S_FAULT of P5; V7.2: RDREG 8 and RDREG 13. -/
theorem test_rdreg :
    [0, 3].map (fun r => got (.rdreg r) { inSeq .fault with err := .missingCode, errInfo := 0x263 } State.rsp) =
      [some (some 0x4F), some (some 0x263)] ∧
    [8, 13].map (fun r => got (.rdreg r) { inSeq .pack with acc := 1, nbits := 3, curSym := 0x63 } State.rsp) =
      [some (some 0x301), some (some 0x63)] := by decide

/-! ## Internal operations -/

/-- V3.1. -/
theorem test_init :
    got .init { packed with seq := .init } (fun t => (t.seq, t.usc, t.total, t.pq.hsize, t.nnode, t.root)) =
      some (.scan, 0, 0, 0, 256, 0) := by decide

/-- V3.4: the last count, and LengthOverflow after it. -/
theorem test_freqInc :
    got (.freqInc 0x42) { inSeq .scan with total := 0xFFFFFFFE } (fun t => (t.total, t.seq, t.usc)) =
      some (0xFFFFFFFF, .scan, 1) ∧
    got (.freqInc 0x42) { inSeq .scan with total := 0xFFFFFFFF } (fun t => (t.total, t.err, t.errInfo, t.usc)) =
      some (0xFFFFFFFF, .lengthOverflow, 0x242, 0) := by decide

/-- V4.1, first and eighth rows. -/
theorem test_heapifyDown :
    got (.heapifyDown 0) (withQueue [⟨9, 0⟩, ⟨4, 1⟩, ⟨4, 2⟩, ⟨7, 3⟩, ⟨2, 4⟩] 5) (fun t => entries t.pq) =
      some [⟨4, 1⟩, ⟨2, 4⟩, ⟨4, 2⟩, ⟨7, 3⟩, ⟨9, 0⟩] ∧
    got (.heapifyDown 1) (withQueue [⟨1, 0⟩, ⟨9, 1⟩, ⟨2, 2⟩, ⟨3, 3⟩, ⟨4, 4⟩, ⟨8, 5⟩] 6) (fun t => entries t.pq) =
      some [⟨1, 0⟩, ⟨3, 3⟩, ⟨2, 2⟩, ⟨9, 1⟩, ⟨4, 4⟩, ⟨8, 5⟩] := by decide

/-- V4.1, fourth row, and an entry past HSIZE that stays. -/
theorem test_buildHeap :
    got .buildHeap (withQueue [⟨5, 0⟩, ⟨6, 1⟩, ⟨4, 2⟩, ⟨1, 3⟩] 3) (fun t => t.pq.heap.cells.take 4) =
      some [⟨4, 2⟩, ⟨6, 1⟩, ⟨5, 0⟩, ⟨1, 3⟩] := by decide

/-- V4.2, the last insertion; V4.5, QueueFull. -/
theorem test_pqInsert :
    got (.pqInsert ⟨1, 6⟩) (withQueue [⟨1, 4⟩, ⟨3, 1⟩, ⟨5, 5⟩, ⟨5, 0⟩, ⟨3, 3⟩, ⟨8, 2⟩] 6) (fun t => entries t.pq) =
      some [⟨1, 4⟩, ⟨3, 1⟩, ⟨1, 6⟩, ⟨5, 0⟩, ⟨3, 3⟩, ⟨8, 2⟩, ⟨5, 5⟩] ∧
    got (.pqInsert ⟨1, 6⟩) (withQueue [] 256) (fun t => (t.err, t.errInfo, t.seq, t.pq.hsize)) =
      some (.queueFull, 0, .fault, 256) := by decide

/-- V4.3, the first extraction; the eighth, QueueEmpty. -/
theorem test_pqExtractMin :
    got .pqExtractMin (withQueue [⟨1, 4⟩, ⟨3, 1⟩, ⟨1, 6⟩, ⟨5, 0⟩, ⟨3, 3⟩, ⟨8, 2⟩, ⟨5, 5⟩] 7)
      (fun t => (t.pqOut, entries t.pq)) =
      some (⟨1, 4⟩, [⟨1, 6⟩, ⟨3, 1⟩, ⟨5, 5⟩, ⟨5, 0⟩, ⟨3, 3⟩, ⟨8, 2⟩]) ∧
    got .pqExtractMin (withQueue [⟨8, 2⟩] 0) (fun t => (t.err, t.errInfo, t.seq)) = some (.queueEmpty, 0, .fault) := by
  decide

/-- V5.1 and V5.8. -/
theorem test_tbLoad :
    got .tbLoad { scanned with seq := .load } (fun t => (entries t.pq, t.seq)) = some ([⟨2, 98⟩, ⟨3, 97⟩], .xa) ∧
    got .tbLoad { scanned with seq := .load, freq := tableSet (Arr.fill 256 0) 97 3 } (fun t => (entries t.pq, t.seq)) =
      some ([⟨3, 97⟩], .root) := by decide +kernel

/-- V5.3: the first extraction, with the tie. -/
theorem test_tbXa :
    got .tbXa { withQueue [⟨1, 97⟩, ⟨1, 98⟩, ⟨1, 99⟩] 3 with seq := .xa } (fun t => (t.ea, entries t.pq, t.seq)) =
      some (⟨1, 97⟩, [⟨1, 99⟩, ⟨1, 98⟩], .xb) := by decide

theorem test_tbXb :
    got .tbXb { withQueue [⟨1, 99⟩, ⟨1, 98⟩] 2 with seq := .xb } (fun t => (t.eb, t.ea, entries t.pq, t.seq)) =
      some (⟨1, 99⟩, ⟨0, 0⟩, [⟨1, 98⟩], .ins) := by decide

/-- V5.1: first extracted to the right. -/
theorem test_tbIns :
    got .tbIns { inSeq .ins with ea := ⟨2, 98⟩, eb := ⟨3, 97⟩ }
      (fun t => (t.arena.cells.head?, entries t.pq, t.nnode, t.seq)) =
      some (some ⟨5, 97, 98⟩, [⟨5, 256⟩], 257, .root) := by decide

theorem test_tbRoot :
    got .tbRoot { withQueue [⟨11, 259⟩] 1 with seq := .root } (fun t => (t.root, t.pq.hsize, t.seq)) =
      some (259, 1, .gen) := by decide

/-- V6.1. -/
theorem test_cgTraverse :
    got .cgTraverse treeP4 (fun t => ([97, 98, 114, 99, 100, 122].map (tableGet t.code), t.seq)) =
      some ([⟨1, 1⟩, ⟨2, 1⟩, ⟨3, 1⟩, ⟨4, 1⟩, ⟨4, 0⟩, ⟨0, 0⟩], .gen) := by decide

/-- V6.2, with ROOT = 0 too. -/
theorem test_cgSingle :
    got .cgSingle { inSeq .gen with root := 97 } (fun t => [0, 97].map (tableGet t.code)) = some [⟨0, 0⟩, ⟨1, 0⟩] ∧
    got .cgSingle { inSeq .gen with root := 0 } (fun t => [0, 97].map (tableGet t.code)) = some [⟨1, 0⟩, ⟨0, 0⟩] := by
  decide

theorem test_cgGen :
    got .cgGen treeP4 (fun t => (tableGet t.code 99, t.seq)) = some (⟨4, 1⟩, .pack) ∧
    got .cgGen { inSeq .gen with root := 97 } (fun t => (tableGet t.code 97, t.seq)) = some (⟨1, 0⟩, .pack) := by
  decide

theorem test_ctLookup :
    got (.ctLookup 0x63) packing State.ctOut = some ⟨4, 1⟩ ∧
    got (.ctLookup 0x64) packing (fun t => (t.err, t.errInfo)) = some (.missingCode, 0x264) := by decide

theorem test_bpLatch :
    got (.bpLatch 0x63) packing (fun t => (t.curSym, t.curLen, t.seq, t.acc)) = some (0x63, 4, .emit, 0b1010011) := by
  decide

/-- V7.1, the seventh and the eighth bit. -/
theorem test_bpPutBit :
    got (.bpPutBit true) { State.reset with acc := 0b101001, nbits := 6 } (fun t => (t.acc, t.nbits, t.outq)) =
      some (0b1010011, 7, []) ∧
    got (.bpPutBit false) { State.reset with acc := 0b1010011, nbits := 7 } (fun t => (t.acc, t.nbits, t.outq)) =
      some (0, 0, [0xA6]) := by decide

/-- V7.2, the first bit; V7.7, the hold. -/
theorem test_bpEmit :
    got .bpEmit { packing with seq := .emit, curSym := 0x63, curLen := 4 }
      (fun t => (t.acc, t.nbits, t.outq, t.curLen, t.seq)) = some (0, 0, [0xA6], 3, .emit) ∧
    got .bpEmit { packing with seq := .emit, curSym := 0x63, curLen := 4, outq := [0xFF] } id =
      some { packing with seq := .emit, curSym := 0x63, curLen := 4, outq := [0xFF] } := by decide +kernel

/-- V7.3, NBITS = 5 and NBITS = 7. -/
theorem test_bpFlush :
    got .bpFlush { inSeq .flush with acc := 0b00011, nbits := 5 } (fun t => (t.outq, t.acc, t.nbits, t.seq)) =
      some ([0x18], 0, 0, .done) ∧
    got .bpFlush { inSeq .flush with acc := 0b1010011, nbits := 7 } State.outq = some [0xA6] := by decide

theorem test_outPop :
    got .outPop { inSeq .fault with outq := [1, 2], popped := [9] } (fun t => (t.outq, t.popped)) = some ([2], [9, 1]) := by
  decide

/-- A child index that does not exist, and a node that is its own child (log 13, 14). -/
theorem test_traverse_stops :
    stopped (exec .cgTraverse { treeP4 with arena := arrOf 255 [⟨0, 0, 0⟩, ⟨0, 0, 0⟩, ⟨0, 0, 0⟩, ⟨0, 511, 97⟩] ⟨0, 0, 0⟩ }) =
      some (.arenaIndex 511) ∧
    stopped (exec .cgGen { treeP4 with arena := arrOf 255 [⟨0, 0, 0⟩, ⟨0, 0, 0⟩, ⟨0, 0, 0⟩, ⟨0, 259, 97⟩] ⟨0, 0, 0⟩ }) =
      some .endlessTraversal := by decide +kernel

/-- V1.2: a malformed word through `step`. -/
theorem test_step_malformed :
    (after (step (given 0xA08 (inSeq .scan)))).map (fun t => (t.seq, t.err, t.errInfo, t.rsp)) =
      some (.fault, .illegalCommand, 0xA08, some 0) ∧
    (after (step (given 0x700 (inSeq .scan)))).map (fun t => (t.seq, t.err, t.errInfo, t.rsp)) =
      some (.fault, .illegalCommand, 0x700, none) := by decide

theorem countsAB_get (x : Byte) : tableGet countsAB x = if x = 98 then 2 else if x = 97 then 3 else 0 := by
  rw [countsAB, tableGet_tableSet, tableGet_tableSet, tableGet_fill]

theorem countsAB_present : presentSyms countsAB = [97, 98] := by
  unfold presentSyms
  simp only [countsAB_get]
  decide +kernel

theorem packed_counts (q : SeqState) : CountsOk { packed with seq := q } := fun _ =>
  ⟨show freqSum countsAB = 5 by decide +kernel, congrArg List.length countsAB_present.symm⟩

/-! ## Witnesses: for every statement with hypotheses, states and operands that meet them, at the edges of each clause -/

theorem witness_DecodeOfEncodeIsTheInstruction :
    ([.abort 1, .abort 2, .rdcode 7, .rdreg 13, .byte 0xFF, .nop, .bpFlush, .pqInsert ⟨BitVec.allOnes 32, 510⟩,
      .pqInsert ⟨0, 0⟩] : List Instr).all (fun i => i.wellFormed && (encode i).isSome) = true := by decide

theorem witness_CommandDecoderIsExact :
    malformedWord 0xB0E ∧ ¬ malformedWord 0xB0D ∧ decodeCmd 0xB0D = .ok (.rdreg 13) := by
  unfold malformedWord; exact ⟨by decide, by decide, rfl⟩

theorem witness_ScriptWordsDecodeToTheirLines :
    ∀ i, ScriptLine.cmd i ∈ ([.blank, .drain, .dump 0xFF, .cmd (.rdreg 13), .encodeRun [], .encodeRun [0, 0xFF],
      .stream [], .pass [1]] : List ScriptLine) → i.wellFormed = true ∧ ∃ w, encode i = some (.cmd w) := by
  intro i hi
  simp only [List.mem_cons, List.not_mem_nil, or_false, reduceCtorEq, false_or, ScriptLine.cmd.injEq] at hi
  subst hi
  exact ⟨rfl, _, rfl⟩

/-- For each clause the operands at the edges: malformed ones and their lines. -/
theorem witness_MalformedOperandLinesAssemble :
    (Instr.abort 3 = .abort 3 ∧ (0x603 : CmdWord) = 0x600 ||| (3 : Byte).zeroExtend 12) ∧
    (Instr.rdcode 8 = .rdcode 8 ∧ (0xA08 : CmdWord) = 0xA00 ||| (8 : Byte).zeroExtend 12) ∧
    (Instr.rdreg 14 = .rdreg 14 ∧ (0xB0E : CmdWord) = 0xB00 ||| (14 : Byte).zeroExtend 12) ∧
    ((0 : Byte) ≠ 1 ∧ (0 : Byte) ≠ 2 ∧ (3 : Byte) ≠ 1 ∧ (3 : Byte) ≠ 2) ∧
    8 ≤ (8 : Byte).toNat ∧ 14 ≤ (14 : Byte).toNat := by decide

/-- One state for each clause: a command word, a busy SEQ, a byte to pop, the two requests, no turn listed. -/
theorem witness_StepRunsTheSelectedOperation :
    (let s := given 0x261 scanned;
      s.pqReq = .idle ∧ s.turns = [.hostCmd] ∧ isBusy s.seq = false ∧ s.cmds = [0x261] ∧
        decode (.cmd 0x261) = .ok (.byte 0x61)) ∧
    (let s : State := { inSeq .flush with turns := [.core] };
      s.pqReq = .idle ∧ s.turns = [.core] ∧ decode (.seq (seqCode s.seq)) = .ok .bpFlush) ∧
    (let s : State := { packed with turns := [.hostOut], outq := [7] };
      s.pqReq = .idle ∧ s.turns = [.hostOut] ∧ s.outq ≠ []) ∧
    ({ packed with pqReq := .insert ⟨1, 510⟩ } : State).pqReq = .insert ⟨1, 510⟩ ∧
    ({ packed with pqReq := .extractMin } : State).pqReq = .extractMin ∧
    (packed.pqReq = .idle ∧ packed.turns = []) :=
  ⟨⟨rfl, rfl, rfl, rfl, rfl⟩, ⟨rfl, rfl, rfl⟩, ⟨rfl, rfl, by decide⟩, rfl, rfl, ⟨rfl, rfl⟩⟩

/-- A malformed word, a misplaced one in S_IDLE, one in S_FAULT, and a word that runs. -/
theorem witness_IllegalWordsFaultOrAreDiscarded :
    (let s := given 0x603 packed;
      s.pqReq = .idle ∧ s.turns = [.hostCmd] ∧ s.cmds = [0x603] ∧ isBusy s.seq = false ∧ malformedWord 0x603 ∧
        s.seq ≠ .fault) ∧
    (let s := given 0x261 State.reset;
      isBusy s.seq = false ∧ ¬ malformedWord 0x261 ∧ s.seq ∉ legalStates 2 ∧ s.seq ≠ .fault) ∧
    (let s := given 0x601 (inSeq .fault);
      isBusy s.seq = false ∧ ¬ malformedWord 0x601 ∧ s.seq ∉ legalStates 6 ∧ s.seq = .fault) ∧
    (let s := given 0x400 (inSeq .fault);
      isBusy s.seq = false ∧ ¬ malformedWord 0x400 ∧ s.seq ∈ legalStates 4) := by
  refine ⟨?_, ?_, ?_, ?_⟩ <;> simp only [malformedWord] <;> decide

theorem witness_CommandsAreHeldWhileBusy :
    let s := given 0x400 (inSeq .init)
    isBusy s.seq = true ∧ encode .clear = some (.cmd 0x400) ∧ s.pqReq = .idle ∧ s.turns = [.hostCmd] := by decide

theorem witness_RstResetsEveryScalarRegister :
    ({ packed with seq := .emit, turns := [.rst] } : State).pqReq = .idle ∧
    ({ packed with seq := .emit, turns := [.rst] } : State).turns = [.rst] := ⟨rfl, rfl⟩

theorem witness_NopAndSelsymInEveryReadyState :
    isBusy (inSeq .fault).seq = false ∧ isBusy packed.seq = false ∧ isBusy State.reset.seq = false := by decide

theorem witness_StartEntersInit : State.reset.seq = .idle := rfl

theorem witness_ByteCountsOrStartsAnEncode :
    scanned.seq = .scan ∧ packed.seq = .pack ∧ (tableGet packed.code 98).len ≠ 0 := by decide

theorem witness_EosClosesThePass :
    ((inSeq .scan).seq = .scan ∧ (inSeq .scan).usc = 0) ∧ (scanned.seq = .scan ∧ scanned.usc ≠ 0) ∧
    packed.seq = .pack := by decide

theorem witness_AbortRaisesTheReportedKind :
    (isBusy packed.seq = false ∧ packed.seq ≠ .fault) ∧
    (isBusy (inSeq .fault).seq = false ∧ (inSeq .fault).seq = .fault) := by decide

theorem witness_ClearEqualsReset :
    (isBusy (inSeq .fault).seq = false ∧ (inSeq .fault).pqReq = .idle ∧
      ({ inSeq .fault with turns := [.rst] } : State).turns = [.rst]) ∧ isBusy (inSeq .gen).seq = true := by decide

theorem witness_TableReadsAnswer : packed.seq = .pack ∧ (inSeq .done).seq = .done ∧ (7 : Byte) < 8 := by decide

/-- A reserved register; the first and the last register, with OUTQ not empty. -/
theorem witness_RdregAnswersTheRegister :
    isBusy packed.seq = false ∧ packed.seq ≠ .fault ∧ (13 : Byte) < 14 ∧
    (let s : State := { packed with outq := [1] };
      ((0, 265), (13, 0)) = (((0 : Byte), (seqCode s.seq).toNat + 16 * (errCode s.err).toNat +
        (if s.outq = [] then 0 else 256)), ((13 : Byte), 256 * s.curLen.toNat + s.curSym.toNat))) := by decide

theorem witness_FreqIncCountsOneByte :
    (let s : State := { inSeq .scan with total := 0xFFFFFFFF };
      s.total.toNat = 2 ^ 32 - 1 ∧ s.seq ≠ .fault) ∧
    (let s : State := { inSeq .scan with total := 0xFFFFFFFE }; s.total.toNat < 2 ^ 32 - 1) ∧
    (scanned.total.toNat < 2 ^ 32 - 1 ∧ freqSum scanned.freq = scanned.total.toNat ∧
      scanned.usc.toNat = (presentSyms scanned.freq).length) :=
  ⟨by decide, by decide, by decide, packed_counts .scan rfl⟩

theorem witness_ScanPassCountsItsBytes :
    (inSeq .scan).seq = .scan ∧ (inSeq .scan).usc = 0 ∧ (inSeq .scan).total = 0 ∧
    (∀ x, tableGet (inSeq .scan).freq x = 0) ∧ ([97, 97, 98] : List Byte).length < 2 ^ 32 := by
  exact ⟨rfl, rfl, rfl, fun x => tableGet_fill 0 x, by decide⟩

/-- V4.1's third to fifth rows, each clause of the resulting array: tied children, the right one strictly smaller, a left
child only; and no child strictly smaller (the sixth). -/
theorem witness_HeapifyDownRestoresOrder :
    (OrderedFrom (queueOf [⟨5, 0⟩, ⟨4, 1⟩, ⟨4, 2⟩] 3).heap 3 1 ∧
      Swapped (queueOf [⟨5, 0⟩, ⟨4, 1⟩, ⟨4, 2⟩] 3).heap (queueOf [⟨4, 1⟩, ⟨5, 0⟩, ⟨4, 2⟩] 3).heap 0 1) ∧
    Swapped (queueOf [⟨5, 0⟩, ⟨6, 1⟩, ⟨4, 2⟩] 3).heap (queueOf [⟨4, 2⟩, ⟨6, 1⟩, ⟨5, 0⟩] 3).heap 0 2 ∧
    Swapped (queueOf [⟨5, 0⟩, ⟨4, 1⟩] 2).heap (queueOf [⟨4, 1⟩, ⟨5, 0⟩] 2).heap 0 1 ∧
    (heapAt (queueOf [⟨4, 0⟩, ⟨4, 1⟩] 2).heap 0).freq ≤ (heapAt (queueOf [⟨4, 0⟩, ⟨4, 1⟩] 2).heap 1).freq := by
  refine ⟨⟨by unfold OrderedFrom; decide, ?_⟩, ?_, ?_, by decide⟩ <;>
  · intro k
    match k with
    | 0 | 1 | 2 => rfl
    | k + 3 => rfl

theorem witness_InsertAddsOneEntry :
    ((withQueue [] 255).pq.hsize.val < 256 ∧ (withQueue [] 256).pq.hsize.val = 255 + 1 ∧
      ∀ j, heapAt (withQueue [] 256).pq.heap j = if j = 255 then ⟨0, 0⟩ else heapAt (withQueue [] 255).pq.heap j) ∧
    ((withQueue [] 256).pq.hsize.val = 256 ∧ (withQueue [] 256).seq ≠ .fault) :=
  ⟨⟨by decide, rfl, fun j => by split <;> [(subst_vars; rfl); rfl]⟩, by decide⟩

/-- V4.2's heap of six. -/
def sixHeap : State := withQueue [⟨1, 4⟩, ⟨3, 1⟩, ⟨5, 5⟩, ⟨5, 0⟩, ⟨3, 3⟩, ⟨8, 2⟩] 6

theorem sixHeap_ordered : HeapOrdered sixHeap.pq := by
  unfold HeapOrdered OrderedFrom; decide

theorem witness_InsertEqualsSiftUp : HeapOrdered sixHeap.pq ∧ sixHeap.pq.hsize.val < 256 := ⟨sixHeap_ordered, by decide⟩

theorem witness_ExtractRemovesTheMinimum :
    (∀ j, heapAt (queueOf [⟨7, 1⟩, ⟨7, 1⟩] 1).heap j = heapAt (queueOf [⟨3, 0⟩, ⟨7, 1⟩] 2).heap (if j = 0 then 1 else j)) ∧
    (HeapOrdered sixHeap.pq ∧ 0 < sixHeap.pq.hsize.val) ∧ (State.reset.pq.hsize.val = 0 ∧ State.reset.seq ≠ .fault) :=
  ⟨fun j => by match j with | 0 | 1 | _ + 2 => rfl, ⟨sixHeap_ordered, by decide⟩, by decide⟩

/-- The whole alphabet in an empty queue, the most that fits. -/
def fullLoad : State := { inSeq .load with freq := Arr.fill 256 1 }

theorem fullLoad_present : (presentSyms fullLoad.freq).length = 256 := by
  rw [show fullLoad.freq = Arr.fill 256 1 from rfl, presentSyms]
  simp only [tableGet_fill]
  decide +kernel

theorem witness_LoadInsertsTheLeaves :
    HeapOrdered fullLoad.pq ∧ fullLoad.pq.hsize.val + (presentSyms fullLoad.freq).length ≤ 256 :=
  ⟨fun _ hj => absurd hj (Nat.not_lt_zero _), by rw [fullLoad_present]; exact Nat.le_refl 256⟩

theorem witness_ExtractsFillEaAndEb : HeapOrdered sixHeap.pq ∧ 0 < sixHeap.pq.hsize.val := ⟨sixHeap_ordered, by decide⟩

theorem witness_InsCreatesTheInternalNode :
    ∀ n ∈ ([256, 510] : List NodeId),
      let s : State := { withQueue [⟨9, 0⟩] 1 with seq := .ins, nnode := n }
      256 ≤ s.nnode.toNat ∧ s.nnode.toNat ≤ 510 ∧ s.pq.hsize.val < 256 := by decide

/-- The tree of "aaabb" (P1). -/
def treeAB : HuffTree := .node 256 (.leaf 97) (.leaf 98)

theorem packed_stored : treeAB.Stored packed.arena := ⟨⟨5, rfl⟩, trivial, trivial⟩

theorem witness_TraverseWritesThePaths :
    treeAB.rootId = packed.root ∧ treeAB.Stored packed.arena ∧ treeAB.leaves.Nodup :=
  ⟨rfl, packed_stored, by decide⟩

theorem witness_SingleSymbolGetsCodeZero :
    ({ inSeq .gen with root := 255 } : State).root < 256 ∧ (inSeq .gen).root < 256 := by decide

/-- Two leaves, and one. -/
theorem witness_GenFillsTheCodeTable :
    (treeAB.rootId = packed.root ∧ treeAB.Stored packed.arena ∧ treeAB.leaves.Nodup) ∧
    ((HuffTree.leaf 97).rootId = ({ inSeq .gen with root := 97 } : State).root ∧
      (HuffTree.leaf 97).Stored (inSeq .gen).arena ∧ (HuffTree.leaf 97).leaves.Nodup) :=
  ⟨witness_TraverseWritesThePaths, rfl, trivial, by decide⟩

theorem witness_LookupFindsTheCodeOrFails :
    (tableGet packed.code 97).len ≠ 0 ∧ ((tableGet packed.code 99).len = 0 ∧ packed.seq ≠ .fault) := by decide

theorem witness_IndicesThatDoNotExistStop :
    ({ State.reset with nnode := 255 } : State).nnode.toNat < 256 ∧
    ({ State.reset with nnode := 511 } : State).nnode.toNat = 511 ∧
    ({ State.reset with root := 511 } : State).root.toNat = 511 ∧
    256 ≤ ({ State.reset with root := 256 } : State).root.toNat := by decide

theorem witness_PutBitAppendsOrEmits :
    (packing.acc.toNat < 2 ^ packing.nbits.toNat ∧ packing.nbits = 7 ∧ packing.outq.length < packing.outDepth) ∧
    (let s : State := { packing with outq := [1] }; s.nbits = 7 ∧ s.outDepth ≤ s.outq.length) ∧
    packed.nbits ≠ 7 := by decide

/-- V7.2's S_EMIT with room, full, and at the end of a code. -/
theorem witness_EmitAppendsTheNextCodeBit :
    (inSeq .emit).curLen = 0 ∧
    (let s : State := { packing with seq := .emit, curLen := 4, outq := [1] };
      s.curLen ≠ 0 ∧ s.nbits = 7 ∧ s.outDepth ≤ s.outq.length) ∧
    (let s : State := { packing with seq := .emit, curLen := 255 };
      s.curLen ≠ 0 ∧ ¬ (s.nbits = 7 ∧ s.outDepth ≤ s.outq.length)) := by decide

theorem witness_FlushPadsTheLastByte :
    (inSeq .flush).nbits = 0 ∧
    (let s : State := { inSeq .flush with nbits := 1, outq := [1] }; s.nbits ≠ 0 ∧ s.outDepth ≤ s.outq.length) ∧
    (let s : State := { inSeq .flush with nbits := 7 }; s.nbits ≠ 0 ∧ s.outq.length < s.outDepth) := by decide

theorem witness_PopTakesTheOldestByte : ({ inSeq .fault with outq := [1, 2] } : State).outq = 1 :: [2] := rfl

theorem witness_ByteAppendsItsWholeCode :
    let s : State := { packed with outDepth := 32 }
    s.seq = .pack ∧ (tableGet s.code 98).len ≠ 0 ∧ s.outq.length + 32 ≤ s.outDepth := by decide

theorem witness_PackedBytesAreTheBitsInOrder :
    packing.acc.toNat < 2 ^ packing.nbits.toNat ∧ State.reset.acc.toNat < 2 ^ State.reset.nbits.toNat := by decide

theorem witness_PopCommutesWithCore :
    let s : State := { packing with seq := .emit, curSym := 0x63, curLen := 4, outDepth := 2, outq := [1] }
    s.outq ≠ [] ∧ held s = false ∧ opOfState s.seq = some .bpEmit ∧ (after (exec .bpEmit s)).isSome = true := by
  decide

theorem witness_UndrainedOutputHoldsForEver :
    let s : State := { packing with seq := .emit, curLen := 1, outq := [1], drain := false }
    held s = true ∧ s.pqReq = .idle ∧ s.turns = [] ∧ s.drain = false ∧ s.rsp = none := by decide

theorem witness_FaultEntryWritesThreeRegisters :
    (packed.seq ≠ .fault ∧ (inSeq .fault).seq = .fault) ∧
    (let s : State := { inSeq .scan with total := 0xFFFFFFFF }; s.seq = .scan ∧ s.total.toNat = 2 ^ 32 - 1) ∧
    (packed.seq = .pack ∧ (tableGet packed.code 99).len = 0) ∧
    ((inSeq .xa).seq ≠ .fault ∧ (inSeq .xa).pq.hsize.val = 0) ∧
    (∀ n ∈ ([256, 510] : List NodeId), let s : State := { withQueue [] 256 with seq := .ins, nnode := n }
      s.seq ≠ .fault ∧ s.pq.hsize.val = 256 ∧ 256 ≤ s.nnode.toNat ∧ s.nnode.toNat ≤ 510) ∧
    (fullLoad.seq ≠ .fault ∧ 256 < ({ fullLoad with pq := queueOf [] 1 } : State).pq.hsize.val +
      (presentSyms fullLoad.freq).length) :=
  ⟨by decide, by decide, by decide, by decide, by decide, by decide, by rw [fullLoad_present]; decide⟩

theorem witness_FirstFaultIsKept :
    let s := given 0x561 (inSeq .fault)
    s.seq = .fault ∧ s.pqReq = .idle ∧ (after (step s)).isSome = true ∧ s.turns.head? ≠ some .rst ∧
      s.cmds.head? ≠ some 0x400 := by decide

/-- CORE's step, a command's and `rst` each answer. -/
theorem witness_SeqMovesOnlyAsTheTableSays :
    ([{ inSeq .emit with turns := [.core] }, given 0x100 State.reset, { packed with turns := [.rst] }] : List State).all
      (fun s => decide (s.pqReq = .idle) && (after (step s)).isSome) = true := by decide

theorem witness_TablesAreImmutableOnceMade :
    let s := given 0x261 packed
    s.pqReq = .idle ∧ (after (step s)).isSome = true ∧ s.seq ≠ .init ∧ s.seq ≠ .scan ∧ s.seq ≠ .gen := by
  decide

/-- A fault, the empty scan pass and CLEAR each change ERR. -/
theorem witness_ErrIsWrittenOnlyAsSaid :
    ([given 0x601 packed, given 0x300 (inSeq .scan), given 0x400 { inSeq .fault with err := .missingCode }] :
      List State).all (fun s => decide (s.pqReq = .idle) &&
        decide ((after (step s)).map State.err ≠ some s.err) && (after (step s)).isSome) = true := by decide

theorem witness_SelIsWrittenOnlyBySelsym :
    ([given 0x5FF packed, given 0x400 { packed with sel := 1 }] : List State).all (fun s => decide (s.pqReq = .idle) &&
      decide ((after (step s)).map State.sel ≠ some s.sel) && (after (step s)).isSome) = true := by decide

/-! ### States that meet the invariants -/

theorem packed_ordered : HeapOrdered packed.pq := by
  unfold HeapOrdered OrderedFrom; decide

theorem packed_codes (sym : Byte) : tableGet packed.code sym = treeAB.entry sym := by
  have h : tableGet packed.code sym = if sym = 98 then ⟨1, 1⟩ else if sym = 97 then ⟨1, 0⟩ else ⟨0, 0⟩ := by
    rw [show packed.code = tableSet (tableSet (Arr.fill 256 ⟨0, 0⟩) 97 ⟨1, 0⟩) 98 ⟨1, 1⟩ from rfl, tableGet_tableSet,
      tableGet_tableSet, tableGet_fill]
  rw [h]
  by_cases h8 : sym = 98
  · subst h8; rfl
  · by_cases h7 : sym = 97
    · subst h7; rfl
    · have e7 : ((97 : Byte) == sym) = false := beq_false_of_ne (Ne.symm h7)
      have e8 : ((98 : Byte) == sym) = false := beq_false_of_ne (Ne.symm h8)
      rw [if_neg h8, if_neg h7]
      simp only [treeAB, HuffTree.entry, HuffTree.paths, List.map, List.cons_append, List.nil_append, List.find?, e7, e8]

theorem packed_rootTree : IsRootTree packed treeAB where
  left := {
    roots := .of_eq (by decide)
    stored := fun t ht => by
      rw [List.mem_singleton.1 ht]
      exact ⟨packed_stored, ⟨⟨⟨5, 97, 98⟩, rfl, by decide⟩, trivial, trivial⟩, by decide, trivial, trivial⟩
    leaves := by rw [show packed.freq = countsAB from rfl, countsAB_present]; decide }
  right := rfl

/-- S_PACK of P1 meets every invariant. -/
theorem packed_runOk : RunOk packed where
  registers := ⟨by decide, by decide, by decide, by decide, by decide, by decide, rfl⟩
  heap := packed_ordered
  counts := packed_counts .pack
  build := ⟨rfl, by decide, rfl⟩
  forest := ⟨treeAB, packed_rootTree⟩
  codes := ⟨by decide, fun _ => ⟨treeAB, packed_rootTree, packed_codes⟩⟩

/-- S_EMIT of P1's first byte, with CORE's turn. -/
def emitting : State := { packed with seq := .emit, curSym := 97, curLen := 1, turns := [.core] }

theorem emitting_rootTree : IsRootTree emitting treeAB :=
  ⟨⟨packed_rootTree.left.roots, packed_rootTree.left.stored, packed_rootTree.left.leaves⟩, rfl⟩

theorem emitting_runOk : RunOk emitting where
  registers := ⟨by decide, by decide, by decide, by decide, by decide, by decide, rfl⟩
  heap := packed_ordered
  counts := packed_counts .emit
  build := ⟨rfl, by decide, rfl⟩
  forest := ⟨treeAB, emitting_rootTree⟩
  codes := ⟨by decide, fun _ => ⟨treeAB, emitting_rootTree, packed_codes⟩⟩

/-- S_XA of V5.1, with CORE's turn. -/
def building : State := { scanned with seq := .xa, pq := queueOf [⟨2, 98⟩, ⟨3, 97⟩] 2, turns := [.core] }

theorem building_runOk : RunOk building where
  registers := ⟨by decide, by decide, by decide, by decide, by decide, by decide, rfl⟩
  heap := by unfold HeapOrdered OrderedFrom; decide
  counts := packed_counts .xa
  build := ⟨by decide, by decide, rfl⟩
  forest := ⟨[.leaf 98, .leaf 97], .of_eq (by decide), fun t ht => by
    simp only [List.mem_cons, List.not_mem_nil, or_false] at ht
    rcases ht with rfl | rfl <;> exact ⟨trivial, trivial, trivial⟩, by
    rw [show building.freq = countsAB from rfl, countsAB_present]; decide⟩
  codes := ⟨fun _ sym => tableGet_fill _ sym, fun h => absurd h (by decide)⟩

theorem witness_StepKeepsRegistersOk : RegistersOk emitting ∧ (after (step emitting)).isSome = true :=
  ⟨emitting_runOk.registers, by decide⟩

/-- CORE's extraction and a request on the wires. -/
theorem witness_StepKeepsHeapOrder :
    (HeapOrdered building.pq ∧ (after (step building)).isSome = true) ∧
    (HeapOrdered sixHeap.pq ∧ (after (step { sixHeap with pqReq := .insert ⟨1, 6⟩ })).isSome = true) :=
  ⟨⟨building_runOk.heap, by decide⟩, sixHeap_ordered, by decide⟩

theorem witness_StepKeepsCounts :
    let s := given 0x263 scanned
    s.pqReq = .idle ∧ CountsOk s ∧ (after (step s)).isSome = true :=
  ⟨rfl, packed_counts .scan, by decide⟩

theorem witness_StepKeepsTheRunInvariant :
    (RunOk building ∧ (after (step building)).isSome = true) ∧ (RunOk emitting ∧ (after (step emitting)).isSome = true) :=
  ⟨⟨building_runOk, by decide⟩, emitting_runOk, by decide⟩

theorem witness_RunsNeverStopAndNeverMeetAQueueFault : RunOk building := building_runOk

theorem witness_CodesArePrefixFree : RunOk packed ∧ coded packed = true := ⟨packed_runOk, by decide⟩

theorem witness_KraftEquality : RunOk packed ∧ coded packed = true ∧ 2 ≤ packed.usc.toNat :=
  ⟨packed_runOk, by decide, by decide⟩

theorem witness_TreeHasUscLeaves : RunOk packed ∧ coded packed = true ∧ 2 ≤ packed.usc.toNat := witness_KraftEquality

theorem witness_BusySequencesEnd : ∀ s ∈ [building, emitting],
    RunOk s ∧ isBusy s.seq = true ∧ held s = false ∧ s.turns = [.core] ∧ (after (step s)).isSome = true := by
  intro s hs
  simp only [List.mem_cons, List.not_mem_nil, or_false] at hs
  rcases hs with rfl | rfl
  · exact ⟨building_runOk, by decide⟩
  · exact ⟨emitting_runOk, by decide⟩

/-- P1's S_PACK and the same with other content past NNODE and past HSIZE. -/
def packedDirty : State := { packed with
  pq := queueOf [⟨5, 256⟩, ⟨9, 9⟩] 1, arena := arrOf 255 [⟨5, 97, 98⟩, ⟨1, 2, 3⟩] ⟨7, 7, 7⟩ }

theorem witness_UnreadContentIsNeverObserved :
    RunOk packed ∧ Alike packed packedDirty ∧ packed ≠ packedDirty ∧ (after (step packed)).isSome = true :=
  ⟨packed_runOk,
    { rest := rfl, hsize := rfl, tables := fun _ => ⟨rfl, rfl⟩, heap := fun _ => by decide
      arena := fun _ n hn => by
        by_cases h : isLeaf n = true
        · rw [arenaGet_leaf _ h, arenaGet_leaf _ h]
        · have h256 : n = 256 := by
            have hn : n < 257 := hn
            simp only [isLeaf, decide_eq_true_eq] at h
            bv_omega
          subst h256; rfl },
    by decide, by decide⟩

end Sys2Proof.Machine
end

/-! PROOFS. What a step runs (00_scope.md R7, R8): one lemma per agent for the operation its turn selects, and the step
that runs it. -/
namespace Sys2Proof.Machine

/-- HOST-CMD's turn in a ready state takes the word from the port and selects the command it decodes to (R120). -/
theorem fetchTurn_hostCmd_run {s : State} {w : CmdWord} {cs : List CmdWord} {i : Instr} (hb : isBusy s.seq = false)
    (hc : s.cmds = w :: cs) (hd : decodeCmd w = .ok i) :
    fetchTurn .hostCmd s = (.run i, { s with cmds := cs }) := by
  simp [fetchTurn, fetchCmd, hb, hc, hd]

/-- CORE's turn selects the operation of SEQ (30_encoding.md R95). -/
theorem fetchTurn_core_run {s : State} {i : Instr} (hd : decodeSeq (seqCode s.seq) = .ok i) :
    fetchTurn .core s = (.run i, s) := by
  simp [fetchTurn, fetchCore, hd]

/-- HOST-OUT's turn selects OUT_POP when OUTQ is not empty (45_bit_packer.md R210). -/
theorem fetchTurn_hostOut_run {s : State} (ho : s.outq ≠ []) : fetchTurn .hostOut s = (.run .outPop, s) :=
  if_pos ((pinOutValid_iff s).2 ho)

/-- A step runs the operation the turn listed first selects. -/
theorem step_eq_exec_of_turn {s u : State} {a : Turn} {ts : List Turn} {i : Instr} (hp : s.pqReq = .idle)
    (ht : s.turns = a :: ts) (hf : fetchTurn a { s with rsp := none, turns := ts } = (.run i, u)) :
    step s = exec i u := by
  rw [step_turn hp, ht]
  simp only [List.head?_cons, Option.getD_some, List.tail_cons, hf]

/-- The default turn in terms of OUTQ (log 3). -/
theorem defaultTurn_eq (s : State) :
    defaultTurn s = if s.drain = true ∧ s.outq ≠ [] then .hostOut else if isBusy s.seq then .core else .hostCmd := by
  simp only [defaultTurn, Bool.and_eq_true, pinOutValid_iff]

/-- With no turn listed a step is the one with the default turn listed (log 3). -/
theorem step_defaultTurn {s : State} (hp : s.pqReq = .idle) (ht : s.turns = []) :
    step s = step { s with turns := [defaultTurn s] } := by
  rw [step_turn hp, step_turn (s := { s with turns := [defaultTurn s] }) hp, ht]
  rfl

/-- Settles O5: each agent's selected operation through `step_eq_exec_of_turn`, the requests through `step_request`, the
empty list of turns through `step_defaultTurn`. -/
theorem stepRunsTheSelectedOperation : Obligations.StepRunsTheSelectedOperation := by
  refine ⟨?command, ?core, ?pop, ?insert, ?extract, ?default⟩
  case command =>
    intro s w cs ts i hp ht hb hc hd
    exact step_eq_exec_of_turn hp ht (fetchTurn_hostCmd_run hb hc hd)
  case core =>
    intro s ts i hp ht hd
    exact step_eq_exec_of_turn hp ht (fetchTurn_core_run hd)
  case pop =>
    intro s ts hp ht ho
    exact step_eq_exec_of_turn hp ht (fetchTurn_hostOut_run ho)
  case insert => exact fun s e he => (step_request s).1 e he
  case extract => exact fun s he => (step_request s).2 he
  case default =>
    intro s hp ht
    rw [← defaultTurn_eq]
    exact step_defaultTurn hp ht

end Sys2Proof.Machine

/-! PROOFS. What a step can change (00_scope.md R7): the word a command decodes from, the effects of an accepted command
(40_commands.md R120 to R132) and of CORE's operations (30_encoding.md R95), each said once, and the step as one of them. -/
namespace Sys2Proof.Machine

/-! ## The word of a decoded command -/

/-- OP and ARG are the whole of a command word (R90). -/
theorem cmdWord_fields (w : CmdWord) : cmdWord (opField w) (argField w) = w :=
  (BitVec.extractLsb'_append_extractLsb'_eq_extractLsb' rfl).trans BitVec.extractLsb'_eq_self

/-- A word whose OP is n is the command word of n and its ARG. -/
theorem eq_cmdWord_of_opField {w : CmdWord} {n : Nat} (h : (opField w).toNat = n) :
    w = cmdWord (BitVec.ofNat 4 n) (argField w) := by
  rw [← h, BitVec.ofNat_toNat, BitVec.setWidth_eq, cmdWord_fields]

/-- A command without operand decodes only from ARG = 0 (R90). -/
theorem noOperand_ok {a : Byte} {i j : Instr} (h : noOperand a i = .ok j) : a = 0 ∧ j = i := by
  unfold noOperand at h
  split at h <;> cases h
  exact ⟨‹_›, rfl⟩

/-- The word a command decodes from is the one the encoder writes for it (R91). -/
theorem encode_of_decodeCmd {w : CmdWord} {i : Instr} (h : decodeCmd w = .ok i) : encode i = some (.cmd w) := by
  have plain : ∀ {n : Nat} {j : Instr}, (opField w).toNat = n → noOperand (argField w) j = .ok i →
      encode j = some (.cmd (cmdWord (BitVec.ofNat 4 n) 0)) → encode i = some (.cmd w) := by
    intro n j hn hj he
    obtain ⟨ha, rfl⟩ := noOperand_ok hj
    rw [he, ← ha, ← eq_cmdWord_of_opField hn]
  have operand : ∀ {n : Nat}, (opField w).toNat = n →
      some (Selector.cmd (cmdWord (BitVec.ofNat 4 n) (argField w))) = some (.cmd w) :=
    fun hn => congrArg (some ∘ Selector.cmd) (eq_cmdWord_of_opField hn).symm
  unfold decodeCmd at h
  split at h
  case h_1 hn => exact plain hn h rfl
  case h_2 hn => exact plain hn h rfl
  case h_3 hn => cases h; exact operand hn
  case h_4 hn => exact plain hn h rfl
  case h_5 hn => exact plain hn h rfl
  case h_6 hn => cases h; exact operand hn
  case h_7 hn => split at h <;> cases h; exact operand hn
  case h_8 hn => exact plain hn h rfl
  case h_9 hn => exact plain hn h rfl
  case h_10 hn => split at h <;> cases h; exact operand hn
  case h_11 hn => split at h <;> cases h; exact operand hn
  case h_12 => cases h

/-! ## What an accepted command can do -/

/-- Everything the acceptance of the word w in a ready state can do to the state. -/
inductive CommandEffect (w : CmdWord) (s : State) : State → Prop
  /-- NOP (R122). -/
  | nothing : CommandEffect w s s
  /-- A read (R128 to R131). -/
  | answer (v : Word32) : CommandEffect w s (respond v s)
  /-- A malformed or misplaced word (R93). -/
  | illegal : CommandEffect w s (illegalCommand w s)
  /-- ABORT, and the faults of BYTE (R126, R141, R194). -/
  | raised (k : ErrKind) (info : CmdWord) (hs : s.seq ≠ .fault) (hk : k ≠ .none ∧ k ≠ .emptyAlphabet) :
      CommandEffect w s (raise k info s)
  /-- START (R123). -/
  | start (hs : s.seq = .idle) : CommandEffect w s { s with seq := .init }
  /-- BYTE in the scan pass (R141). -/
  | count (d : Byte) (hs : s.seq = .scan) (room : totalFull s = false) : CommandEffect w s { s with
      usc := if tableGet s.freq d = 0 then s.usc + 1 else s.usc
      freq := tableSet s.freq d (tableGet s.freq d + 1)
      total := s.total + 1 }
  /-- BYTE in the pack pass (R124). -/
  | latch (d : Byte) (hs : s.seq = .pack) : CommandEffect w s (bpLatch d { s with ctOut := tableGet s.code d })
  /-- EOS of an empty scan pass (R125, R253). -/
  | emptyPass (hs : s.seq = .scan) (hu : s.usc = 0) :
      CommandEffect w s { s with err := .emptyAlphabet, seq := .done }
  /-- EOS of a scan pass with symbols (R125). -/
  | endScan (hs : s.seq = .scan) (hu : s.usc ≠ 0) : CommandEffect w s { s with seq := .load }
  /-- EOS of the pack pass (R125). -/
  | endPack (hs : s.seq = .pack) : CommandEffect w s { s with seq := .flush }
  /-- SELSYM (R127). -/
  | select (sym : Byte) (hw : w = cmdWord 0x5 sym) : CommandEffect w s { s with sel := sym }
  /-- CLEAR (R132). -/
  | clear (hw : w = 0x400) : CommandEffect w s (toReset s)

/-- An accepted word has its command's effect, or is an illegal command (R121). -/
theorem accept_effect {w : CmdWord} {ok : Bool} {legal : List SeqState} {s e t : State} (hb : isBusy s.seq = false)
    (h : accept w ok legal s e = .next t) (he : ok = true → s.seq ∈ legal → CommandEffect w s e) :
    CommandEffect w s t := by
  rcases accept_cases h with ⟨hb', -⟩ | ⟨-, hok, hl, rfl⟩ | ⟨-, -, rfl⟩
  · rw [hb] at hb'; cases hb'
  · exact he hok hl
  · exact .illegal

/-- BYTE counts in the scan pass and latches in the pack pass, or raises (R124). -/
theorem byte_effect (w : CmdWord) (d : Byte) {s : State} (hl : s.seq ∈ legalPass) :
    CommandEffect w s (if s.seq = .scan then freqInc d s else packByte d s) := by
  split
  case isTrue hs =>
    rcases freqInc_cases d s with ⟨-, e⟩ | ⟨room, e⟩ <;> rw [e]
    · exact .raised _ _ (by simp [hs]) (by decide)
    · exact .count d hs room
  case isFalse hs =>
    have hp : s.seq = .pack := by simpa [legalPass, hs] using hl
    rcases packByte_cases d s with ⟨-, e⟩ | ⟨-, e⟩ <;> rw [e]
    · exact .raised _ _ (by simp [hp]) (by decide)
    · exact .latch d hp

/-- EOS ends the scan pass, with or without symbols, or the pack pass (R125). -/
theorem eos_effect (w : CmdWord) {s : State} (hl : s.seq ∈ legalPass) :
    CommandEffect w s (if s.seq = .scan then endScan s else { s with seq := .flush }) := by
  split
  case isTrue hs =>
    unfold endScan
    split
    · exact .emptyPass hs ‹_›
    · exact .endScan hs ‹_›
  case isFalse hs => exact .endPack (by simpa [legalPass, hs] using hl)

/-- ABORT k raises the kind it names (R126). -/
theorem abort_effect (w info : CmdWord) {k : Byte} {s : State} (hk : (abortKind k).isSome = true)
    (hl : s.seq ∈ legalAbort) : CommandEffect w s (raise ((abortKind k).getD .none) info s) := by
  refine .raised _ _ (fun hs => by simp [hs, legalAbort] at hl) ?_
  unfold abortKind at hk ⊢
  split <;> simp_all

/-- A command accepted in a ready state does one of the effects above. -/
theorem exec_commandEffect {w : CmdWord} {i : Instr} {s t : State} (hb : isBusy s.seq = false)
    (hd : decodeCmd w = .ok i) (h : exec i s = .next t) : CommandEffect w s t := by
  have hw := encode_of_decodeCmd hd
  cases i with
  | nop => cases hw; exact accept_effect hb h fun _ _ => .nothing
  | start => cases hw; exact accept_effect hb h fun _ hl => .start (by simpa [legalStart] using hl)
  | byte d => cases hw; exact accept_effect hb h fun _ hl => byte_effect _ d hl
  | eos => cases hw; exact accept_effect hb h fun _ hl => eos_effect _ hl
  | clear => cases hw; exact accept_effect hb h fun _ _ => .clear rfl
  | selsym x => cases hw; exact accept_effect hb h fun _ _ => .select x rfl
  | abort k => cases hw; exact accept_effect hb h fun hk hl => abort_effect _ _ hk hl
  | rdfreq => cases hw; exact accept_effect hb h fun _ _ => .answer _
  | rdlen => cases hw; exact accept_effect hb h fun _ _ => .answer _
  | rdcode x => cases hw; exact accept_effect hb h fun _ _ => .answer _
  | rdreg x => cases hw; exact accept_effect hb h fun _ _ => .answer _
  | _ => cases hw

/-! ## What CORE can do -/

/-- Everything CORE's step in a busy state can do to the state. -/
inductive CoreEffect (s : State) : State → Prop
  /-- BP_EMIT and BP_FLUSH held by a full OUTQ (R208, R209). -/
  | hold : CoreEffect s s
  /-- INIT (R140). -/
  | init (hs : s.seq = .init) : CoreEffect s { s with
      freq := Arr.fill 256 0, code := Arr.fill 256 ⟨0, 0⟩
      usc := 0, total := 0, pq := { s.pq with hsize := 0 }, nnode := 256, root := 0
      ea := ⟨0, 0⟩, eb := ⟨0, 0⟩, curSym := 0, curLen := 0, acc := 0, nbits := 0
      seq := .scan }
  /-- TB_LOAD (R171). -/
  | load (q : Queue) (hs : s.seq = .load) (hq : loadLeaves 0 s.freq.cells s.pq = .ok q) :
      CoreEffect s { s with pq := q, seq := mergeOrRoot q }
  /-- TB_XA (R172). -/
  | extractA (q : Queue) (hs : s.seq = .xa) (hq : pqExtractMin s.pq = .ok (heapAt s.pq.heap 0, q)) :
      CoreEffect s { s with pq := q, pqOut := heapAt s.pq.heap 0, ea := heapAt s.pq.heap 0, seq := .xb }
  /-- TB_XB (R173). -/
  | extractB (q : Queue) (hs : s.seq = .xb) (hq : pqExtractMin s.pq = .ok (heapAt s.pq.heap 0, q)) :
      CoreEffect s { s with pq := q, pqOut := heapAt s.pq.heap 0, eb := heapAt s.pq.heap 0, seq := .ins }
  /-- TB_INS (R174). -/
  | insert (a : Arr Node 255) (q : Queue) (hs : s.seq = .ins)
      (ha : arenaSet s.arena s.nnode (mergedNode s) = .ok a) (hq : pqInsert ⟨mergedFreq s, s.nnode⟩ s.pq = .ok q) :
      CoreEffect s { s with arena := a, pq := q, nnode := s.nnode + 1, seq := mergeOrRoot q }
  /-- The Tree Builder's queue faults (R158, R257, R258). -/
  | queueFault (k : ErrKind) (hs : stage s.seq = 2) (hk : k = .queueEmpty ∨ k = .queueFull) :
      CoreEffect s (raise k 0 s)
  /-- TB_ROOT (R175). -/
  | root (hs : s.seq = .root) : CoreEffect s { s with root := (heapAt s.pq.heap 0).node, seq := .gen }
  /-- CG_GEN (R191). -/
  | generate (c : Arr CodeEntry 256) (hs : s.seq = .gen) (hc : genCode s = .ok c) :
      CoreEffect s { s with seq := .pack, code := c }
  /-- BP_EMIT with the whole code appended (R208). -/
  | emitted (hs : s.seq = .emit) (hl : s.curLen = 0) : CoreEffect s { s with seq := .pack }
  /-- BP_EMIT of one bit (R208). -/
  | emitBit (hs : s.seq = .emit) (hl : s.curLen ≠ 0) (room : putHeld s = false) : CoreEffect s
      { putBit (codeBit (tableGet s.code s.curSym).bits s.curLen) s with curLen := s.curLen - 1 }
  /-- BP_FLUSH with no bit pending (R209). -/
  | flushed (hs : s.seq = .flush) (hn : s.nbits = 0) : CoreEffect s { s with seq := .done }
  /-- BP_FLUSH of the bits pending (R209). -/
  | flushByte (hs : s.seq = .flush) (hn : s.nbits ≠ 0) (room : outFull s = false) : CoreEffect s
      { s with outq := s.outq ++ [Machine.flushByte s], acc := 0, nbits := 0, seq := .done }

/-- Loading the leaves raises no kind but QueueFull. -/
theorem loadLeaves_error {n : Nat} {l : List Word32} {q : Queue} {k : ErrKind} (h : loadLeaves n l q = .error k) :
    k = .queueFull := by
  induction l generalizing n q with
  | nil => cases h
  | cons f rest ih =>
    simp only [loadLeaves] at h
    split at h
    · exact ih h
    · split at h
      · exact ih h
      next hk => cases h; exact (pqInsert_error hk).1

/-- CORE's operation of a busy state does one of the effects above. -/
theorem exec_coreEffect {i : Instr} {s t : State} (hi : opOfState s.seq = some i) (h : exec i s = .next t) :
    CoreEffect s t := by
  cases hs : s.seq <;> rw [hs] at hi <;> cases hi
  case init => cases h; exact .init hs
  case load =>
    rcases execTbLoad_cases s with ⟨q, hq, e⟩ | ⟨k, hk, e⟩ <;> cases e.symm.trans h
    · exact .load q hs hq
    · exact .queueFault k (by rw [hs]; rfl) (.inr (loadLeaves_error hk))
  case xa =>
    rcases execTbXa_cases s with ⟨q, hq, e⟩ | ⟨-, e⟩ <;> cases e.symm.trans h
    · exact .extractA q hs hq
    · exact .queueFault _ (by rw [hs]; rfl) (.inl rfl)
  case xb =>
    rcases execTbXb_cases s with ⟨q, hq, e⟩ | ⟨-, e⟩ <;> cases e.symm.trans h
    · exact .extractB q hs hq
    · exact .queueFault _ (by rw [hs]; rfl) (.inl rfl)
  case ins =>
    rcases execTbIns_cases s with ⟨a, q, ha, hq, e⟩ | ⟨-, e⟩ | ⟨f, -, e⟩ <;> cases e.symm.trans h
    · exact .insert a q hs ha hq
    · exact .queueFault _ (by rw [hs]; rfl) (.inr rfl)
  case root => cases h; exact .root hs
  case gen =>
    obtain ⟨c, hc, rfl⟩ := putCode_cases h
    exact .generate c hs hc
  case emit =>
    rcases bpEmit_cases s with ⟨hl, e⟩ | ⟨-, -, e⟩ | ⟨hl, room, e⟩ <;> cases e.symm.trans h
    · exact .emitted hs hl
    · exact .hold
    · exact .emitBit hs hl room
  case flush =>
    rcases bpFlush_cases s with ⟨hn, e⟩ | ⟨-, -, e⟩ | ⟨hn, room, e⟩ <;> cases e.symm.trans h
    · exact .flushed hs hn
    · exact .hold
    · exact .flushByte hs hn room

/-! ## What a step can do -/

/-- The state a step works on: the response port cleared and the turn taken from the list (R94; log 3). -/
def begun (s : State) : State := { s with rsp := none, turns := s.turns.tail }

/-- Everything a step can do: `rst`, a command word accepted, CORE's operation, OUT_POP, or nothing. -/
inductive StepEffect (s : State) : State → Prop
  | reset (ht : s.turns.head? = some .rst) : StepEffect s (toReset (begun s))
  | wait : StepEffect s (begun s)
  | command {w : CmdWord} {cs : List CmdWord} {t : State} (hb : isBusy s.seq = false) (hc : s.cmds = w :: cs)
      (he : CommandEffect w { begun s with cmds := cs } t) : StepEffect s t
  | core {t : State} (he : CoreEffect (begun s) t) : StepEffect s t
  | pop {b : Byte} {rest : List Byte} (ho : s.outq = b :: rest) :
      StepEffect s { begun s with outq := rest, popped := s.popped ++ [b] }

/-- Every step with no request on the queue's wires is one of these (R7, R8). -/
theorem step_effect {s t : State} (hp : s.pqReq = .idle) (h : step s = .next t) : StepEffect s t := by
  rcases step_cases hp h with ⟨ht, rfl⟩ | rfl | ⟨hb, w, cs, hc, hx⟩ | ⟨i, hi, hx⟩ | ⟨ho, hx⟩
  · exact .reset ht
  · exact .wait
  · refine .command hb hc ?_
    rcases hx with ⟨-, rfl⟩ | ⟨i, hd, hx⟩
    · exact .illegal
    · exact exec_commandEffect (s := { begun s with cmds := cs }) hb hd hx
  · exact .core (exec_coreEffect (s := begun s) hi hx)
  · obtain ⟨b, rest, hq⟩ := List.exists_cons_of_ne_nil ho
    cases (outPop_cons (s := begun s) hq).symm.trans hx
    exact .pop hq

end Sys2Proof.Machine

/-! PROOFS. Every step keeps the registers in their ranges and in step with SEQ (10_state.md R22, R23, R31, R32, R38). -/
namespace Sys2Proof.Machine

/-- The builder goes on with another merge or with the root, not in S_FAULT (R171, R174). -/
theorem mergeOrRoot_ne_fault (q : Queue) : mergeOrRoot q ≠ .fault := by
  unfold mergeOrRoot
  split <;> simp

/-- OUTQ that is not full has room for one byte (R38). -/
theorem room_of_not_outFull {s : State} (h : outFull s = false) : s.outq.length < s.outDepth := by
  simpa [outFull] using h

/-- One bit appended leaves ACC below 2^NBITS (R32). -/
theorem putBit_acc_lt (b : Bool) {s : State} (h : s.acc.toNat < 2 ^ s.nbits.toNat) :
    (putBit b s).acc.toNat < 2 ^ (putBit b s).nbits.toNat := by
  by_cases h7 : s.nbits = 7
  · rw [putBit_full b h7]; exact Nat.zero_lt_one
  · have hn : s.nbits.toNat < 7 := by bv_omega
    have hn' : (s.nbits + 1).toNat = s.nbits.toNat + 1 := by bv_omega
    have hacc : s.acc.toNat < 2 ^ 7 := h.trans (Nat.pow_lt_pow_right (by decide) hn)
    have hb : b.toNat < 2 := Bool.toNat_lt b
    rw [putBit_room b h7]
    simp only [shiftIn_toNat b s.acc hacc, hn', Nat.pow_succ]
    omega

/-- One bit appended where it is not held leaves OUTQ within its capacity (R38). -/
theorem putBit_outq_le (b : Bool) {s : State} (h : s.outq.length ≤ s.outDepth) (room : putHeld s = false) :
    (putBit b s).outq.length ≤ s.outDepth := by
  by_cases h7 : s.nbits = 7
  · have := room_of_not_outFull (s := s) (by simpa [putHeld, h7] using room)
    rw [putBit_full b h7]
    simpa using this
  · rw [putBit_room b h7]; exact h

namespace RegistersOk

variable {s t : State}

/-- In a state that is neither S_FAULT nor S_DONE, ERRINFO is 0 and ERR is none. -/
theorem noError (h : RegistersOk s) (hf : s.seq ≠ .fault) (hd : s.seq ≠ .done) : s.errInfo = 0 ∧ s.err = .none :=
  ⟨(h.okErr hf).1, (h.okErr hf).2.resolve_right fun e => hd e.2⟩

/-- A step that leaves SEQ alone and writes none of these registers. -/
theorem keep (h : RegistersOk s) (same : (t.seq, t.err, t.errInfo, t.acc, t.nbits, t.curLen, t.outDepth, t.pqReq) =
    (s.seq, s.err, s.errInfo, s.acc, s.nbits, s.curLen, s.outDepth, s.pqReq)) (outq : t.outq.length ≤ s.outq.length) :
    RegistersOk t := by
  simp only [Prod.mk.injEq] at same
  obtain ⟨hseq, herr, hinfo, hacc, hnbits, hcur, hdepth, hreq⟩ := same
  exact ⟨hdepth ▸ h.depth, hdepth ▸ outq.trans h.outq, by rw [hacc, hnbits]; exact h.acc,
    by rw [hseq, hcur]; exact h.curLen, by rw [hseq, herr]; exact h.faultErr,
    by rw [hseq, herr, hinfo]; exact h.okErr, hreq.trans h.wires⟩

/-- A step of a run: with no error before it, ERR and ERRINFO stay none and 0; the packer's registers and OUTQ stay in
their ranges by what the step does to them. -/
theorem advance {q : SeqState} (h : RegistersOk s) (hs : s.seq = q) (hq : q ≠ .fault ∧ q ≠ .done)
    (ht : t.seq ≠ .fault) (same : (t.err, t.errInfo, t.outDepth, t.pqReq) = (s.err, s.errInfo, s.outDepth, s.pqReq))
    (outq : t.outq.length ≤ s.outDepth) (acc : t.acc.toNat < 2 ^ t.nbits.toNat)
    (curLen : t.seq ≠ .emit → t.curLen = 0) : RegistersOk t := by
  simp only [Prod.mk.injEq] at same
  obtain ⟨herr, hinfo, hdepth, hreq⟩ := same
  obtain ⟨h0, hnone⟩ := h.noError (hs ▸ hq.1) (hs ▸ hq.2)
  exact ⟨hdepth ▸ h.depth, hdepth ▸ outq, acc, curLen, fun e => absurd e ht,
    fun _ => ⟨hinfo.trans h0, .inl (herr.trans hnone)⟩, hreq.trans h.wires⟩

/-- A step of a run outside S_EMIT that moves SEQ on and writes no other of these registers. -/
theorem moveOn {q : SeqState} (h : RegistersOk s) (hs : s.seq = q) (hq : q ≠ .fault ∧ q ≠ .done ∧ q ≠ .emit)
    (ht : t.seq ≠ .fault) (same : (t.err, t.errInfo, t.outDepth, t.pqReq) = (s.err, s.errInfo, s.outDepth, s.pqReq))
    (packer : (t.outq, t.acc, t.nbits, t.curLen) = (s.outq, s.acc, s.nbits, s.curLen)) : RegistersOk t := by
  simp only [Prod.mk.injEq] at packer
  obtain ⟨houtq, hacc, hnbits, hcur⟩ := packer
  exact h.advance hs ⟨hq.1, hq.2.1⟩ ht same (houtq ▸ h.outq) (by rw [hacc, hnbits]; exact h.acc)
    fun _ => hcur.trans (h.curLen (hs ▸ hq.2.2))

/-- The fault entry outside S_EMIT with the kind of a fault (R260). -/
theorem raise (h : RegistersOk s) {k : ErrKind} (info : CmdWord) (he : s.seq ≠ .emit)
    (hk : k ≠ .none ∧ k ≠ .emptyAlphabet) : RegistersOk (raise k info s) := by
  by_cases hf : s.seq = .fault
  · rwa [raise_fault s k info hf]
  · rw [raise_eq s k info hf]
    exact ⟨h.depth, h.outq, h.acc, fun _ => h.curLen he, fun _ => hk, fun e => absurd rfl e, h.wires⟩

/-- A malformed or misplaced word in a ready state (R93). -/
theorem illegalCommand (h : RegistersOk s) (w : CmdWord) (he : s.seq ≠ .emit) : RegistersOk (illegalCommand w s) :=
  (h.raise (k := .illegalCommand) w he (by decide)).keep (t := Machine.illegalCommand w s)
    (by simp [Machine.illegalCommand]) (by simp [Machine.illegalCommand])

/-- Reset and CLEAR (R280, R132). -/
theorem toReset (h : RegistersOk s) : RegistersOk (toReset s) :=
  ⟨h.depth, Nat.zero_le _, Nat.zero_lt_one, fun _ => rfl, nofun, fun _ => ⟨rfl, .inl rfl⟩, h.wires⟩

/-- A command accepted in a ready state keeps the registers. -/
theorem command (h : RegistersOk s) {w : CmdWord} (hb : isBusy s.seq = false) (he : CommandEffect w s t) :
    RegistersOk t := by
  have hemit : s.seq ≠ .emit := fun e => by rw [e] at hb; cases hb
  cases he with
  | nothing => exact h
  | answer v => exact h.keep rfl le_rfl
  | illegal => exact h.illegalCommand w hemit
  | raised k info hs hk => exact h.raise info hemit hk
  | start hs => exact h.moveOn hs (by decide) nofun rfl rfl
  | count d hs room => exact h.keep rfl le_rfl
  | latch d hs => exact h.advance hs (by decide) nofun rfl h.outq h.acc fun e => absurd rfl e
  | emptyPass hs hu =>
    have h0 := (h.okErr (by simp [hs])).1
    exact ⟨h.depth, h.outq, h.acc, fun _ => h.curLen hemit, nofun, fun _ => ⟨h0, .inr ⟨rfl, rfl⟩⟩, h.wires⟩
  | endScan hs hu => exact h.moveOn hs (by decide) nofun rfl rfl
  | endPack hs => exact h.moveOn hs (by decide) nofun rfl rfl
  | select sym hw => exact h.keep rfl le_rfl
  | clear hw => exact h.toReset

/-- CORE's operation keeps the registers. -/
theorem core (h : RegistersOk s) (he : CoreEffect s t) : RegistersOk t := by
  cases he with
  | hold => exact h
  | init hs => exact h.advance hs (by decide) nofun rfl h.outq Nat.zero_lt_one fun _ => rfl
  | load q hs hq => exact h.moveOn hs (by decide) (mergeOrRoot_ne_fault q) rfl rfl
  | extractA q hs hq => exact h.moveOn hs (by decide) nofun rfl rfl
  | extractB q hs hq => exact h.moveOn hs (by decide) nofun rfl rfl
  | insert a q hs ha hq => exact h.moveOn hs (by decide) (mergeOrRoot_ne_fault q) rfl rfl
  | queueFault k hs hk => exact h.raise 0 (fun e => by simp [e, stage] at hs) (by rcases hk with rfl | rfl <;> decide)
  | root hs => exact h.moveOn hs (by decide) nofun rfl rfl
  | generate c hs hc => exact h.moveOn hs (by decide) nofun rfl rfl
  | emitted hs hl => exact h.advance hs (by decide) nofun rfl h.outq h.acc fun _ => hl
  | emitBit hs hl room =>
    exact h.advance hs (by decide) (by simp [hs]) (by simp) (putBit_outq_le _ h.outq room) (putBit_acc_lt _ h.acc)
      fun e => by simp [hs] at e
  | flushed hs hn => exact h.moveOn hs (by decide) nofun rfl rfl
  | flushByte hs hn room =>
    exact h.advance hs (by decide) nofun rfl (by simpa using room_of_not_outFull room) Nat.zero_lt_one
      fun _ => h.curLen (by simp [hs])

/-- A step keeps the registers. -/
theorem step (h : RegistersOk s) (he : StepEffect s t) : RegistersOk t := by
  have hbegun : RegistersOk (begun s) := h.keep rfl le_rfl
  cases he with
  | reset ht => exact hbegun.toReset
  | wait => exact hbegun
  | @command w cs _ hb hc he =>
    have htaken : RegistersOk { begun s with cmds := cs } := hbegun.keep rfl le_rfl
    exact htaken.command hb he
  | core he => exact hbegun.core he
  | pop ho => exact h.keep rfl (by rw [ho]; exact Nat.le_succ _)

end RegistersOk

/-- Settles O50: with no request on the wires a step is one of `StepEffect`, and each keeps the registers. -/
theorem stepKeepsRegistersOk : Obligations.StepKeepsRegistersOk :=
  fun _ _ h hstep => h.step (step_effect h.wires hstep)

end Sys2Proof.Machine

/-! PROOFS. Every step keeps the counts: the sum of FREQ and the number of symbols present (10_state.md R34,
41_frequency_scanner.md R140 to R143). -/
namespace Sys2Proof.Machine

/-! ## The sum of a table of counts -/

/-- A table's sum is what lies before, at and after one entry. -/
theorem freqSum_split (a : Arr Word32 256) (d : Byte) :
    freqSum a = ((a.cells.map BitVec.toNat).take d.toNat).sum + (tableGet a d).toNat +
      ((a.cells.map BitVec.toNat).drop (d.toNat + 1)).sum := by
  have hd : d.toNat < (a.cells.map BitVec.toNat).length := by rw [List.length_map, a.size]; exact d.isLt
  rw [freqSum, ← List.sum_take_add_sum_drop _ d.toNat, List.drop_eq_getElem_cons hd, List.sum_cons, ← Nat.add_assoc]
  simp only [tableGet, List.getElem_map]

/-- Writing one entry exchanges that entry's count in the sum. -/
theorem freqSum_tableSet (a : Arr Word32 256) (d : Byte) (x : Word32) :
    freqSum (tableSet a d x) + (tableGet a d).toNat = freqSum a + x.toNat := by
  have hset : freqSum (tableSet a d x) = ((a.cells.map BitVec.toNat).take d.toNat).sum + x.toNat +
      ((a.cells.map BitVec.toNat).drop (d.toNat + 1)).sum := by
    rw [freqSum, tableSet, List.map_set, List.sum_set, if_pos (by rw [List.length_map, a.size]; exact d.isLt)]
  have := freqSum_split a d
  omega

/-- No count is above the sum. -/
theorem tableGet_le_freqSum (a : Arr Word32 256) (d : Byte) : (tableGet a d).toNat ≤ freqSum a := by
  have := freqSum_split a d
  omega

/-- The cleared table sums to 0 (R140). -/
theorem freqSum_fill_zero : freqSum (Arr.fill 256 0) = 0 := by
  rw [freqSum, fill_cells, List.map_replicate, List.sum_replicate]
  rfl

/-! ## The symbols present -/

theorem mem_presentSyms {a : Arr Word32 256} {s : Byte} : s ∈ presentSyms a ↔ tableGet a s ≠ 0 := by
  have hs : s ∈ (List.range 256).map (BitVec.ofNat 8) :=
    List.mem_map.2 ⟨s.toNat, List.mem_range.2 s.isLt, by simp⟩
  simp [presentSyms, List.mem_filter, hs, -List.mem_map]

theorem nodup_presentSyms (a : Arr Word32 256) : (presentSyms a).Nodup := by
  refine List.Nodup.filter _ (List.Nodup.map_on (fun x hx y hy e => ?_) List.nodup_range)
  have hx' := List.mem_range.1 hx
  have hy' := List.mem_range.1 hy
  have := congrArg BitVec.toNat e
  simp only [BitVec.toNat_ofNat] at this
  omega

theorem length_presentSyms_le (a : Arr Word32 256) : (presentSyms a).length ≤ 256 :=
  (List.length_filter_le _ _).trans (by simp)

/-- No symbol is present in the cleared table (R140). -/
theorem presentSyms_fill_zero : presentSyms (Arr.fill 256 0) = [] :=
  List.eq_nil_iff_forall_not_mem.2 fun s => by simp [mem_presentSyms]

/-- Counting a symbol that is present leaves the symbols present as they are. -/
theorem length_presentSyms_tableSet_old {a : Arr Word32 256} {d : Byte} {x : Word32} (hd : tableGet a d ≠ 0)
    (hx : x ≠ 0) : (presentSyms (tableSet a d x)).length = (presentSyms a).length := by
  refine List.Perm.length_eq ((List.perm_ext_iff_of_nodup (nodup_presentSyms _) (nodup_presentSyms _)).2 fun s => ?_)
  rw [mem_presentSyms, mem_presentSyms, tableGet_tableSet]
  split
  · next e => subst e; exact iff_of_true hx hd
  · rfl

/-- Counting a symbol for the first time adds it to the symbols present. -/
theorem length_presentSyms_tableSet_new {a : Arr Word32 256} {d : Byte} {x : Word32} (hd : tableGet a d = 0)
    (hx : x ≠ 0) : (presentSyms (tableSet a d x)).length = (presentSyms a).length + 1 := by
  have hnew : (d :: presentSyms a).Nodup :=
    List.nodup_cons.2 ⟨fun h => mem_presentSyms.1 h hd, nodup_presentSyms a⟩
  refine List.Perm.length_eq ((List.perm_ext_iff_of_nodup (nodup_presentSyms _) hnew).2 fun s => ?_)
  rw [List.mem_cons, mem_presentSyms, mem_presentSyms, tableGet_tableSet]
  split <;> simp_all

/-! ## The steps -/

namespace CountsOk

variable {s t : State}

/-- A step that leaves the counts alone and does not enter the run. -/
theorem keep (h : CountsOk s) (same : (t.freq, t.usc, t.total) = (s.freq, s.usc, s.total))
    (hrun : inRun t.seq = true → inRun s.seq = true) : CountsOk t := by
  simp only [Prod.mk.injEq] at same
  obtain ⟨hfreq, husc, htotal⟩ := same
  unfold CountsOk
  rw [hfreq, husc, htotal]
  exact fun hr => h (hrun hr)

/-- Outside a run nothing is asked of the counts. -/
theorem of_not_inRun (h : inRun s.seq = false) : CountsOk s := fun hr => by rw [h] at hr; cases hr

/-- INIT starts with no byte counted (R140). -/
theorem of_cleared (hf : s.freq = Arr.fill 256 0) (ht : s.total = 0) (hu : s.usc = 0) : CountsOk s := by
  intro _
  rw [hf, ht, hu, freqSum_fill_zero, presentSyms_fill_zero]
  exact ⟨rfl, rfl⟩

/-- FREQ_INC of a symbol below the limit counts one byte, and one symbol if it is new; no addition wraps (R141). -/
theorem count (h : CountsOk s) (hs : s.seq = .scan) (d : Byte) (room : totalFull s = false) : CountsOk { s with
    usc := if tableGet s.freq d = 0 then s.usc + 1 else s.usc
    freq := tableSet s.freq d (tableGet s.freq d + 1)
    total := s.total + 1 } := by
  intro _
  obtain ⟨hsum, husc⟩ := h (by rw [hs]; rfl)
  have htotal : s.total.toNat < 2 ^ 32 - 1 := by
    have : s.total ≠ 0xFFFFFFFF := by simpa [totalFull] using room
    bv_omega
  have hle := tableGet_le_freqSum s.freq d
  have hinc : (tableGet s.freq d + 1).toNat = (tableGet s.freq d).toNat + 1 := by bv_omega
  have hnz : tableGet s.freq d + 1 ≠ 0 := fun e => by rw [e] at hinc; simp at hinc
  constructor
  · have := freqSum_tableSet s.freq d (tableGet s.freq d + 1)
    have : (s.total + 1).toNat = s.total.toNat + 1 := by bv_omega
    simp only
    omega
  · have hcap := length_presentSyms_le s.freq
    by_cases hd : tableGet s.freq d = 0
    · have : (s.usc + 1).toNat = s.usc.toNat + 1 := by bv_omega
      simp only [if_pos hd, length_presentSyms_tableSet_new hd hnz]
      omega
    · simp only [if_neg hd, length_presentSyms_tableSet_old hd hnz]
      exact husc

/-- A command accepted in a ready state keeps the counts. -/
theorem command (h : CountsOk s) {w : CmdWord} (he : CommandEffect w s t) : CountsOk t := by
  cases he with
  | nothing => exact h
  | answer v => exact h.keep rfl id
  | illegal => exact of_not_inRun (by simp [inRun])
  | raised k info hs hk => exact of_not_inRun (by simp [inRun])
  | start hs => exact of_not_inRun rfl
  | count d hs room => exact h.count hs d room
  | latch d hs => exact h.keep rfl fun _ => by rw [hs]; rfl
  | emptyPass hs hu => exact h.keep rfl fun _ => by rw [hs]; rfl
  | endScan hs hu => exact h.keep rfl fun _ => by rw [hs]; rfl
  | endPack hs => exact h.keep rfl fun _ => by rw [hs]; rfl
  | select sym hw => exact h.keep rfl id
  | clear hw => exact of_not_inRun rfl

/-- CORE's operation keeps the counts. -/
theorem core (h : CountsOk s) (he : CoreEffect s t) : CountsOk t := by
  cases he with
  | hold => exact h
  | init hs => exact of_cleared rfl rfl rfl
  | queueFault k hs hk => exact of_not_inRun (by simp [inRun])
  | emitBit hs hl room => exact h.keep (by simp) fun _ => by rw [hs]; rfl
  | load q hs hq => exact h.keep rfl fun _ => by rw [hs]; rfl
  | extractA q hs hq => exact h.keep rfl fun _ => by rw [hs]; rfl
  | extractB q hs hq => exact h.keep rfl fun _ => by rw [hs]; rfl
  | insert a q hs ha hq => exact h.keep rfl fun _ => by rw [hs]; rfl
  | root hs => exact h.keep rfl fun _ => by rw [hs]; rfl
  | generate c hs hc => exact h.keep rfl fun _ => by rw [hs]; rfl
  | emitted hs hl => exact h.keep rfl fun _ => by rw [hs]; rfl
  | flushed hs hn => exact h.keep rfl fun _ => by rw [hs]; rfl
  | flushByte hs hn room => exact h.keep rfl fun _ => by rw [hs]; rfl

/-- A step keeps the counts. -/
theorem step (h : CountsOk s) (he : StepEffect s t) : CountsOk t := by
  have hbegun : CountsOk (begun s) := h.keep rfl id
  cases he with
  | reset ht => exact of_not_inRun rfl
  | wait => exact hbegun
  | @command w cs _ hb hc he =>
    have htaken : CountsOk { begun s with cmds := cs } := hbegun.keep rfl id
    exact htaken.command he
  | core he => exact hbegun.core he
  | pop ho => exact h.keep rfl id

end CountsOk

/-- Settles O52: of the effects a step can have only INIT and FREQ_INC write the counts, and both keep them. -/
theorem stepKeepsCounts : Obligations.StepKeepsCounts :=
  fun _ _ hp h hstep => h.step (step_effect hp hstep)

end Sys2Proof.Machine

/-! PROOFS. Who writes ERR and SEL (10_state.md R22, R24). -/
namespace Sys2Proof.Machine

section

variable {s t : State}

/-- An illegal command leaves ERR alone in S_FAULT and enters S_FAULT otherwise (R93). -/
theorem illegalCommand_err (w : CmdWord) (s : State) : (illegalCommand w s).err = s.err ∨ s.seq ≠ .fault := by
  by_cases hs : s.seq = .fault
  · exact .inl (by rw [illegalCommand_fault s w hs])
  · exact .inr hs

/-- A command writes ERR only as a fault entry, as EOS of an empty scan pass, or as CLEAR. -/
theorem commandEffect_err {w : CmdWord} (he : CommandEffect w s t) :
    t.err = s.err ∨ (s.seq ≠ .fault ∧ t.seq = .fault) ∨
    (s.seq = .scan ∧ s.usc = 0 ∧ t.seq = .done ∧ t.err = .emptyAlphabet) ∨
    (w = 0x400 ∧ t.seq = .idle ∧ t.err = .none) := by
  cases he with
  | illegal => exact (illegalCommand_err w s).imp_right fun hs => .inl ⟨hs, by simp⟩
  | raised k info hs hk => exact .inr (.inl ⟨hs, by simp⟩)
  | emptyPass hs hu => exact .inr (.inr (.inl ⟨hs, hu, rfl, rfl⟩))
  | clear hw => exact .inr (.inr (.inr ⟨hw, rfl, rfl⟩))
  | _ => exact .inl rfl

/-- CORE writes ERR only as a fault entry. -/
theorem coreEffect_err (he : CoreEffect s t) : t.err = s.err ∨ (s.seq ≠ .fault ∧ t.seq = .fault) := by
  cases he with
  | queueFault k hs hk => exact .inr ⟨fun e => by simp [e, stage] at hs, by simp⟩
  | emitBit hs hl room => exact .inl (by simp)
  | _ => exact .inl rfl

/-- A command writes SEL only as SELSYM or CLEAR. -/
theorem commandEffect_sel {w : CmdWord} (he : CommandEffect w s t) :
    t.sel = s.sel ∨ (w = cmdWord 0x5 t.sel ∧ t.seq = s.seq) ∨ (w = 0x400 ∧ t.seq = .idle ∧ t.sel = 0) := by
  cases he with
  | illegal => exact .inl (by simp)
  | raised k info hs hk => exact .inl (by simp)
  | select sym hw => exact .inr (.inl ⟨hw, rfl⟩)
  | clear hw => exact .inr (.inr ⟨hw, rfl, rfl⟩)
  | _ => exact .inl rfl

/-- CORE never writes SEL. -/
theorem coreEffect_sel (he : CoreEffect s t) : t.sel = s.sel := by
  cases he with
  | queueFault k hs hk => simp
  | emitBit hs hl room => simp
  | _ => rfl

end

/-- Settles O47: each effect of a step writes ERR as the statement says, or not at all. -/
theorem errIsWrittenOnlyAsSaid : Obligations.ErrIsWrittenOnlyAsSaid := by
  intro s t hp hstep hne
  cases step_effect hp hstep with
  | reset ht => exact .inr (.inr ⟨.inl ht, rfl, rfl⟩)
  | wait => exact absurd rfl hne
  | command hb hc he =>
    rcases commandEffect_err he with e | hfault | hempty | ⟨rfl, hclear⟩
    · exact absurd e hne
    · exact .inl hfault
    · exact .inr (.inl hempty)
    · exact .inr (.inr ⟨.inr (by rw [hc]; rfl), hclear⟩)
  | core he => exact (coreEffect_err he).elim (fun e => absurd e hne) .inl
  | pop ho => exact absurd rfl hne

/-- Settles O48: only SELSYM, CLEAR and `rst` write SEL. -/
theorem selIsWrittenOnlyBySelsym : Obligations.SelIsWrittenOnlyBySelsym := by
  intro s t hp hstep hne
  cases step_effect hp hstep with
  | reset ht => exact .inr ⟨.inl ht, rfl, rfl⟩
  | wait => exact absurd rfl hne
  | command hb hc he =>
    rcases commandEffect_sel he with e | ⟨rfl, hseq⟩ | ⟨rfl, hclear⟩
    · exact absurd e hne
    · exact .inl ⟨_, hc, hb, hseq⟩
    · exact .inr ⟨.inr (by rw [hc]; rfl), hclear⟩
  | core he => exact absurd (coreEffect_sel he) hne
  | pop ho => exact absurd rfl hne

end Sys2Proof.Machine

/-! PROOFS. The register reads (10_state.md R39, R40; 40_commands.md R131) and the indices that do not exist (R36, 93 S11;
log 13). -/
namespace Sys2Proof.Machine

/-! ## RDREG -/

/-- A concatenation's value. -/
theorem toNat_append_add {m n : Nat} (x : BitVec m) (y : BitVec n) : (x ++ y).toNat = 2 ^ n * x.toNat + y.toNat := by
  rw [BitVec.toNat_append, ← Nat.shiftLeft_add_eq_or_of_lt y.isLt, Nat.shiftLeft_eq, Nat.mul_comm]

/-- Zeros above a value leave it. -/
theorem toNat_zero_append (m : Nat) {n : Nat} (y : BitVec n) : ((0 : BitVec m) ++ y).toNat = y.toNat := by
  simp

/-- STATUS is SEQ, ERR and OUTNE in bits 3:0, 7:4 and 8 (R39). -/
theorem statusWord_toNat (s : State) : (statusWord s).toNat =
    (seqCode s.seq).toNat + 16 * (errCode s.err).toNat + (if s.outq = [] then 0 else 256) := by
  have hout : (BitVec.ofBool (pinOutValid s)).toNat = if s.outq = [] then 0 else 1 := by
    unfold pinOutValid
    cases s.outq <;> rfl
  rw [statusWord, toNat_append_add, toNat_append_add, toNat_zero_append, hout]
  split <;> omega

/-- A register's word, by its value. -/
theorem regWord_eq_ofNat {s : State} {r : Byte} {x : Word32} {v : Nat} (h : regWord s r = some x) (hv : x.toNat = v) :
    regWord s r = some (BitVec.ofNat 32 v) := by
  rw [h, ← hv, BitVec.ofNat_toNat, BitVec.setWidth_eq]

/-- Registers 14 to 255 are reserved (R40). -/
theorem regWord_reserved (s : State) {r : Byte} (h : 13 < r) : regWord s r = none := by
  have hr : 13 < r.toNat := h
  unfold regWord
  split
  case h_15 => rfl
  all_goals omega

/-- A ready state is one of those R121 lists for RDREG. -/
theorem mem_legalReady {q : SeqState} (h : isBusy q = false) : q ∈ legalReady := by
  revert h
  cases q <;> decide

/-- RDREG of a register answers its word and changes nothing else. -/
theorem exec_rdreg_answer {s : State} {r : Byte} {x : Word32} (hb : isBusy s.seq = false) (hx : regWord s r = some x) :
    exec (.rdreg r) s = .next { s with rsp := some x } := by
  have he : exec (.rdreg r) s = accept (cmdWord 0xB r) true legalReady s (respond x s) := by
    simp only [exec, execRdreg, hx, Option.isSome_some, Option.getD_some]
  rw [he]
  exact accept_legal _ _ hb rfl (mem_legalReady hb)

/-- The command word of RDREG is read class, so a fault answers 0 (R90, R94). -/
theorem isRead_rdreg (r : Byte) : isRead (cmdWord 0xB r) = true := by
  rw [isRead, cmdWord, BitVec.getLsbD_append]
  rfl

/-- The command word of RDREG as a number: OP above ARG (R90). -/
theorem cmdWord_rdreg (r : Byte) : cmdWord 0xB r = 0xB00 + r.setWidth 12 := by
  apply BitVec.eq_of_toNat_eq
  rw [cmdWord, toNat_append_add]
  bv_omega

/-- RDREG of a reserved register is an illegal command (R40, R93). -/
theorem exec_rdreg_reserved {s : State} {r : Byte} (hb : isBusy s.seq = false) (hf : s.seq ≠ .fault) (hr : 13 < r) :
    exec (.rdreg r) s = .next { s with
      err := .illegalCommand, errInfo := 0xB00 + r.setWidth 12, seq := .fault, rsp := some 0 } := by
  have he : exec (.rdreg r) s = .next (illegalCommand (cmdWord 0xB r) s) :=
    accept_illegal _ _ hb fun h => by simp [regWord_reserved s hr] at h
  rw [he, illegalCommand_eq s _ hf, isRead_rdreg, cmdWord_rdreg]
  rfl

/-- Settles O16: each row of R40 by its word's value, a reserved number as an illegal command. -/
theorem rdregAnswersTheRegister : Obligations.RdregAnswersTheRegister := by
  intro s hb
  refine ⟨fun r hr hf => exec_rdreg_reserved hb hf hr, fun r v hrow => exec_rdreg_answer hb ?_⟩
  simp only [List.mem_cons, Prod.mk.injEq, List.not_mem_nil, or_false] at hrow
  rcases hrow with ⟨rfl, rfl⟩ | ⟨rfl, rfl⟩ | ⟨rfl, rfl⟩ | ⟨rfl, rfl⟩ | ⟨rfl, rfl⟩ | ⟨rfl, rfl⟩ | ⟨rfl, rfl⟩ |
    ⟨rfl, rfl⟩ | ⟨rfl, rfl⟩ | ⟨rfl, rfl⟩ | ⟨rfl, rfl⟩ | ⟨rfl, rfl⟩ | ⟨rfl, rfl⟩ | ⟨rfl, rfl⟩
  · exact regWord_eq_ofNat rfl (statusWord_toNat s)
  · exact regWord_eq_ofNat rfl (BitVec.toNat_setWidth_of_le (by decide))
  · exact regWord_eq_ofNat rfl rfl
  · exact regWord_eq_ofNat rfl (BitVec.toNat_setWidth_of_le (by decide))
  · exact regWord_eq_ofNat rfl (BitVec.toNat_setWidth_of_le (by decide))
  · exact regWord_eq_ofNat rfl (BitVec.toNat_setWidth_of_le (by decide))
  · rfl
  · exact regWord_eq_ofNat rfl (BitVec.toNat_setWidth_of_le (by decide))
  · exact regWord_eq_ofNat rfl (by rw [toNat_append_add, toNat_zero_append]; rfl)
  · exact regWord_eq_ofNat rfl rfl
  · exact regWord_eq_ofNat rfl (BitVec.toNat_setWidth_of_le (by decide))
  · exact regWord_eq_ofNat rfl rfl
  · exact regWord_eq_ofNat rfl (BitVec.toNat_setWidth_of_le (by decide))
  · exact regWord_eq_ofNat rfl (by rw [toNat_append_add, toNat_zero_append]; rfl)

/-! ## Indices that do not exist -/

/-- A node index is a Leaf exactly when it is below 256 (R36). -/
theorem isLeaf_iff (n : NodeId) : isLeaf n = true ↔ n.toNat < 256 := by
  rw [isLeaf, decide_eq_true_eq]
  rfl

/-- An index from 256 on is no Leaf. -/
theorem not_isLeaf {n : NodeId} (h : 256 ≤ n.toNat) : ¬ isLeaf n = true :=
  fun hl => Nat.not_lt.2 h ((isLeaf_iff n).1 hl)

/-- An arena write outside 256 to 510 stops (R36; log 13). -/
theorem arenaSet_stops (a : Arr Node 255) (nd : Node) {n : NodeId} (h : n.toNat < 256 ∨ n.toNat = 511) :
    arenaSet a n nd = .error (.arenaIndex n) :=
  if_pos (h.imp (isLeaf_iff n).2 fun e => BitVec.eq_of_toNat_eq e)

/-- The arena has no entry 511 (R36; log 13). -/
theorem arenaGet_absent (a : Arr Node 255) {n : NodeId} (h : n.toNat = 511) : arenaGet a n = .error (.arenaIndex n) := by
  unfold arenaGet
  rw [h, List.getElem?_eq_none (by rw [a.size]; decide)]

/-- A traversal stops at a node that the arena does not hold. -/
theorem traverse_stops (a : Arr Node 255) (fuel : Nat) {p : Pending} {f : Fault} (stack : List Pending)
    (c : Arr CodeEntry 256) (hl : ¬ isLeaf p.node = true) (h : arenaGet a p.node = .error f) :
    traverse a (fuel + 1) (p :: stack) c = .error f := by
  simp only [traverse, if_neg hl, h]

/-- CG_TRAVERSE's table where ROOT is 511. -/
theorem traverseRoot_stops {s : State} (h : s.root.toNat = 511) : traverseRoot s = .error (.arenaIndex s.root) :=
  traverse_stops s.arena 510 (p := ⟨s.root, 0, 0⟩) [] s.code (not_isLeaf (n := s.root) (by omega))
    (arenaGet_absent s.arena h)

/-- Settles O33: the arena write, the first pop of the traversal and the table write each stop by name. -/
theorem indicesThatDoNotExistStop : Obligations.IndicesThatDoNotExistStop := by
  intro s
  refine ⟨fun hn => ?insert, fun hr => ⟨?traverse, ?generate⟩, fun hr => ?single⟩
  case insert => simp only [exec, execTbIns, arenaSet_stops s.arena (mergedNode s) hn]
  case traverse => simp only [exec, execCgTraverse, traverseRoot_stops hr, putCode]
  case generate =>
    have hl : 256 ≤ s.root.toNat := by omega
    simp only [exec, execCgGen, genCode, if_neg (not_isLeaf hl), traverseRoot_stops hr, putCode]
  case single => simp only [exec, execCgSingle, singleCode, if_neg (not_isLeaf hr), putCode]

end Sys2Proof.Machine

/-! PROOFS. OUT_POP commutes with CORE's operations (20_memory.md R67, 45_bit_packer.md R213): an operation that is not
held appends to OUTQ, and neither the bytes already there nor those the host received change its effect. -/
namespace Sys2Proof.Machine

/-! ## Another content of the output port -/

/-- The state with other bytes in OUTQ and other bytes received by the host (R38; log 10). -/
def withPort (q p : List Byte) (s : State) : State := { s with outq := q, popped := p }

/-- The outcome with the output port of its next state replaced; a stop is the same stop. -/
def resultWithPort (q p : List Byte) : Result → Result
  | .next t => .next (withPort q p t)
  | .fault f => .fault f
  | .refused r => .refused r

section OtherPort

variable (q p : List Byte) (s : State)

@[simp] theorem withPort_nnode : (withPort q p s).nnode = s.nnode := rfl
@[simp] theorem withPort_arena : (withPort q p s).arena = s.arena := rfl
@[simp] theorem mergedFreq_withPort : mergedFreq (withPort q p s) = mergedFreq s := rfl
@[simp] theorem mergedNode_withPort : mergedNode (withPort q p s) = mergedNode s := rfl

theorem raise_withPort (k : ErrKind) (info : CmdWord) :
    raise k info (withPort q p s) = withPort q p (raise k info s) := by
  by_cases hf : s.seq = .fault
  · rw [raise_fault s k info hf, raise_fault (withPort q p s) k info hf]
  · rw [raise_eq s k info hf, raise_eq (withPort q p s) k info hf]
    rfl

theorem settle_withPort (info : CmdWord) (r : Except ErrKind State) :
    settle info (withPort q p s) (r.map (withPort q p)) = resultWithPort q p (settle info s r) := by
  cases r with
  | ok t => rfl
  | error k => exact congrArg _ (raise_withPort q p s k info)

/-! ## The operations of the build neither read nor write the output port -/

theorem insertEntry_withPort (e : HeapEntry) :
    insertEntry e (withPort q p s) = (insertEntry e s).map (withPort q p) := by
  simp only [insertEntry, withPort]
  cases pqInsert e s.pq <;> rfl

theorem extractEntry_withPort : extractEntry (withPort q p s) = (extractEntry s).map (withPort q p) := by
  simp only [extractEntry, withPort]
  cases pqExtractMin s.pq <;> rfl

theorem tbLoad_withPort : tbLoad (withPort q p s) = (tbLoad s).map (withPort q p) := by
  simp only [tbLoad, withPort]
  cases loadLeaves 0 s.freq.cells s.pq <;> rfl

theorem tbXa_withPort : tbXa (withPort q p s) = (tbXa s).map (withPort q p) := by
  simp only [tbXa, extractEntry_withPort]
  cases extractEntry s <;> rfl

theorem tbXb_withPort : tbXb (withPort q p s) = (tbXb s).map (withPort q p) := by
  simp only [tbXb, extractEntry_withPort]
  cases extractEntry s <;> rfl

theorem tbReinsert_withPort : tbReinsert (withPort q p s) = (tbReinsert s).map (withPort q p) := by
  simp only [tbReinsert, mergedFreq_withPort, withPort_nnode, insertEntry_withPort]
  cases insertEntry ⟨mergedFreq s, s.nnode⟩ s <;> rfl

theorem execTbIns_withPort : execTbIns (withPort q p s) = resultWithPort q p (execTbIns s) := by
  simp only [execTbIns, mergedNode_withPort, withPort_arena, withPort_nnode]
  cases arenaSet s.arena s.nnode (mergedNode s) with
  | ok a => exact (congrArg _ (tbReinsert_withPort q p { s with arena := a })).trans (settle_withPort q p s 0 _)
  | error f => rfl

theorem putCode_withPort (r : Except Fault (Arr CodeEntry 256)) :
    putCode (withPort q p s) r = resultWithPort q p (putCode s r) := by
  cases r <;> rfl

/-- CORE's operations outside S_EMIT and S_FLUSH do the same whatever the output port holds. -/
theorem exec_withPort {i : Instr} (hi : opOfState s.seq = some i) (hemit : s.seq ≠ .emit) (hflush : s.seq ≠ .flush) :
    exec i (withPort q p s) = resultWithPort q p (exec i s) := by
  cases hs : s.seq <;> rw [hs] at hi <;> cases hi
  case init => rfl
  case load => exact (congrArg _ (tbLoad_withPort q p s)).trans (settle_withPort q p s 0 _)
  case xa => exact (congrArg _ (tbXa_withPort q p s)).trans (settle_withPort q p s 0 _)
  case xb => exact (congrArg _ (tbXb_withPort q p s)).trans (settle_withPort q p s 0 _)
  case ins => exact execTbIns_withPort q p s
  case root => rfl
  case gen => exact putCode_withPort q p { s with seq := .pack } (genCode s)
  case emit => exact absurd hs hemit
  case flush => exact absurd hs hflush

end OtherPort

/-! ## The Bit-Packed Writer appends to OUTQ and looks only at the room in it -/

/-- OUTQ with no more bytes in it than before still has room (R38). -/
theorem outFull_withPort {s : State} {q : List Byte} (p : List Byte) (h : outFull s = false)
    (hq : q.length ≤ s.outq.length) : outFull (withPort q p s) = false :=
  decide_eq_false (Nat.not_le.2 (hq.trans_lt (room_of_not_outFull h)))

/-- A bit that is not held is not held with no more bytes in OUTQ (R208). -/
theorem putHeld_withPort {s : State} {q : List Byte} (p : List Byte) (h : putHeld s = false)
    (hq : q.length ≤ s.outq.length) : putHeld (withPort q p s) = false :=
  Bool.and_eq_false_iff.2 ((Bool.and_eq_false_iff.1 h).imp id fun hroom => outFull_withPort p hroom hq)

/-- BP_PUT_BIT appends the same bytes whatever the output port holds (R207). -/
theorem putBit_withPort (b : Bool) (s : State) :
    ∃ out, ∀ q p, putBit b (withPort q p s) = withPort (q ++ out) p (putBit b s) := by
  by_cases h7 : s.nbits = 7
  · exact ⟨[shiftIn b s.acc], fun q p => by rw [putBit_full b h7, putBit_full b (s := withPort q p s) h7]; rfl⟩
  · exact ⟨[], fun q p => by
      rw [putBit_room b h7, putBit_room b (s := withPort q p s) h7, List.append_nil]; rfl⟩

/-- BP_EMIT of a bit that is not held (R208). -/
theorem execBpEmit_putBit {s : State} (hl : s.curLen ≠ 0) (hput : putHeld s = false) : execBpEmit s =
    .next { putBit (codeBit (tableGet s.code s.curSym).bits s.curLen) s with curLen := s.curLen - 1 } :=
  (if_neg hl).trans (if_neg (Bool.not_eq_true _ ▸ hput))

/-- BP_FLUSH of pending bits that is not held (R209). -/
theorem execBpFlush_flushByte {s : State} (hn : s.nbits ≠ 0) (room : outFull s = false) : execBpFlush s =
    .next { s with outq := s.outq ++ [flushByte s], acc := 0, nbits := 0, seq := .done } :=
  (if_neg hn).trans (if_neg (Bool.not_eq_true _ ▸ room))

/-- The hold of S_EMIT is the hold of its next bit (R208). -/
theorem held_emit {s : State} (hs : s.seq = .emit) (hl : s.curLen ≠ 0) : held s = putHeld s := by
  simp only [held, hs, bne_iff_ne.2 hl, Bool.true_and, putHeld]

/-- The hold of S_FLUSH with bits pending is a full OUTQ (R209). -/
theorem held_flush {s : State} (hs : s.seq = .flush) (hn : s.nbits ≠ 0) : held s = outFull s := by
  simp only [held, hs, bne_iff_ne.2 hn, Bool.true_and]

/-- The step from `s` to `t` appends bytes to OUTQ, and with other contents of the output port, no more bytes in OUTQ
among them, it appends the same bytes and does the same to the rest of the state. -/
def AppendsOnly (i : Instr) (s t : State) : Prop :=
  ∃ out, ∀ q p, q.length ≤ s.outq.length → exec i (withPort q p s) = .next (withPort (q ++ out) p t)

/-- BP_EMIT that is not held (R208). -/
theorem bpEmit_appendsOnly {s t : State} (hs : s.seq = .emit) (hheld : held s = false)
    (h : exec .bpEmit s = .next t) : AppendsOnly .bpEmit s t := by
  rcases bpEmit_cases s with ⟨hl, e⟩ | ⟨hl, hput, -⟩ | ⟨hl, hput, e⟩
  · cases e.symm.trans h
    exact ⟨[], fun q p _ => by rw [List.append_nil]; exact if_pos hl⟩
  · exact absurd ((held_emit hs hl).trans hput) (Bool.not_eq_true _ ▸ hheld)
  · cases e.symm.trans h
    obtain ⟨out, hout⟩ := putBit_withPort (codeBit (tableGet s.code s.curSym).bits s.curLen) s
    refine ⟨out, fun q p hq => (execBpEmit_putBit (s := withPort q p s) hl (putHeld_withPort p hput hq)).trans ?_⟩
    exact congrArg (fun u : State => (.next { u with curLen := s.curLen - 1 } : Result)) (hout q p)

/-- BP_FLUSH that is not held (R209). -/
theorem bpFlush_appendsOnly {s t : State} (hs : s.seq = .flush) (hheld : held s = false)
    (h : exec .bpFlush s = .next t) : AppendsOnly .bpFlush s t := by
  rcases bpFlush_cases s with ⟨hn, e⟩ | ⟨hn, hfull, -⟩ | ⟨hn, room, e⟩
  · cases e.symm.trans h
    exact ⟨[], fun q p _ => by rw [List.append_nil]; exact if_pos hn⟩
  · exact absurd ((held_flush hs hn).trans hfull) (Bool.not_eq_true _ ▸ hheld)
  · cases e.symm.trans h
    exact ⟨[flushByte s], fun q p hq =>
      execBpFlush_flushByte (s := withPort q p s) hn (outFull_withPort p room hq)⟩

/-! ## The diamond -/

/-- Every operation of CORE that is not held appends to OUTQ and depends on nothing else of the output port than the
room in OUTQ. -/
theorem exec_appendsOnly {i : Instr} {s t : State} (hheld : held s = false) (hi : opOfState s.seq = some i)
    (h : exec i s = .next t) : AppendsOnly i s t := by
  by_cases hemit : s.seq = .emit
  · rw [hemit] at hi; cases hi
    exact bpEmit_appendsOnly hemit hheld h
  by_cases hflush : s.seq = .flush
  · rw [hflush] at hi; cases hi
    exact bpFlush_appendsOnly hflush hheld h
  · exact ⟨[], fun q p _ => by rw [exec_withPort q p s hi hemit hflush, h, List.append_nil]; rfl⟩

/-- Settles O41: with OUTQ = b :: rest and CORE appending `out`, both orders leave rest ++ out in OUTQ and b as the last
byte received, and the pop moves b within the emitted sequence (R38). -/
theorem popCommutesWithCore : Obligations.PopCommutesWithCore := by
  intro s t i ho hheld hi h
  obtain ⟨b, rest, hq⟩ := List.exists_cons_of_ne_nil ho
  obtain ⟨out, happend⟩ := exec_appendsOnly hheld hi h
  have hport : t = withPort (s.outq ++ out) s.popped t :=
    Host.Outcome.next.inj (h.symm.trans (happend s.outq s.popped le_rfl))
  have houtq : t.outq = b :: (rest ++ out) := by rw [hport, hq]; rfl
  have hpopped : t.popped = s.popped := by rw [hport]; rfl
  refine ⟨withPort rest (s.popped ++ [b]) s, withPort (rest ++ out) (s.popped ++ [b]) t, outPop_cons hq,
    happend rest _ (by simp [hq]), ?_, ?_⟩
  · rw [← hpopped]; exact outPop_cons houtq
  · simp [emitted, withPort, houtq, hpopped]

end Sys2Proof.Machine

/-! PROOFS. The encoder and the decoder (30_encoding.md R90 to R98, R104): what a written word decodes to, the words the
decoder rejects, and every command word as the acceptance of its command. -/
namespace Sys2Proof.Machine

/-! ## The fields of a written word -/

@[simp] theorem opField_cmdWord (op : BitVec 4) (arg : Byte) : opField (cmdWord op arg) = op :=
  BitVec.extractLsb'_append_eq_left

@[simp] theorem argField_cmdWord (op : BitVec 4) (arg : Byte) : argField (cmdWord op arg) = arg :=
  BitVec.extractLsb'_append_eq_right

@[simp] theorem unpackEntry_packEntry (e : HeapEntry) : unpackEntry (packEntry e) = e := by
  simp only [unpackEntry, packEntry, BitVec.extractLsb'_append_eq_left, BitVec.extractLsb'_append_eq_right]

/-! ## What a written word decodes to -/

/-- ABORT takes k = 1 and 2 (R91, R93). -/
theorem decodeCmd_abort (k : Byte) : decodeCmd (cmdWord 0x6 k) =
    if k = 1 ∨ k = 2 then .ok (.abort k) else .error (.abortKind k) := by
  simp [decodeCmd]

/-- RDCODE takes w = 0 to 7 (R91, R93). -/
theorem decodeCmd_rdcode (w : Byte) : decodeCmd (cmdWord 0xA w) =
    if w < 8 then .ok (.rdcode w) else .error (.codeWordNumber w) := by
  simp [decodeCmd]

/-- RDREG takes r = 0 to 13 (R91, R93). -/
theorem decodeCmd_rdreg (r : Byte) : decodeCmd (cmdWord 0xB r) =
    if r < 14 then .ok (.rdreg r) else .error (.registerNumber r) := by
  simp [decodeCmd]

/-- An insert request takes every entry whose node exists (R97, R36). -/
theorem decodePq_insert (e : HeapEntry) : decodePq 1 (packEntry e) =
    if e.node = 511 then .error .noSuchNode else .ok (.pqInsert e) := by
  simp [decodePq]

/-- Decoding what the encoder writes for a well-formed operation gives the operation (R91, R95, R97). -/
theorem decode_encode {i : Instr} {sel : Selector} (hw : i.wellFormed = true) (he : encode i = some sel) :
    decode sel = .ok i := by
  cases i with
  | abort k => cases he; exact (decodeCmd_abort k).trans (if_pos (by simpa [Instr.wellFormed] using hw))
  | rdcode w => cases he; exact (decodeCmd_rdcode w).trans (if_pos (by simpa [Instr.wellFormed] using hw))
  | rdreg r => cases he; exact (decodeCmd_rdreg r).trans (if_pos (by simpa [Instr.wellFormed] using hw))
  | pqInsert e => cases he; exact (decodePq_insert e).trans (if_neg (by simpa [Instr.wellFormed] using hw))
  | byte _ | selsym _ => cases he; simp [decode, decodeCmd]
  | freqInc _ | heapifyDown _ | buildHeap | cgTraverse | cgSingle => cases he
  | ctLookup _ | bpLatch _ | bpPutBit _ | outPop => cases he
  | _ => cases he; rfl

/-- The operations without an encoding are those a caller or the output port selects (R104). -/
theorem encode_eq_none_iff (i : Instr) : encode i = none ↔
    i = .buildHeap ∨ i = .cgTraverse ∨ i = .cgSingle ∨ i = .outPop ∨ (∃ b, i = .bpPutBit b) ∨
    ∃ d, i = .freqInc d ∨ i = .heapifyDown d ∨ i = .ctLookup d ∨ i = .bpLatch d := by
  cases i <;> simp [encode]

/-- Settles O2: the round trip, an equation for each operand the decoder checks, and the rows without an encoding. -/
theorem decodeOfEncodeIsTheInstruction : Obligations.DecodeOfEncodeIsTheInstruction :=
  ⟨fun _ _ => decode_encode, encode_eq_none_iff⟩

/-- Settles O1: each word by evaluating the decoder on it. -/
theorem tabledWordsDecode : Obligations.TabledWordsDecode := by
  unfold Obligations.TabledWordsDecode
  decide

/-! ## The words the decoder rejects -/

/-- A checked operand is rejected exactly where its check fails. -/
theorem ite_error_iff {p : Prop} [Decidable p] (i : Instr) (e : DecodeError) :
    (∃ e', (if p then .ok i else .error e : Except DecodeError Instr) = .error e') ↔ ¬ p := by
  split <;> simp [*]

/-- A command without operand is rejected exactly with ARG ≠ 0 (R90). -/
theorem noOperand_error_iff (a : Byte) (i : Instr) : (∃ e, noOperand a i = .error e) ↔ a ≠ 0 :=
  ite_error_iff i (.argNotZero a)

/-- R93 in terms of the fields. -/
theorem malformedWord_iff (w : CmdWord) : malformedWord w ↔
    opField w = 0x7 ∨ 0xC ≤ opField w ∨
    ((opField w = 0x0 ∨ opField w = 0x1 ∨ opField w = 0x3 ∨ opField w = 0x4 ∨ opField w = 0x8 ∨ opField w = 0x9) ∧
      argField w ≠ 0) ∨
    (opField w = 0x6 ∧ argField w ≠ 1 ∧ argField w ≠ 2) ∨ (opField w = 0xA ∧ 7 < argField w) ∨
    (opField w = 0xB ∧ 13 < argField w) := Iff.rfl

/-- The decoder rejects exactly the malformed words, row by row of the opcode map (R91, R93). -/
theorem decodeCmd_error_iff (w : CmdWord) : (∃ e, decodeCmd w = .error e) ↔ malformedWord w := by
  have row : ∀ {n : Nat}, (opField w).toNat = n → opField w = BitVec.ofNat 4 n := by
    intro n hn
    rw [← hn, BitVec.ofNat_toNat, BitVec.setWidth_eq]
  rw [malformedWord_iff]
  unfold decodeCmd
  split
  case h_1 hn | h_2 hn | h_4 hn | h_5 hn | h_8 hn | h_9 hn => simp [row hn, noOperand_error_iff]
  case h_3 hn | h_6 hn => simp [row hn]
  case h_7 hn => simp [row hn, ite_error_iff]
  case h_10 hn =>
    have above : 8#8 ≤ argField w ↔ 7#8 < argField w := Iff.rfl
    simp [row hn, ite_error_iff, above]
  case h_11 hn =>
    have above : 14#8 ≤ argField w ↔ 13#8 < argField w := Iff.rfl
    simp [row hn, ite_error_iff, above]
  case h_12 =>
    have hop : opField w = 0x7 ∨ 0xC ≤ opField w := by
      simp only [imp_false] at *
      bv_omega
    exact iff_of_true ⟨_, rfl⟩ (hop.imp_right .inl)

/-- Every decoded command is well formed (R93). -/
theorem wellFormed_of_decodeCmd {w : CmdWord} {i : Instr} (h : decodeCmd w = .ok i) : i.wellFormed = true := by
  have he := encode_of_decodeCmd h
  cases i with
  | abort k => cases he; rw [decodeCmd_abort] at h; split at h <;> cases h; simpa [Instr.wellFormed]
  | rdcode x => cases he; rw [decodeCmd_rdcode] at h; split at h <;> cases h; simpa [Instr.wellFormed]
  | rdreg r => cases he; rw [decodeCmd_rdreg] at h; split at h <;> cases h; simpa [Instr.wellFormed]
  | pqInsert e => cases he
  | _ => rfl

/-- Settles O3: the rejected words row by row of the opcode map, the accepted ones by the encoder's word for them. -/
theorem commandDecoderIsExact : Obligations.CommandDecoderIsExact :=
  ⟨decodeCmd_error_iff, fun _ _ h => ⟨encode_of_decodeCmd h, wellFormed_of_decodeCmd h⟩⟩

/-- A word that is not malformed decodes (R93). -/
theorem decodeCmd_of_not_malformed {w : CmdWord} (h : ¬ malformedWord w) : ∃ i, decodeCmd w = .ok i := by
  cases hd : decodeCmd w with
  | ok i => exact ⟨i, rfl⟩
  | error e => exact absurd ((decodeCmd_error_iff w).1 ⟨e, hd⟩) h

/-! ## Illegal words -/

/-- HOST-CMD's turn in a ready state takes a malformed word from the port (R120, R93). -/
theorem fetchTurn_hostCmd_malformed {s : State} {w : CmdWord} {cs : List CmdWord} {e : DecodeError}
    (hb : isBusy s.seq = false) (hc : s.cmds = w :: cs) (hd : decodeCmd w = .error e) :
    fetchTurn .hostCmd s = (.malformed w, { s with cmds := cs }) := by
  simp [fetchTurn, fetchCmd, hb, hc, hd]

/-- Every command runs through the acceptance of its word in the states R91 lists for the word's OP. -/
theorem exec_eq_accept {w : CmdWord} {i : Instr} (hd : decodeCmd w = .ok i) (s : State) :
    ∃ ok effect, exec i s = accept w ok (legalStates (opField w)) s effect := by
  have he := encode_of_decodeCmd hd
  cases i with
  | nop | start | eos | clear | rdfreq | rdlen => cases he; exact ⟨_, _, rfl⟩
  | byte _ | selsym _ | abort _ | rdcode _ | rdreg _ => cases he; rw [opField_cmdWord]; exact ⟨_, _, rfl⟩
  | _ => cases he

/-- A command in a ready state that is not legal for it is an illegal command (R121). -/
theorem exec_misplaced {w : CmdWord} {i : Instr} {s : State} (hd : decodeCmd w = .ok i) (hb : isBusy s.seq = false)
    (hl : s.seq ∉ legalStates (opField w)) : exec i s = .next (illegalCommand w s) := by
  obtain ⟨ok, effect, he⟩ := exec_eq_accept hd s
  exact he.trans (accept_illegal w effect hb fun h => hl h.2)

section Presented

variable {s : State} {w : CmdWord} {cs : List CmdWord} {ts : List Turn}
variable (hp : s.pqReq = .idle) (ht : s.turns = .hostCmd :: ts) (hc : s.cmds = w :: cs) (hb : isBusy s.seq = false)
include hp ht hc hb

/-- A malformed word presented in a ready state is an illegal command (R93). -/
theorem step_eq_illegalCommand_of_malformed (hw : malformedWord w) :
    step s = .next (illegalCommand w { s with rsp := none, turns := ts, cmds := cs }) := by
  obtain ⟨e, hd⟩ := (decodeCmd_error_iff w).2 hw
  rw [step_turn hp, ht]
  simp only [List.head?_cons, Option.getD_some, List.tail_cons,
    fetchTurn_hostCmd_malformed (s := { s with rsp := none, turns := ts }) hb hc hd]

/-- A word that is not malformed runs the command it decodes to (R120). -/
theorem step_eq_exec_of_not_malformed (hw : ¬ malformedWord w) :
    ∃ i, decodeCmd w = .ok i ∧ step s = exec i { s with rsp := none, turns := ts, cmds := cs } := by
  obtain ⟨i, hd⟩ := decodeCmd_of_not_malformed hw
  exact ⟨i, hd, step_eq_exec_of_turn hp ht (fetchTurn_hostCmd_run hb hc hd)⟩

/-- A malformed or misplaced word presented in a ready state is an illegal command (R93, R121). -/
theorem step_eq_illegalCommand (h : malformedWord w ∨ s.seq ∉ legalStates (opField w)) :
    step s = .next (illegalCommand w { s with rsp := none, turns := ts, cmds := cs }) := by
  by_cases hw : malformedWord w
  · exact step_eq_illegalCommand_of_malformed hp ht hc hb hw
  · obtain ⟨i, hd, hstep⟩ := step_eq_exec_of_not_malformed hp ht hc hb hw
    exact hstep.trans (exec_misplaced hd hb (h.resolve_left hw))

end Presented

/-- Settles O6: an illegal word by `step_eq_illegalCommand` and what an illegal command does outside and in S_FAULT, any
other by the command it decodes to. -/
theorem illegalWordsFaultOrAreDiscarded : Obligations.IllegalWordsFaultOrAreDiscarded := by
  intro s w cs ts hp ht hc hb
  refine ⟨fun h => ?_, fun hw _ => step_eq_exec_of_not_malformed hp ht hc hb hw⟩
  have hstep := step_eq_illegalCommand hp ht hc hb h
  exact ⟨fun hf => hstep.trans (congrArg _ (illegalCommand_eq _ w hf)),
    fun hf => hstep.trans (congrArg _ (illegalCommand_fault _ w hf))⟩

end Sys2Proof.Machine

/-! PROOFS. The words of a script (30_encoding.md R102, R103): the words of a list of commands decode to the commands, and
every line has its own words in its place. -/
namespace Sys2Proof.Machine

/-! ## Commands and their words -/

/-- A well-formed command that has a word (R91). -/
def IsCommand (i : Instr) : Prop := i.wellFormed = true ∧ ∃ w, encode i = some (.cmd w)

/-- The word of a command is the one the encoder writes. -/
theorem wordOf_eq {i : Instr} {w : CmdWord} (h : encode i = some (.cmd w)) : wordOf i = some w := by
  rw [wordOf, h]

/-- The words of a list of commands decode, in order, to the commands. -/
theorem map_decodeCmd_filterMap_wordOf {is : List Instr} (h : ∀ i ∈ is, IsCommand i) :
    (is.filterMap wordOf).map decodeCmd = is.map .ok := by
  induction is with
  | nil => rfl
  | cons i is ih =>
    obtain ⟨⟨hw, w, he⟩, his⟩ := List.forall_mem_cons.1 h
    have hd : decodeCmd w = .ok i := decode_encode hw he
    rw [List.filterMap_cons_some (wordOf_eq he), List.map_cons, List.map_cons, hd, ih his]

/-! ## What a line stands for -/

/-- A pass is BYTE commands and EOS (R103). -/
theorem isCommand_of_mem_passOf {bs : List Byte} {i : Instr} (h : i ∈ passOf bs) : IsCommand i := by
  simp only [passOf, streamOf, List.mem_append, List.mem_map, List.mem_singleton] at h
  rcases h with ⟨d, -, rfl⟩ | rfl <;> exact ⟨rfl, _, rfl⟩

/-- A line stands for well-formed commands when its own command is one (R102, R103). -/
theorem isCommand_of_mem_expand {l : ScriptLine} (hl : ∀ i, l = .cmd i → IsCommand i) {i : Instr}
    (h : i ∈ l.expand) : IsCommand i := by
  cases l with
  | blank => cases h
  | drain => cases h
  | cmd j => cases List.mem_singleton.1 h; exact hl i rfl
  | stream bs => exact isCommand_of_mem_passOf (List.mem_append_left _ h)
  | pass bs => exact isCommand_of_mem_passOf h
  | encodeRun bs =>
    simp only [ScriptLine.expand, encodeOf, List.cons_append, List.mem_cons, List.mem_append] at h
    rcases h with rfl | h | h
    · exact ⟨rfl, _, rfl⟩
    · exact isCommand_of_mem_passOf h
    · split at h
      · cases h
      · exact isCommand_of_mem_passOf h
  | dump x =>
    simp only [ScriptLine.expand, List.mem_cons, List.not_mem_nil, or_false] at h
    rcases h with rfl | rfl | rfl | rfl <;> exact ⟨rfl, _, rfl⟩

/-- Settles O4: the words of the expanded lines decode to what the lines stand for, and the expansion of each form of line
is the one R102 and R103 give. -/
theorem scriptWordsDecodeToTheirLines : Obligations.ScriptWordsDecodeToTheirLines := by
  intro ls h
  have hcmds : ∀ i ∈ ls.flatMap ScriptLine.expand, IsCommand i := by
    intro i hi
    obtain ⟨l, hl, hmem⟩ := List.mem_flatMap.1 hi
    exact isCommand_of_mem_expand (fun j e => h j (e ▸ hl)) hmem
  refine (map_decodeCmd_filterMap_wordOf hcmds).trans (congrArg (fun f => (ls.flatMap f).map Except.ok) ?_)
  funext l
  cases l with
  | encodeRun bs => cases bs <;> simp [ScriptLine.expand, encodeOf, passOf, streamOf]
  | _ => rfl

/-! ## A line in its place -/

/-- A command line is in its place the word of its command (R102). -/
theorem assembleLines_append_cmd {i : Instr} {w : CmdWord} (h : encode i = some (.cmd w)) (ls ls' : List ScriptLine) :
    assembleLines (ls ++ .cmd i :: ls') = assembleLines ls ++ w :: assembleLines ls' := by
  simp only [assembleLines, List.flatMap_append, List.flatMap_cons, ScriptLine.expand, List.singleton_append,
    List.filterMap_append, List.filterMap_cons_some (wordOf_eq h)]

/-- Settles O60: {OP, b} is the word the encoder writes for every b, and the decoder's equation for each of the three
commands names the operand it rejects. -/
theorem malformedOperandLinesAssemble : Obligations.MalformedOperandLinesAssemble := by
  intro b
  refine ⟨?assembles, fun h1 h2 => ?abort, fun h => ?rdcode, fun h => ?rdreg⟩
  case assembles =>
    rintro i w (⟨rfl, rfl⟩ | ⟨rfl, rfl⟩ | ⟨rfl, rfl⟩) <;> exact assembleLines_append_cmd rfl
  case abort => exact (decodeCmd_abort b).trans (if_neg (not_or.2 ⟨h1, h2⟩))
  case rdcode => exact (decodeCmd_rdcode b).trans (if_neg (Nat.not_lt.2 h))
  case rdreg => exact (decodeCmd_rdreg b).trans (if_neg (Nat.not_lt.2 h))

end Sys2Proof.Machine

/-! PROOFS. The host commands one by one (40_commands.md R120 to R130): held in a busy state, and in a state that is legal
for them exactly their own effect. -/
namespace Sys2Proof.Machine

/-! ## Held while busy -/

/-- A host command is the acceptance of the word the encoder writes for it, whatever its operand (R120). -/
theorem exec_eq_accept_of_encode {i : Instr} {w : CmdWord} (he : encode i = some (.cmd w)) (s : State) :
    ∃ ok legal effect, exec i s = accept w ok legal s effect := by
  cases i with
  | nop | start | eos | clear | rdfreq | rdlen => cases he; exact ⟨_, _, _, rfl⟩
  | byte _ | selsym _ | abort _ | rdcode _ | rdreg _ => cases he; exact ⟨_, _, _, rfl⟩
  | _ => cases he

/-- In a busy state a host command changes nothing (R120). -/
theorem exec_busy {i : Instr} {w : CmdWord} {s : State} (he : encode i = some (.cmd w)) (hb : isBusy s.seq = true) :
    exec i s = .next s := by
  obtain ⟨ok, legal, effect, hexec⟩ := exec_eq_accept_of_encode he s
  exact hexec.trans (accept_busy w ok legal effect hb)

/-- In a busy state HOST-CMD's turn leaves the word at the port (R120). -/
theorem fetchTurn_hostCmd_busy {s : State} (hb : isBusy s.seq = true) : fetchTurn .hostCmd s = (.wait, s) :=
  if_pos hb

/-- A step in which HOST-CMD is held takes the turn and clears the response port, and changes nothing else (R120, R94). -/
theorem step_hostCmd_busy {s : State} {ts : List Turn} (hp : s.pqReq = .idle) (ht : s.turns = .hostCmd :: ts)
    (hb : isBusy s.seq = true) : step s = .next { s with turns := ts, rsp := none } := by
  rw [step_turn hp, ht]
  simp only [List.head?_cons, Option.getD_some, List.tail_cons,
    fetchTurn_hostCmd_busy (s := { s with rsp := none, turns := ts }) hb]

/-- Settles O7: every command is the acceptance of its word, and neither that nor HOST-CMD's turn does anything while
busy. -/
theorem commandsAreHeldWhileBusy : Obligations.CommandsAreHeldWhileBusy :=
  fun _ _ hb => ⟨fun _ _ he => exec_busy he hb, fun hp ht => step_hostCmd_busy hp ht hb⟩

/-! ## The commands of every ready state -/

/-- Settles O9: NOP and SELSYM are legal in every ready state. -/
theorem nopAndSelsymInEveryReadyState : Obligations.NopAndSelsymInEveryReadyState :=
  fun _ hb => ⟨accept_legal _ _ hb rfl (mem_legalReady hb), fun _ => accept_legal _ _ hb rfl (mem_legalReady hb)⟩

/-- A ready state but S_FAULT is one of those R121 lists for ABORT. -/
theorem mem_legalAbort {q : SeqState} (hb : isBusy q = false) (hf : q ≠ .fault) : q ∈ legalAbort := by
  revert hb hf
  cases q <;> decide

/-- ABORT outside S_FAULT is a fault of the kind it reports, with its own word as ERRINFO (R126, R260). -/
theorem exec_abort {k : Byte} {kind : ErrKind} {s : State} (hk : abortKind k = some kind) (hb : isBusy s.seq = false)
    (hf : s.seq ≠ .fault) :
    exec (.abort k) s = .next { s with err := kind, errInfo := cmdWord 0x6 k, seq := .fault } := by
  have hexec : exec (.abort k) s = .next (raise ((abortKind k).getD .none) (cmdWord 0x6 k) s) :=
    accept_legal _ _ hb (by rw [hk]; rfl) (mem_legalAbort hb hf)
  rw [hexec, hk, Option.getD_some, raise_eq s kind _ hf]

/-- In S_FAULT a word that is not read class is discarded without an answer (R93, R261). -/
theorem illegalCommand_discarded {w : CmdWord} {s : State} (hw : isRead w = false) (hf : s.seq = .fault) :
    illegalCommand w s = s := by
  rw [illegalCommand_fault s w hf, hw]
  rfl

/-- The class bit of a written word is the top bit of its OP (R90). -/
theorem isRead_cmdWord (op : BitVec 4) (arg : Byte) : isRead (cmdWord op arg) = op.getLsbD 3 := by
  rw [isRead, cmdWord, BitVec.getLsbD_append]
  rfl

/-- ABORT in S_FAULT is discarded (R121). -/
theorem exec_abort_fault (k : Byte) {s : State} (hf : s.seq = .fault) : exec (.abort k) s = .next s := by
  have hb : isBusy s.seq = false := by rw [hf]; rfl
  have hl : s.seq ∉ legalAbort := by rw [hf]; decide
  have hexec : exec (.abort k) s = .next (illegalCommand (cmdWord 0x6 k) s) := accept_illegal _ _ hb fun h => hl h.2
  rw [hexec, illegalCommand_discarded (isRead_cmdWord 0x6 k) hf]

/-- Settles O13: outside S_FAULT ABORT raises its kind, in S_FAULT it is a misplaced word without an answer. -/
theorem abortRaisesTheReportedKind : Obligations.AbortRaisesTheReportedKind :=
  fun _ hb => ⟨fun hf => ⟨exec_abort rfl hb hf, exec_abort rfl hb hf⟩,
    fun hf => ⟨exec_abort_fault 1 hf, exec_abort_fault 2 hf⟩⟩

/-! ## START and the commands of a pass -/

/-- A well-formed command has its own effect in each of its legal states that is a ready one (R120, R121). -/
theorem accept_in {q : SeqState} (w : CmdWord) {ok : Bool} {legal : List SeqState} {s : State} (e : State)
    (hs : s.seq = q) (hq : isBusy q = false ∧ q ∈ legal) (ho : ok = true) : accept w ok legal s e = .next e := by
  subst hs
  exact accept_legal w e hq.1 ho hq.2

/-- Settles O10: S_IDLE is START's legal state. -/
theorem startEntersInit : Obligations.StartEntersInit :=
  fun _ hs => accept_in _ _ hs (by decide) rfl

/-- BYTE counts in the scan pass (R124). -/
theorem exec_byte_scan {s : State} (d : Byte) (hs : s.seq = .scan) : exec (.byte d) s = .next (freqInc d s) :=
  (accept_in _ _ hs (by decide) rfl).trans (congrArg _ (if_pos hs))

/-- BYTE looks its code up in the pack pass (R124). -/
theorem exec_byte_pack {s : State} (d : Byte) (hs : s.seq = .pack) : exec (.byte d) s = .next (packByte d s) :=
  (accept_in _ _ hs (by decide) rfl).trans (congrArg _ (if_neg (by simp [hs])))

/-- Settles O11: the two passes of BYTE, and in the pack pass the case of `packByte_cases` with a code. -/
theorem byteCountsOrStartsAnEncode : Obligations.ByteCountsOrStartsAnEncode := by
  intro s d
  refine ⟨exec_byte_scan d, fun hs hcode => ?_⟩
  obtain ⟨hnone, -⟩ | ⟨-, hlatch⟩ := packByte_cases d s
  · exact absurd hnone hcode
  · rw [exec_byte_pack d hs, hlatch]
    rfl

/-- EOS in the scan pass ends it (R125). -/
theorem exec_eos_scan {s : State} (hs : s.seq = .scan) : exec .eos s = .next (endScan s) :=
  (accept_in _ _ hs (by decide) rfl).trans (congrArg _ (if_pos hs))

/-- EOS in the pack pass starts the flush (R125). -/
theorem exec_eos_pack {s : State} (hs : s.seq = .pack) : exec .eos s = .next { s with seq := .flush } :=
  (accept_in _ _ hs (by decide) rfl).trans (congrArg _ (if_neg (by simp [hs])))

/-- Settles O12: the end of the scan pass without and with symbols, and of the pack pass. -/
theorem eosClosesThePass : Obligations.EosClosesThePass := fun _ =>
  ⟨fun hs hu => (exec_eos_scan hs).trans (congrArg _ (if_pos hu)),
    fun hs hu => (exec_eos_scan hs).trans (congrArg _ (if_neg hu)), exec_eos_pack⟩

/-! ## The table reads -/

/-- Bit k of word w of a code is bit 32·w + k of the code (20_memory.md R65). -/
theorem codeWord_bit (c : CodeBits) (w : Byte) {k : Nat} (hk : k < 32) :
    (codeWord c w).getLsbD k = c.getLsbD (32 * w.toNat + k) := by
  simp only [codeWord, BitVec.getLsbD_extractLsb', hk, decide_true, Bool.true_and]

/-- With the tables complete a well-formed table read answers its word (R121, R128 to R130). -/
theorem accept_tableRead (w : CmdWord) {ok : Bool} {s : State} (e : State) (hs : s.seq = .pack ∨ s.seq = .done)
    (ho : ok = true) : accept w ok legalTables s e = .next e :=
  hs.elim (fun h => accept_in w e h (by decide) ho) fun h => accept_in w e h (by decide) ho

/-- Settles O15: each read is legal in S_PACK and S_DONE, and RDCODE's word is fixed by `codeWord_bit`. -/
theorem tableReadsAnswer : Obligations.TableReadsAnswer := by
  intro s hs
  refine ⟨accept_tableRead _ _ hs rfl, ?rdlen, fun w hw => ⟨codeWord (tableGet s.code s.sel).bits w, ?rdcode, ?bits⟩⟩
  case rdlen =>
    rw [BitVec.ofNat_toNat]
    exact accept_tableRead _ _ hs rfl
  case rdcode => exact accept_tableRead _ _ hs (decide_eq_true hw)
  case bits => exact fun k hk => codeWord_bit _ w hk

end Sys2Proof.Machine

/-! PROOFS. The Frequency Scanner (41_frequency_scanner.md R140 to R143): what INIT leaves, one byte counted, a scan pass
as the counts of its bytes, and who writes the tables. -/
namespace Sys2Proof.Machine

/-! ## INIT -/

/-- Settles O17: INIT's tables are filled with zeros, so every read of them is zero. -/
theorem initPreparesARun : Obligations.InitPreparesARun := fun _ =>
  ⟨Arr.fill 256 0, Arr.fill 256 ⟨0, 0⟩, rfl, fun _ => ⟨tableGet_fill _ _, tableGet_fill _ _⟩⟩

/-! ## One byte -/

/-- The limit of R141 as a number. -/
theorem totalFull_iff (s : State) : totalFull s = true ↔ s.total.toNat = 2 ^ 32 - 1 := by
  rw [totalFull, beq_iff_eq, ← BitVec.toNat_inj, BitVec.toNat_allOnes]

theorem totalFull_eq_false {s : State} (h : s.total.toNat < 2 ^ 32 - 1) : totalFull s = false :=
  Bool.eq_false_iff.2 fun hfull => h.ne ((totalFull_iff s).1 hfull)

/-- The command word of BYTE as a number: OP above ARG (R90). -/
theorem cmdWord_byte (d : Byte) : cmdWord 0x2 d = 0x200 + d.setWidth 12 := by
  apply BitVec.eq_of_toNat_eq
  rw [cmdWord, toNat_append_add]
  bv_omega

/-- At the limit FREQ_INC is the fault LengthOverflow and counts nothing (R141, R260). -/
theorem freqInc_full (d : Byte) {s : State} (hfull : totalFull s = true) (hs : s.seq ≠ .fault) :
    freqInc d s = { s with err := .lengthOverflow, errInfo := 0x200 + d.setWidth 12, seq := .fault } := by
  rw [← cmdWord_byte, ← raise_eq s .lengthOverflow (cmdWord 0x2 d) hs]
  exact if_pos hfull

/-- The table of counts with one more for d. -/
def countByte (a : Arr Word32 256) (d : Byte) : Arr Word32 256 := tableSet a d (tableGet a d + 1)

/-- Below the limit FREQ_INC counts one byte, and one symbol if it is new (R141). -/
theorem freqInc_room (d : Byte) {s : State} (room : totalFull s = false) :
    freqInc d s = { s with
      freq := countByte s.freq d, total := s.total + 1, usc := if tableGet s.freq d = 0 then s.usc + 1 else s.usc } :=
  if_neg (Bool.eq_false_iff.1 room)

/-- A count does not wrap while the counts add up to less than the limit (R141, R11). -/
theorem toNat_tableGet_add_one {a : Arr Word32 256} (d : Byte) (h : freqSum a < 2 ^ 32 - 1) :
    (tableGet a d + 1).toNat = (tableGet a d).toNat + 1 := by
  have := tableGet_le_freqSum a d
  bv_omega

/-- With one more symbol if d is new there are still at most 256 (R141). -/
theorem length_presentSyms_add_new_le (a : Arr Word32 256) (d : Byte) :
    (presentSyms a).length + (if tableGet a d = 0 then 1 else 0) ≤ 256 := by
  split
  case isTrue hd =>
    rw [← length_presentSyms_tableSet_new (x := 1) hd (by decide)]
    exact length_presentSyms_le _
  case isFalse => exact length_presentSyms_le a

/-- Settles O18: the two cases of FREQ_INC, and below the limit no addition wraps where the counts add up. -/
theorem freqIncCountsOneByte : Obligations.FreqIncCountsOneByte := by
  intro s d
  refine ⟨fun hfull hs => congrArg _ (freqInc_full d ((totalFull_iff s).2 hfull) hs), fun room => ?_⟩
  refine ⟨countByte s.freq d, congrArg _ (freqInc_room d (totalFull_eq_false room)), tableGet_tableSet_same _ _ _,
    fun x hx => tableGet_tableSet_ne _ _ hx, fun hsum husc => ⟨?count, ?total, ?usc⟩⟩
  case count => rw [countByte, tableGet_tableSet_same, toNat_tableGet_add_one d (hsum ▸ room)]
  case total => bv_omega
  case usc => rw [husc]; exact length_presentSyms_add_new_le s.freq d

/-! ## A scan pass -/

/-- The operations of two lists are those of the first, then those of the second. -/
theorem execAll_append {is : List Instr} {s t : State} (h : execAll is s = .next t) (js : List Instr) :
    execAll (is ++ js) s = execAll js t := by
  induction is generalizing s with
  | nil => cases h; rfl
  | cons i is ih =>
    simp only [execAll, List.cons_append] at h ⊢
    cases hi : exec i s with
    | next u => rw [hi] at h; exact ih h
    | fault f => rw [hi] at h; cases h
    | refused r => rw [hi] at h; cases h

/-- One more element is a distinct one if it is not yet there. -/
theorem length_dedup_concat {α : Type} [DecidableEq α] (ds : List α) (d : α) :
    (ds ++ [d]).dedup.length = if d ∈ ds then ds.dedup.length else ds.dedup.length + 1 := by
  have hset : (ds ++ [d]).toFinset = insert d ds.toFinset := by ext; simp
  simp only [← List.card_toFinset, hset, Finset.card_insert_eq_ite, List.mem_toFinset]

/-- The table holds how often each byte occurs in ds (R142), and its sum is the length (R230). -/
structure Counts (a : Arr Word32 256) (ds : List Byte) : Prop where
  count : ∀ x, (tableGet a x).toNat = ds.count x
  sum : freqSum a = ds.length

namespace Counts

variable {a : Arr Word32 256} {ds : List Byte}

/-- INIT's table counts no byte (R140). -/
theorem nil (h : ∀ x, tableGet a x = 0) : Counts a [] where
  count x := by rw [h]; rfl
  sum := by
    have hfill : a = Arr.fill 256 0 := table_ext fun x => (h x).trans (tableGet_fill 0 x).symm
    exact hfill ▸ freqSum_fill_zero

/-- FREQ_INC counts one more byte (R141). -/
theorem concat (h : Counts a ds) (d : Byte) (room : ds.length < 2 ^ 32 - 1) : Counts (countByte a d) (ds ++ [d]) where
  count x := by
    rw [countByte, tableGet_tableSet, List.count_append, List.count_singleton, ← h.count x]
    by_cases hx : x = d
    · rw [if_pos hx, hx, toNat_tableGet_add_one d (h.sum ▸ room), if_pos (beq_self_eq_true d)]
    · simp [hx, Ne.symm hx]
  sum := by
    have hset := freqSum_tableSet a d (tableGet a d + 1)
    have hinc := toNat_tableGet_add_one d (h.sum ▸ room)
    have hsum := h.sum
    rw [countByte, List.length_append, List.length_singleton]
    omega

/-- A byte has a count exactly when it has occurred. -/
theorem tableGet_eq_zero_iff (h : Counts a ds) (d : Byte) : tableGet a d = 0 ↔ d ∉ ds := by
  rw [← BitVec.toNat_inj, h.count]
  exact List.count_eq_zero

/-- FREQ_INC counts one more symbol exactly when the byte is a new one (R141). -/
theorem usc_concat (h : Counts a ds) (d : Byte) :
    (if tableGet a d = 0 then BitVec.ofNat 9 ds.dedup.length + 1 else BitVec.ofNat 9 ds.dedup.length) =
      BitVec.ofNat 9 (ds ++ [d]).dedup.length := by
  rw [length_dedup_concat]
  by_cases hd : d ∈ ds
  · rw [if_pos hd, if_neg fun h0 => (h.tableGet_eq_zero_iff d).1 h0 hd]
  · rw [if_neg hd, if_pos ((h.tableGet_eq_zero_iff d).2 hd), BitVec.ofNat_add]
    rfl

end Counts

/-- The state after a scan pass over ds, begun in s, that left the table a. -/
def scannedState (s : State) (a : Arr Word32 256) (ds : List Byte) : State :=
  { s with freq := a, total := BitVec.ofNat 32 ds.length, usc := BitVec.ofNat 9 ds.dedup.length }

/-- A pass without bytes leaves what INIT left. -/
theorem scannedState_nil {s : State} (husc : s.usc = 0) (htotal : s.total = 0) : scannedState s s.freq [] = s := by
  obtain ⟨⟩ := s
  cases husc
  cases htotal
  rfl

/-- A further byte of a scan pass below the limit is counted (R124, R141). -/
theorem exec_byte_scannedState {s : State} {a : Arr Word32 256} {ds : List Byte} (hs : s.seq = .scan)
    (h : Counts a ds) (d : Byte) (room : ds.length < 2 ^ 32 - 1) :
    exec (.byte d) (scannedState s a ds) = .next (scannedState s (countByte a d) (ds ++ [d])) := by
  have hroom : (scannedState s a ds).total.toNat < 2 ^ 32 - 1 := by
    rw [scannedState, BitVec.toNat_ofNat]
    omega
  rw [exec_byte_scan (s := scannedState s a ds) d hs, freqInc_room d (totalFull_eq_false hroom)]
  simp only [scannedState, ← h.usc_concat d, List.length_append, List.length_singleton, BitVec.ofNat_add]
  rfl

/-- Every scan pass below the limit leaves its bytes' counts (R142). -/
theorem execAll_bytes {s : State} (hs : s.seq = .scan) (husc : s.usc = 0) (htotal : s.total = 0)
    (hfreq : ∀ x, tableGet s.freq x = 0) (ds : List Byte) (hlen : ds.length < 2 ^ 32) :
    ∃ a, execAll (ds.map .byte) s = .next (scannedState s a ds) ∧ Counts a ds := by
  induction ds using List.reverseRecOn with
  | nil => exact ⟨s.freq, congrArg _ (scannedState_nil husc htotal).symm, .nil hfreq⟩
  | append_singleton ds d ih =>
    rw [List.length_append, List.length_singleton] at hlen
    obtain ⟨a, hexec, hcounts⟩ := ih (by omega)
    refine ⟨countByte a d, ?_, hcounts.concat d (by omega)⟩
    rw [List.map_append, execAll_append hexec]
    simp only [List.map_singleton, execAll, exec_byte_scannedState hs hcounts d (by omega)]

/-- Settles O19: byte by byte from INIT's tables, the table holds the counts of the bytes so far (`execAll_bytes`). -/
theorem scanPassCountsItsBytes : Obligations.ScanPassCountsItsBytes := by
  intro s ds hs husc htotal hfreq hlen
  obtain ⟨a, hexec, hcounts⟩ := execAll_bytes hs husc htotal hfreq ds hlen
  exact ⟨a, hexec, hcounts.count, hcounts.sum⟩

/-! ## Who writes the tables -/

section

variable {s t : State}

/-- Outside the scan pass a command leaves FREQ, and only CLEAR resets USC and TOTAL (R143). -/
theorem commandEffect_counts {w : CmdWord} (he : CommandEffect w s t) (hscan : s.seq ≠ .scan) :
    t.freq = s.freq ∧ ((t.usc = s.usc ∧ t.total = s.total) ∨
      (w = 0x400 ∧ t.seq = .idle ∧ t.usc = 0 ∧ t.total = 0)) := by
  cases he with
  | illegal => exact ⟨by simp, .inl (by simp)⟩
  | raised k info hs hk => exact ⟨by simp, .inl (by simp)⟩
  | count d hs room => exact absurd hs hscan
  | clear hw => exact ⟨rfl, .inr ⟨hw, rfl, rfl, rfl⟩⟩
  | _ => exact ⟨rfl, .inl ⟨rfl, rfl⟩⟩

/-- Outside S_INIT CORE leaves FREQ, USC and TOTAL (R143). -/
theorem coreEffect_counts (he : CoreEffect s t) (hinit : s.seq ≠ .init) :
    t.freq = s.freq ∧ t.usc = s.usc ∧ t.total = s.total := by
  cases he with
  | init hs => exact absurd hs hinit
  | queueFault k hs hk => simp
  | emitBit hs hl room => simp
  | _ => exact ⟨rfl, rfl, rfl⟩

/-- No command writes the code table (R196). -/
theorem commandEffect_code {w : CmdWord} (he : CommandEffect w s t) : t.code = s.code := by
  cases he with
  | illegal => simp
  | raised k info hs hk => simp
  | _ => rfl

/-- Outside S_INIT and S_GEN CORE leaves the code table (R196). -/
theorem coreEffect_code (he : CoreEffect s t) (hinit : s.seq ≠ .init) (hgen : s.seq ≠ .gen) : t.code = s.code := by
  cases he with
  | init hs => exact absurd hs hinit
  | generate c hs hc => exact absurd hs hgen
  | queueFault k hs hk => simp
  | emitBit hs hl room => simp
  | _ => rfl

end

/-- Settles O46: of the effects a step can have only INIT and FREQ_INC write FREQ and only INIT and CG_GEN the code table;
USC and TOTAL change with FREQ, or are reset by CLEAR and `rst`. -/
theorem tablesAreImmutableOnceMade : Obligations.TablesAreImmutableOnceMade := by
  intro s t hp hstep
  cases step_effect hp hstep with
  | reset ht => exact ⟨fun _ _ => ⟨rfl, .inr ⟨.inl ht, rfl, rfl, rfl⟩⟩, fun _ _ => rfl⟩
  | wait => exact ⟨fun _ _ => ⟨rfl, .inl ⟨rfl, rfl⟩⟩, fun _ _ => rfl⟩
  | command hb hc he =>
    have hcode := commandEffect_code he
    refine ⟨fun _ hscan => (commandEffect_counts he hscan).imp_right (Or.imp_right ?_), fun _ _ => hcode⟩
    rintro ⟨rfl, hclear⟩
    exact ⟨.inr (by rw [hc]; rfl), hclear⟩
  | core he =>
    have hcode := coreEffect_code he
    exact ⟨fun hinit _ => (coreEffect_counts he hinit).imp_right .inl, hcode⟩
  | pop ho => exact ⟨fun _ _ => ⟨rfl, .inl ⟨rfl, rfl⟩⟩, fun _ _ => rfl⟩

end Sys2Proof.Machine

/-! PROOFS. The order of the queue (42_priority_queue.md R151, R157): the keys of HEAP under an exchange, the two ways the
order can fail at one position while it is being restored, and what HEAPIFY_DOWN does to each. -/
namespace Sys2Proof.Machine

/-! ## Keys -/

/-- The sort key at a position, as a number (30_encoding.md R98). -/
def key (h : Arr HeapEntry 256) (j : Nat) : Nat := (heapAt h j).freq.toNat

theorem orderedFrom_iff {h : Arr HeapEntry 256} {n i : Nat} :
    OrderedFrom h n i ↔ ∀ j, j < n → 1 ≤ j → i ≤ (j - 1) / 2 → key h ((j - 1) / 2) ≤ key h j := Iff.rfl

/-- A read after an exchange (00_scope.md R10). -/
theorem heapAt_heapSwap (h : Arr HeapEntry 256) {i m : Nat} (hi : i < 256) (hm : m < 256) (k : Nat) :
    heapAt (heapSwap h i m) k = if k = i then heapAt h m else if k = m then heapAt h i else heapAt h k :=
  (swapped_iff hi hm).2 rfl k

theorem key_heapSwap (h : Arr HeapEntry 256) {i m : Nat} (hi : i < 256) (hm : m < 256) (k : Nat) :
    key (heapSwap h i m) k = if k = i then key h m else if k = m then key h i else key h k := by
  simp only [key, heapAt_heapSwap h hi hm]
  split <;> [rfl; split <;> rfl]

theorem heapSwap_comm (h : Arr HeapEntry 256) {i m : Nat} (hi : i < 256) (hm : m < 256) :
    heapSwap h i m = heapSwap h m i := by
  refine heap_ext fun k _ => ?_
  rw [heapAt_heapSwap h hi hm, heapAt_heapSwap h hm hi]
  split_ifs <;> simp_all

/-- An exchange only moves entries. -/
theorem heapSwap_perm (h : Arr HeapEntry 256) {i m : Nat} (hi : i < 256) (hm : m < 256) :
    (heapSwap h i m).cells.Perm h.cells := by
  rw [heapSwap, heapPut_cells, heapPut_cells, heapAt_eq_getElem h hi, heapAt_eq_getElem h hm]
  exact List.set_set_perm _ _

/-! ## The position R151 swaps with -/

section

variable {h : Arr HeapEntry 256} {n k : Nat}

/-- No child inside the queue has a smaller key than the position R151 swaps with. -/
theorem key_smallest_le_child {j : Nat} (hj : j < n) (h1 : 1 ≤ j) (hk : (j - 1) / 2 = k) :
    key h (smallest h n k) ≤ key h j := by
  obtain ⟨-, hleft, hright⟩ := smallest_le h n k
  obtain rfl | rfl : j = 2 * k + 1 ∨ j = 2 * k + 2 := by omega
  · exact hleft hj
  · exact hright hj

/-- A position R151 moves goes to a child inside the queue. -/
theorem smallest_child (hm : smallest h n k ≠ k) :
    smallest h n k < n ∧ 1 ≤ smallest h n k ∧ (smallest h n k - 1) / 2 = k := by
  have := (smallest_mem h n k).resolve_left hm
  omega

/-- Where the edges from a position to its children are in order, R151 does not move it. -/
theorem smallest_eq_self_of_edges (he : ∀ j, j < n → 1 ≤ j → (j - 1) / 2 = k → key h k ≤ key h j) :
    smallest h n k = k :=
  smallest_eq_self h n k (fun hl => he _ hl (by omega) (by omega)) fun hr => he _ hr (by omega) (by omega)

/-- The left child, if it is smaller and the right one is not smaller still (R151, R155). -/
theorem smallest_eq_left (hl : 2 * k + 1 < n) (hlt : key h (2 * k + 1) < key h k)
    (hr : 2 * k + 2 < n → key h (2 * k + 1) ≤ key h (2 * k + 2)) : smallest h n k = 2 * k + 1 := by
  simp only [smallest, if_pos (show _ ∧ (heapAt h (2 * k + 1)).freq < (heapAt h k).freq from ⟨hl, hlt⟩)]
  exact if_neg fun hlt' => absurd hlt'.2 (Nat.not_lt.2 (hr hlt'.1))

/-- The right child, if it is smaller than the position and strictly smaller than the left one (R151, R155). -/
theorem smallest_eq_right (hr : 2 * k + 2 < n) (hlt : key h (2 * k + 2) < key h k)
    (hlr : key h (2 * k + 2) < key h (2 * k + 1)) : smallest h n k = 2 * k + 2 := by
  simp only [smallest]
  split
  · exact if_pos ⟨hr, hlr⟩
  · exact if_pos ⟨hr, hlt⟩

end

/-! ## Sifting down -/

/-- The order holds between positions from i on and their children, but for the children of k, whose keys are not smaller
than that of k's parent. The state of HEAPIFY_DOWN on its way down. -/
structure OrderedButBelow (h : Arr HeapEntry 256) (n i k : Nat) : Prop where
  edge : ∀ j, j < n → 1 ≤ j → i ≤ (j - 1) / 2 → (j - 1) / 2 ≠ k → key h ((j - 1) / 2) ≤ key h j
  across : ∀ j, j < n → 1 ≤ j → (j - 1) / 2 = k → 1 ≤ k → i ≤ (k - 1) / 2 → key h ((k - 1) / 2) ≤ key h j

namespace OrderedButBelow

variable {h : Arr HeapEntry 256} {n i k : Nat}

/-- Order strictly below a position is order but for its children. -/
theorem of_orderedFrom (ho : OrderedFrom h n (k + 1)) : OrderedButBelow h n k k where
  edge j hj h1 hi hne := ho j hj h1 (by omega)
  across := by omega

/-- With the children of k in order too, nothing is missing. -/
theorem orderedFrom (ho : OrderedButBelow h n i k)
    (he : ∀ j, j < n → 1 ≤ j → (j - 1) / 2 = k → key h k ≤ key h j) : OrderedFrom h n i := by
  refine orderedFrom_iff.2 fun j hj h1 hi => ?_
  by_cases hk : (j - 1) / 2 = k
  · rw [hk]; exact he j hj h1 hk
  · exact ho.edge j hj h1 hi hk

/-- The exchange with the smallest child moves the one place out of order down to it. -/
theorem swap (ho : OrderedButBelow h n i k) (hn : n ≤ 256) (hik : i ≤ k) (hm : smallest h n k ≠ k) :
    OrderedButBelow (heapSwap h k (smallest h n k)) n i (smallest h n k) := by
  obtain ⟨hmn, hm1, hmk⟩ := smallest_child hm
  have hleast : ∀ j, j < n → 1 ≤ j → (j - 1) / 2 = k → key h (smallest h n k) ≤ key h j :=
    fun j => key_smallest_le_child
  have hle : key h (smallest h n k) ≤ key h k := (smallest_le h n k).1
  generalize smallest h n k = m at *
  have hswap := key_heapSwap h (show k < 256 by omega) (show m < 256 by omega)
  have hkm : k ≠ m := by omega
  constructor
  · intro j hj h1 hi hne
    rw [hswap, hswap, if_neg hne]
    by_cases hk : (j - 1) / 2 = k
    · rw [if_pos hk, if_neg (by omega)]
      split
      · exact hle
      · exact hleast j hj h1 hk
    · rw [if_neg hk]
      by_cases hjk : j = k
      · subst hjk
        rw [if_pos rfl]
        exact ho.across m hmn hm1 hmk h1 hi
      · rw [if_neg hjk, if_neg (by rintro rfl; exact hk hmk)]
        exact ho.edge j hj h1 hi hk
  · intro j hj h1 hjm _ _
    rw [hswap, hswap, if_pos hmk, if_neg (by omega), if_neg (by omega)]
    exact hjm ▸ ho.edge j hj h1 (by omega) (by omega)

end OrderedButBelow

/-- R151's loop restores the order from i on, given enough turns to reach the last position. -/
theorem siftDown_ordered {fuel : Nat} {h : Arr HeapEntry 256} {n i k : Nat} (hn : n ≤ 256) (hik : i ≤ k)
    (hfuel : n ≤ fuel + k) (ho : OrderedButBelow h n i k) : OrderedFrom (siftDown fuel h n k) n i := by
  induction fuel generalizing h k with
  | zero => exact ho.orderedFrom fun j hj h1 hjk => by omega
  | succ fuel ih =>
    rw [siftDown_succ]
    split
    next hm => exact ho.orderedFrom fun j hj h1 hjk => hm ▸ key_smallest_le_child hj h1 hjk
    next hm =>
      have := smallest_child hm
      exact ih (by omega) (by omega) (ho.swap hn hik hm)

/-- R151's loop only moves entries. -/
theorem siftDown_perm (fuel : Nat) (h : Arr HeapEntry 256) {n : Nat} (hn : n ≤ 256) (k : Nat) :
    (siftDown fuel h n k).cells.Perm h.cells := by
  induction fuel generalizing h k with
  | zero => exact .refl _
  | succ fuel ih =>
    rw [siftDown_succ]
    split
    next => exact .refl _
    next hm =>
      have := smallest_child hm
      exact (ih _ _).trans (heapSwap_perm h (by omega) (by omega))

/-- R151's loop moves nothing above the position it begins at, nor beyond the queue. -/
theorem siftDown_frame (fuel : Nat) (h : Arr HeapEntry 256) {n k j : Nat} (hj : j < k ∨ n ≤ j) :
    heapAt (siftDown fuel h n k) j = heapAt h j := by
  induction fuel generalizing h k with
  | zero => rfl
  | succ fuel ih =>
    rw [siftDown_succ]
    split
    next => rfl
    next hm =>
      have := smallest_child hm
      rw [ih _ (by omega), heapAt_swap_ne h (by omega) (by omega)]

/-- Turns beyond those that reach the last position change nothing. -/
theorem siftDown_fuel {fuel : Nat} {h : Arr HeapEntry 256} {n k : Nat} (hfuel : n ≤ fuel + k) :
    siftDown (fuel + 1) h n k = siftDown fuel h n k := by
  induction fuel generalizing h k with
  | zero => exact if_pos (smallest_eq_self_of_edges fun j hj h1 hjk => by omega)
  | succ fuel ih =>
    rw [siftDown_succ (fuel + 1), siftDown_succ fuel h]
    split
    next => rfl
    next hm =>
      have := smallest_child hm
      exact ih (by omega)

/-! ## HEAPIFY_DOWN -/

section

variable {h : Arr HeapEntry 256} {n k : Nat}

/-- R151 as a recursion: stop where no child is strictly smaller, else swap and go on from the child. -/
theorem heapifyDown_eq (hn : n ≤ 256) : heapifyDown h n k =
    if smallest h n k = k then h else heapifyDown (heapSwap h k (smallest h n k)) n (smallest h n k) := by
  rw [heapifyDown, siftDown_succ]
  split
  next => rfl
  next hm =>
    have := smallest_child hm
    exact (siftDown_fuel (by omega)).symm

/-- HEAPIFY_DOWN restores the order at a position below which it held (R151). -/
theorem heapifyDown_ordered (hn : n ≤ 256) (ho : OrderedFrom h n (k + 1)) : OrderedFrom (heapifyDown h n k) n k :=
  siftDown_ordered hn le_rfl (by simp only [Config.heapCap]; omega) (.of_orderedFrom ho)

theorem heapifyDown_perm (hn : n ≤ 256) : (heapifyDown h n k).cells.Perm h.cells := siftDown_perm _ h hn k

theorem heapifyDown_frame {j : Nat} (hj : j < k ∨ n ≤ j) : heapAt (heapifyDown h n k) j = heapAt h j :=
  siftDown_frame _ h hj

/-- A position whose children are not strictly smaller stays (R151). -/
theorem heapifyDown_self (he : ∀ j, j < n → 1 ≤ j → (j - 1) / 2 = k → key h k ≤ key h j) : heapifyDown h n k = h :=
  if_pos (smallest_eq_self_of_edges he)

end

/-- HSIZE is at most 256 (R27). -/
theorem hsize_le (q : Queue) : q.hsize.val ≤ 256 := Nat.le_of_lt_succ q.hsize.isLt

theorem exec_heapifyDown (i : Byte) (s : State) : exec (.heapifyDown i) s =
    .next { s with pq := { heap := heapifyDown s.pq.heap s.pq.hsize.val i.toNat, hsize := s.pq.hsize } } := rfl

/-- Settles O20: the order, the permutation and the frame of R151's loop, and its recursion `heapifyDown_eq` with the
strict comparisons that choose the child. -/
theorem heapifyDownRestoresOrder : Obligations.HeapifyDownRestoresOrder := by
  refine ⟨fun s i ho => ⟨_, exec_heapifyDown i s, heapifyDown_ordered (hsize_le _) ho, heapifyDown_perm (hsize_le _),
    fun j hj => heapifyDown_frame hj⟩, fun s i => ⟨fun hl hr => ?stop, fun m h hm hswap hlt hchild => ?goOn⟩⟩
  case stop =>
    have hself : heapifyDown s.pq.heap s.pq.hsize.val i.toNat = s.pq.heap :=
      if_pos (smallest_eq_self s.pq.heap s.pq.hsize.val i.toNat hl hr)
    rw [exec_heapifyDown, hself]
  case goOn =>
    have hsmallest : smallest s.pq.heap s.pq.hsize.val i.toNat = m.toNat := by
      rcases hchild with ⟨hml, hr⟩ | ⟨hmr, hlr⟩
      · rw [hml] at hm hlt ⊢; exact smallest_eq_left hm hlt hr
      · rw [hmr] at hm hlt ⊢; exact smallest_eq_right hm hlt hlr
    have hne : m.toNat ≠ i.toNat := fun e => Nat.lt_irrefl _ (e ▸ hlt)
    have hdown := heapifyDown_eq (h := s.pq.heap) (k := i.toNat) (hsize_le s.pq)
    rw [hsmallest, if_neg hne, ← (swapped_iff i.isLt m.isLt).1 hswap] at hdown
    rw [exec_heapifyDown, exec_heapifyDown, hdown]

end Sys2Proof.Machine

/-! PROOFS. BUILD_HEAP, PQ_INSERT and PQ_EXTRACT_MIN (42_priority_queue.md R152 to R154, R157): the queue each leaves, its
order, and its entries as a permutation of those before. -/
namespace Sys2Proof.Machine

/-! ## Queues and their entries -/

/-- Queues of one length that read alike at every position are equal. -/
theorem queue_ext {q r : Queue} (hsize : q.hsize.val = r.hsize.val) (hheap : ∀ j, heapAt q.heap j = heapAt r.heap j) :
    q = r := by
  obtain ⟨a, n⟩ := q
  obtain ⟨b, m⟩ := r
  exact congrArg₂ Queue.mk (heap_ext fun j _ => hheap j) (Fin.ext hsize)

/-- Where HEAP is only rearranged, and not from position n on, its first n entries are only rearranged. -/
theorem take_perm_of_frame {g h : Arr HeapEntry 256} {n : Nat} (hperm : g.cells.Perm h.cells)
    (hframe : ∀ j, n ≤ j → heapAt g j = heapAt h j) : (g.cells.take n).Perm (h.cells.take n) := by
  have hdrop : g.cells.drop n = h.cells.drop n := by
    refine List.ext_getElem (by simp only [List.length_drop, g.size, h.size]) fun k hk _ => ?_
    have hlt : n + k < 256 := by rw [List.length_drop, g.size] at hk; omega
    have := hframe (n + k) (Nat.le_add_right n k)
    rwa [heapAt_eq_getElem g hlt, heapAt_eq_getElem h hlt, ← List.getElem_drop, ← List.getElem_drop] at this
  refine (List.perm_append_right_iff (h.cells.drop n)).1 ?_
  rwa [List.take_append_drop, ← hdrop, List.take_append_drop]

/-- The entries are what HEAP holds below HSIZE (R27). -/
theorem exists_position_of_mem_entries {q : Queue} {x : HeapEntry} (hx : x ∈ entries q) :
    ∃ j, j < q.hsize.val ∧ heapAt q.heap j = x := by
  obtain ⟨j, hj, rfl⟩ := List.mem_iff_getElem.1 hx
  have hlen : j < min q.hsize.val q.heap.cells.length := by rw [← List.length_take]; exact hj
  have hlt : j < q.hsize.val := by omega
  refine ⟨j, hlt, ?_⟩
  rw [heapAt_eq_getElem q.heap (hlt.trans_le (hsize_le q))]
  exact (List.getElem_take ..).symm

/-- An empty queue is in order. -/
theorem heapOrdered_of_empty {q : Queue} (h : q.hsize.val = 0) : HeapOrdered q := fun j hj => by omega

/-- In a queue in order no key is smaller than the one at position 0. -/
theorem key_root_le {q : Queue} (ho : HeapOrdered q) {j : Nat} (hj : j < q.hsize.val) :
    key q.heap 0 ≤ key q.heap j := by
  induction j using Nat.strong_induction_on with
  | _ j ih =>
    by_cases h0 : j = 0
    · rw [h0]
    · exact (ih ((j - 1) / 2) (by omega) (by omega)).trans (orderedFrom_iff.1 ho j hj (by omega) (Nat.zero_le _))

/-! ## BUILD_HEAP -/

section

variable {h : Arr HeapEntry 256} {n k : Nat}

/-- HEAPIFY_DOWN from k − 1 down to 0 orders what is ordered from k on. -/
theorem heapifyFrom_ordered (hn : n ≤ 256) (ho : OrderedFrom h n k) : OrderedFrom (heapifyFrom n k h) n 0 := by
  induction k generalizing h with
  | zero => exact ho
  | succ k ih => exact ih (heapifyDown_ordered hn ho)

theorem heapifyFrom_perm (hn : n ≤ 256) : (heapifyFrom n k h).cells.Perm h.cells := by
  induction k generalizing h with
  | zero => exact .refl _
  | succ k ih => exact ih.trans (heapifyDown_perm hn)

theorem heapifyFrom_frame {j : Nat} (hj : n ≤ j) : heapAt (heapifyFrom n k h) j = heapAt h j := by
  induction k generalizing h with
  | zero => rfl
  | succ k ih => exact ih.trans (heapifyDown_frame (.inr hj))

/-- From the middle on no position has a child (R152). -/
theorem orderedFrom_half : OrderedFrom h n (n / 2) := fun j hj h1 hi => by omega

end

/-- The queue BUILD_HEAP leaves (R152). -/
def rebuilt (q : Queue) : Queue := { heap := buildHeap q.heap q.hsize.val, hsize := q.hsize }

theorem rebuilt_ordered (q : Queue) : HeapOrdered (rebuilt q) := heapifyFrom_ordered (hsize_le q) orderedFrom_half

theorem rebuilt_frame (q : Queue) {j : Nat} (hj : q.hsize.val ≤ j) : heapAt (rebuilt q).heap j = heapAt q.heap j :=
  heapifyFrom_frame hj

theorem rebuilt_perm (q : Queue) : (entries (rebuilt q)).Perm (entries q) :=
  take_perm_of_frame (heapifyFrom_perm (hsize_le q)) fun _ => rebuilt_frame q

theorem exec_buildHeap (s : State) : exec .buildHeap s = .next { s with pq := rebuilt s.pq } := rfl

/-- HEAPIFY_DOWN as an operation at k − 1 down to 0, one after the other (R152). -/
theorem execAll_heapifyDown {k : Nat} (hk : k ≤ 256) (s : State) :
    execAll ((List.range k).reverse.map fun i => .heapifyDown (BitVec.ofNat 8 i)) s =
      .next { s with pq := { heap := heapifyFrom s.pq.hsize.val k s.pq.heap, hsize := s.pq.hsize } } := by
  induction k generalizing s with
  | zero => rfl
  | succ k ih =>
    have htoNat : (BitVec.ofNat 8 k).toNat = k := by rw [BitVec.toNat_ofNat]; omega
    simp only [List.range_succ, List.reverse_append, List.reverse_singleton, List.singleton_append, List.map_cons,
      execAll, exec_heapifyDown, htoNat, ih (Nat.le_of_succ_le hk)]
    rfl

/-- Settles O21: BUILD_HEAP is R152's loop, which only moves entries and leaves them in order. -/
theorem buildHeapOrdersAnyContent : Obligations.BuildHeapOrdersAnyContent := fun s =>
  have hhalf : s.pq.hsize.val / 2 ≤ 256 := (Nat.div_le_self _ _).trans (hsize_le s.pq)
  ⟨rebuilt s.pq, exec_buildHeap s, execAll_heapifyDown hhalf s, rfl, rebuilt_ordered _, rebuilt_perm _,
    fun _ => rebuilt_frame s.pq⟩

/-! ## PQ_INSERT -/

/-- The queue with an entry appended (R153). -/
def appended (e : HeapEntry) (q : Queue) (room : q.hsize.val < 256) : Queue :=
  { heap := heapPut q.heap q.hsize.val e, hsize := ⟨q.hsize.val + 1, Nat.succ_lt_succ room⟩ }

theorem heapAt_appended {e : HeapEntry} {q : Queue} (room : q.hsize.val < 256) (j : Nat) :
    heapAt (appended e q room).heap j = if j = q.hsize.val then e else heapAt q.heap j := by
  split
  next hj => rw [hj]; exact heapAt_heapPut_same q.heap e room
  next hj => exact heapAt_heapPut_ne q.heap e hj

theorem entries_appended (e : HeapEntry) (q : Queue) (room : q.hsize.val < 256) :
    entries (appended e q room) = entries q ++ [e] := by
  have hlt : q.hsize.val < (q.heap.cells.set q.hsize.val e).length := by rw [List.length_set, q.heap.size]; exact room
  change (q.heap.cells.set q.hsize.val e).take (q.hsize.val + 1) = q.heap.cells.take q.hsize.val ++ [e]
  rw [← List.take_concat_get' _ _ hlt, List.take_set_of_le le_rfl, List.getElem_set_self]

/-- PQ_INSERT with room is BUILD_HEAP on the queue with the entry appended (R153). -/
theorem pqInsert_eq (e : HeapEntry) {q : Queue} (room : q.hsize.val < 256) :
    pqInsert e q = .ok (rebuilt (appended e q room)) := dif_pos room

theorem exec_pqInsert_eq (e : HeapEntry) {s : State} (room : s.pq.hsize.val < 256) :
    exec (.pqInsert e) s = .next { s with pq := rebuilt (appended e s.pq room) } := by
  simp only [exec, execPqInsert, insertEntry, pqInsert_eq e room, settle_ok]

theorem exec_pqInsert_full (e : HeapEntry) {s : State} (full : s.pq.hsize.val = 256) :
    exec (.pqInsert e) s = .next (raise .queueFull 0 s) := by
  simp only [exec, execPqInsert, insertEntry, pqInsert_full e full.not_lt, settle_error]

/-- An insertion leaves the queue in order, whatever it held (R153). -/
theorem pqInsert_ordered {e : HeapEntry} {q r : Queue} (h : pqInsert e q = .ok r) : HeapOrdered r := by
  have room := (pqInsert_ok h).1
  cases (pqInsert_eq e room).symm.trans h
  exact rebuilt_ordered _

/-- Settles O22: with room the queue is `rebuilt` from the appended one; at 256 entries it is the fault. -/
theorem insertAddsOneEntry : Obligations.InsertAddsOneEntry := by
  refine fun s e => ⟨fun room => ⟨_, exec_pqInsert_eq e room, rfl, rebuilt_ordered _, ?perm, ?frame, ?build⟩, ?full⟩
  case perm =>
    refine (rebuilt_perm _).trans ?_
    rw [entries_appended]
    exact List.perm_append_singleton e _
  case frame =>
    intro j hj
    rw [rebuilt_frame _ hj, heapAt_appended, if_neg hj.ne']
  case build =>
    intro p hsize hheap
    have hp : p = appended e s.pq room := queue_ext hsize fun j => (hheap j).trans (heapAt_appended room j).symm
    rw [exec_buildHeap, hp]
  case full =>
    intro full hs
    rw [exec_pqInsert_full e full, raise_eq s _ _ hs]

/-! ## PQ_EXTRACT_MIN -/

/-- The queue with its last entry moved to position 0 (R154). -/
def lastToRoot (q : Queue) : Queue where
  heap := heapPut q.heap 0 (heapAt q.heap (q.hsize.val - 1))
  hsize := ⟨q.hsize.val - 1, (Nat.sub_le _ _).trans_lt q.hsize.isLt⟩

/-- The queue HEAPIFY_DOWN(0) leaves (R151). -/
def rootSifted (q : Queue) : Queue := { heap := heapifyDown q.heap q.hsize.val 0, hsize := q.hsize }

theorem heapAt_lastToRoot (q : Queue) (j : Nat) :
    heapAt (lastToRoot q).heap j = heapAt q.heap (if j = 0 then q.hsize.val - 1 else j) := by
  split
  next hj => rw [hj]; exact heapAt_heapPut_same q.heap _ (by decide)
  next hj => exact heapAt_heapPut_ne q.heap _ hj

/-- Taking the first entry out and moving the last one to its place leaves the others. -/
theorem take_succ_perm {α : Type} (l : List α) {n : Nat} (hn : n < l.length) :
    (l.take (n + 1)).Perm (l[0]'(Nat.zero_lt_of_lt hn) :: (l.set 0 l[n]).take n) := by
  cases l with
  | nil => exact absurd hn (Nat.not_lt_zero n)
  | cons a l =>
    cases n with
    | zero => exact .refl _
    | succ n =>
      refine .cons a ?_
      rw [← List.take_concat_get' l n (Nat.lt_of_succ_lt_succ hn)]
      exact List.perm_append_singleton _ _

theorem entries_lastToRoot {q : Queue} (h : 0 < q.hsize.val) :
    (entries q).Perm (heapAt q.heap 0 :: entries (lastToRoot q)) := by
  have hle := hsize_le q
  have hlt : q.hsize.val - 1 < q.heap.cells.length := by rw [q.heap.size]; omega
  have := take_succ_perm q.heap.cells hlt
  rwa [Nat.sub_add_cancel h, ← heapAt_eq_getElem q.heap (by decide), ← heapAt_eq_getElem q.heap (by omega)] at this

theorem rootSifted_frame (q : Queue) {j : Nat} (hj : q.hsize.val ≤ j) :
    heapAt (rootSifted q).heap j = heapAt q.heap j := heapifyDown_frame (.inr hj)

theorem rootSifted_perm (q : Queue) : (entries (rootSifted q)).Perm (entries q) :=
  take_perm_of_frame (heapifyDown_perm (hsize_le q)) fun _ => rootSifted_frame q

/-- Moving the last entry to position 0 leaves the order below it, and HEAPIFY_DOWN(0) restores it all (R154). -/
theorem rootSifted_lastToRoot_ordered {q : Queue} (ho : HeapOrdered q) : HeapOrdered (rootSifted (lastToRoot q)) := by
  refine heapifyDown_ordered (hsize_le _) fun j hj h1 hi => ?_
  have hj' : j < q.hsize.val - 1 := hj
  rw [heapAt_lastToRoot, heapAt_lastToRoot, if_neg (by omega), if_neg (by omega)]
  exact ho j (by omega) h1 (Nat.zero_le _)

/-- PQ_EXTRACT_MIN on a queue that is not empty: the entry at position 0, and HEAPIFY_DOWN(0) with the last entry there;
for the last entry of all that is nothing (R154). -/
theorem pqExtractMin_eq {q : Queue} (h : 0 < q.hsize.val) :
    pqExtractMin q = .ok (heapAt q.heap 0, rootSifted (lastToRoot q)) := by
  obtain ⟨r, hr⟩ := pqExtractMin_some h.ne'
  obtain ⟨-, -, hsize, hheap⟩ := pqExtractMin_ok hr
  have hq : r = rootSifted (lastToRoot q) := by
    refine queue_ext hsize fun j => congrArg (heapAt · j) (hheap.trans ?_)
    split
    next => rfl
    next hn =>
      have hsame : (lastToRoot q).heap = q.heap := heap_ext fun j _ => by
        rw [heapAt_lastToRoot]
        split <;> [(congr 1; omega); rfl]
      have hleaf : (lastToRoot q).hsize.val ≤ 2 * 0 + 1 := by
        change q.hsize.val - 1 ≤ _
        omega
      rw [rootSifted, heapifyDown_leaf _ hleaf, hsame]
  rw [hr, hq]

theorem exec_pqExtractMin_eq {s : State} (h : 0 < s.pq.hsize.val) : exec .pqExtractMin s =
    .next { s with pq := rootSifted (lastToRoot s.pq), pqOut := heapAt s.pq.heap 0 } := by
  simp only [exec, execPqExtractMin, extractEntry, pqExtractMin_eq h, settle_ok]

theorem exec_pqExtractMin_empty {s : State} (h : s.pq.hsize.val = 0) :
    exec .pqExtractMin s = .next (raise .queueEmpty 0 s) := by
  simp only [exec, execPqExtractMin, extractEntry, pqExtractMin_empty h, settle_error]

/-- An extraction keeps the order (R154). -/
theorem pqExtractMin_ordered {q r : Queue} {e : HeapEntry} (ho : HeapOrdered q) (h : pqExtractMin q = .ok (e, r)) :
    HeapOrdered r := by
  cases (pqExtractMin_eq (Nat.pos_of_ne_zero (pqExtractMin_ok h).1)).symm.trans h
  exact rootSifted_lastToRoot_ordered ho

/-- Settles O24: the queue left is `rootSifted (lastToRoot q)`; its order, entries and frame, and the fault at 0. -/
theorem extractRemovesTheMinimum : Obligations.ExtractRemovesTheMinimum := by
  refine fun s => ⟨?mechanism, fun ho hpos => ⟨_, exec_pqExtractMin_eq hpos, Nat.sub_add_cancel hpos,
    rootSifted_lastToRoot_ordered ho, ?perm, ?least, ?frame⟩, ?empty⟩
  case mechanism =>
    intro p hsize hheap
    have hlast : p.hsize.val = s.pq.hsize.val - 1 := by omega
    have hp : p = lastToRoot s.pq := queue_ext hlast fun j => by rw [hheap, heapAt_lastToRoot, hlast]
    rw [exec_pqExtractMin_eq (by omega), hp]
    rfl
  case perm => exact (entries_lastToRoot hpos).trans (.cons _ (rootSifted_perm _).symm)
  case least =>
    intro x hx
    obtain ⟨j, hj, rfl⟩ := exists_position_of_mem_entries hx
    exact key_root_le ho hj
  case frame =>
    intro j hj
    have hj' : s.pq.hsize.val - 1 ≤ j := hj
    rw [rootSifted_frame (lastToRoot s.pq) hj, heapAt_lastToRoot]
    split <;> [(congr 1; omega); rfl]
  case empty =>
    intro h0 hs
    rw [exec_pqExtractMin_empty h0, raise_eq s _ _ hs]

/-! ## Every step keeps the order -/

/-- Loading the leaves keeps the order (43_tree_builder.md R171). -/
theorem loadLeaves_ordered {n : Nat} {l : List Word32} {q r : Queue} (ho : HeapOrdered q)
    (h : loadLeaves n l q = .ok r) : HeapOrdered r := by
  induction l generalizing n q with
  | nil => cases h; exact ho
  | cons f rest ih =>
    simp only [loadLeaves] at h
    split at h
    · exact ih ho h
    · split at h
      next hq => exact ih (pqInsert_ordered hq) h
      next => cases h

namespace HeapOrdered

variable {s t : State}

/-- A command accepted in a ready state keeps the order: none but CLEAR touches the queue. -/
theorem command (h : HeapOrdered s.pq) {w : CmdWord} (he : CommandEffect w s t) : HeapOrdered t.pq := by
  cases he with
  | illegal => rwa [illegalCommand_pq]
  | raised k info hs hk => rwa [raise_pq]
  | clear hw => exact heapOrdered_of_empty rfl
  | _ => exact h

/-- CORE's operation keeps the order. -/
theorem core (h : HeapOrdered s.pq) (he : CoreEffect s t) : HeapOrdered t.pq := by
  cases he with
  | init hs => exact heapOrdered_of_empty rfl
  | load q hs hq => exact loadLeaves_ordered h hq
  | extractA q hs hq => exact pqExtractMin_ordered h hq
  | extractB q hs hq => exact pqExtractMin_ordered h hq
  | insert a q hs ha hq => exact pqInsert_ordered hq
  | queueFault k hs hk => rwa [raise_pq]
  | emitBit hs hl room => rwa [putBit_pq]
  | _ => exact h

/-- A step without a request on the wires keeps the order. -/
theorem step (h : HeapOrdered s.pq) (he : StepEffect s t) : HeapOrdered t.pq := by
  cases he with
  | reset ht => exact heapOrdered_of_empty rfl
  | wait => exact h
  | @command w cs _ hb hc he => exact command (s := { begun s with cmds := cs }) h he
  | core he => exact core (s := begun s) h he
  | pop ho => exact h

/-- An insertion by itself keeps the order, the fault too. -/
theorem insert (h : HeapOrdered s.pq) {e : HeapEntry} (hx : execPqInsert e s = .next t) : HeapOrdered t.pq := by
  rcases settle_cases hx with hok | ⟨k, -, rfl⟩
  · rcases insertEntry_cases e s with ⟨q, hq, hi⟩ | ⟨k, -, hi⟩ <;> cases hi.symm.trans hok
    exact pqInsert_ordered hq
  · rwa [raise_pq]

/-- An extraction by itself keeps the order, the fault too. -/
theorem extract (h : HeapOrdered s.pq) (hx : execPqExtractMin s = .next t) : HeapOrdered t.pq := by
  rcases settle_cases hx with hok | ⟨k, -, rfl⟩
  · rcases extractEntry_cases s with ⟨q, hq, hi⟩ | ⟨-, hi⟩ <;> cases hi.symm.trans hok
    exact pqExtractMin_ordered h hq
  · rwa [raise_pq]

end HeapOrdered

/-- Settles O51: a request on the wires is an insertion or an extraction; any other step is one of `StepEffect`, of which
TB_LOAD, TB_XA, TB_XB and TB_INS write the queue through those two. -/
theorem stepKeepsHeapOrder : Obligations.StepKeepsHeapOrder := by
  intro s t h hstep
  cases hreq : s.pqReq with
  | idle => exact h.step (step_effect hreq hstep)
  | insert e =>
    have hx := ((step_request s).1 e hreq).symm.trans hstep
    exact HeapOrdered.insert (s := { s with rsp := none, pqReq := .idle }) h hx
  | extractMin =>
    have hx := ((step_request s).2 hreq).symm.trans hstep
    exact HeapOrdered.extract (s := { s with rsp := none, pqReq := .idle }) h hx

end Sys2Proof.Machine

/-! PROOFS. With the heap in order, PQ_INSERT is a strict sift-up (42_priority_queue.md R156): BUILD_HEAP from the last
parent down moves the appended entry one place up at each of its ancestors and nothing anywhere else. -/
namespace Sys2Proof.Machine

/-- One turn of R156's loop. -/
theorem siftUp_succ (fuel : Nat) (h : Arr HeapEntry 256) (j : Nat) :
    siftUp (fuel + 1) h j =
      if 0 < j ∧ key h j < key h ((j - 1) / 2) then siftUp fuel (heapSwap h j ((j - 1) / 2)) ((j - 1) / 2) else h := rfl

/-- R156's loop stops at once at an entry that is not strictly smaller than its parent. -/
theorem siftUp_self {h : Arr HeapEntry 256} {j : Nat} (hj : ¬ (0 < j ∧ key h j < key h ((j - 1) / 2))) (fuel : Nat) :
    siftUp fuel h j = h := by
  cases fuel with
  | zero => rfl
  | succ fuel => rw [siftUp_succ, if_neg hj]

/-- The order holds but for the entry at k under its parent, and the keys of k's children are not smaller than that
parent's. The state of a sift-up on its way up. -/
structure OrderedButAbove (h : Arr HeapEntry 256) (n k : Nat) : Prop where
  edge : ∀ j, j < n → 1 ≤ j → j ≠ k → key h ((j - 1) / 2) ≤ key h j
  across : ∀ j, j < n → 1 ≤ j → (j - 1) / 2 = k → 1 ≤ k → key h ((k - 1) / 2) ≤ key h j

/-- A queue in order with an entry appended is in order but for that entry. -/
theorem appended_orderedButAbove {e : HeapEntry} {q : Queue} (ho : HeapOrdered q) (room : q.hsize.val < 256) :
    OrderedButAbove (appended e q room).heap (q.hsize.val + 1) q.hsize.val where
  edge j hj h1 hne := by
    simp only [key, heapAt_appended room, if_neg hne, if_neg (show (j - 1) / 2 ≠ q.hsize.val by omega)]
    exact ho j (by omega) h1 (Nat.zero_le _)
  across := by omega

namespace OrderedButAbove

variable {h : Arr HeapEntry 256} {n k : Nat}

/-- Where the entry is not smaller than its parent, nothing is out of order. -/
theorem orderedFrom (ho : OrderedButAbove h n k) (hk : ¬ (0 < k ∧ key h k < key h ((k - 1) / 2))) :
    OrderedFrom h n 0 := by
  refine orderedFrom_iff.2 fun j hj h1 _ => ?_
  by_cases hjk : j = k
  · subst hjk; omega
  · exact ho.edge j hj h1 hjk

/-- The exchange with a larger parent moves the one place out of order up to it. -/
theorem swap (ho : OrderedButAbove h n k) (hk : k < n) (hn : n ≤ 256) (h0 : 0 < k)
    (hlt : key h k < key h ((k - 1) / 2)) : OrderedButAbove (heapSwap h k ((k - 1) / 2)) n ((k - 1) / 2) := by
  generalize hp : (k - 1) / 2 = p at hlt ⊢
  have hswap := key_heapSwap h (show k < 256 by omega) (show p < 256 by omega)
  have hpk : p ≠ k := by omega
  constructor
  · intro j hj h1 hjp
    rw [hswap, hswap, if_neg hjp]
    by_cases hjk : j = k
    · rw [hjk, hp, if_neg hpk, if_pos rfl, if_pos rfl]; exact hlt.le
    · rw [if_neg hjk]
      have hedge := ho.edge j hj h1 hjk
      split
      next hc => exact hp ▸ ho.across j hj h1 hc h0
      next =>
        split
        next hc => rw [hc] at hedge; omega
        next => exact hedge
  · intro j hj h1 hc hp1
    have hgrand := ho.edge p (by omega) hp1 hpk
    rw [hswap, hswap, if_neg (by omega), if_neg (by omega)]
    split
    next => exact hgrand
    next hjk =>
      rw [if_neg (by omega)]
      exact hgrand.trans (hc ▸ ho.edge j hj h1 hjk)

/-- HEAPIFY_DOWN leaves a position alone that is not the parent of the entry out of order. -/
theorem heapifyDown_other (ho : OrderedButAbove h n k) {i : Nat} (hi : 0 < k → (k - 1) / 2 ≠ i) :
    heapifyDown h n i = h :=
  heapifyDown_self fun j hj h1 hji => hji ▸ ho.edge j hj h1 (by rintro rfl; exact hi h1 hji)

/-- HEAPIFY_DOWN at the parent of a smaller entry is one exchange: the parent's key is not above the entry's children. -/
theorem heapifyDown_parent (ho : OrderedButAbove h n k) (hk : k < n) (hn : n ≤ 256) (h0 : 0 < k)
    (hlt : key h k < key h ((k - 1) / 2)) : heapifyDown h n ((k - 1) / 2) = heapSwap h k ((k - 1) / 2) := by
  generalize hp : (k - 1) / 2 = p at hlt ⊢
  have hsmallest : smallest h n p = k := by
    obtain hleft | hright : k = 2 * p + 1 ∨ k = 2 * p + 2 := by omega
    · rw [hleft] at hk hlt ⊢
      refine smallest_eq_left hk hlt fun hr => hlt.le.trans ?_
      have := ho.edge (2 * p + 2) hr (by omega) (by omega)
      rwa [show (2 * p + 2 - 1) / 2 = p by omega] at this
    · rw [hright] at hk hlt ⊢
      refine smallest_eq_right hk hlt (hlt.trans_le ?_)
      have := ho.edge (2 * p + 1) (by omega) (by omega) (by omega)
      rwa [show (2 * p + 1 - 1) / 2 = p by omega] at this
  rw [heapifyDown_eq hn, hsmallest, if_neg (by omega), heapSwap_comm h (by omega) (by omega)]
  have hswap := key_heapSwap h (show k < 256 by omega) (show p < 256 by omega)
  refine heapifyDown_self fun j hj h1 hjk => ?_
  rw [hswap, hswap, if_pos rfl, if_neg (by omega), if_neg (by omega)]
  exact hp ▸ ho.across j hj h1 hjk h0

end OrderedButAbove

/-- BUILD_HEAP's loop leaves what is in order. -/
theorem heapifyFrom_self {h : Arr HeapEntry 256} {n : Nat} (ho : OrderedFrom h n 0) (k : Nat) :
    heapifyFrom n k h = h := by
  induction k with
  | zero => rfl
  | succ k ih =>
    have hk : heapifyDown h n k = h :=
      heapifyDown_self fun j hj h1 hjk => hjk ▸ orderedFrom_iff.1 ho j hj h1 (Nat.zero_le _)
    rw [heapifyFrom, hk, ih]

/-- BUILD_HEAP's loop from above the parent of the one entry out of order sifts that entry up. -/
theorem heapifyFrom_eq_siftUp {k fuel j : Nat} {h : Arr HeapEntry 256} {n : Nat} (ho : OrderedButAbove h n j)
    (hn : n ≤ 256) (hj : j < n) (hfuel : j ≤ fuel) (hparent : j = 0 ∨ (j - 1) / 2 < k) :
    heapifyFrom n k h = siftUp fuel h j := by
  induction k generalizing h j fuel with
  | zero =>
    obtain rfl : j = 0 := by omega
    exact (siftUp_self (fun h0 => absurd h0.1 (Nat.lt_irrefl 0)) fuel).symm
  | succ k ih =>
    by_cases hlt : 0 < j ∧ key h j < key h ((j - 1) / 2)
    · by_cases hk : (j - 1) / 2 = k
      · obtain ⟨fuel, rfl⟩ : ∃ f, fuel = f + 1 := ⟨fuel - 1, by omega⟩
        rw [heapifyFrom, siftUp_succ, if_pos hlt, ← hk, ho.heapifyDown_parent hj hn hlt.1 hlt.2, hk]
        exact ih (hk ▸ ho.swap hj hn hlt.1 hlt.2) (by omega) (by omega) (by omega)
      · rw [heapifyFrom, ho.heapifyDown_other fun _ => hk]
        exact ih ho hj hfuel (by omega)
    · rw [heapifyFrom_self (ho.orderedFrom hlt), siftUp_self hlt]

/-- Settles O23: the appended entry is the only one out of order, and its parent is not past the last one BUILD_HEAP
begins with, so `heapifyFrom_eq_siftUp` applies. -/
theorem insertEqualsSiftUp : Obligations.InsertEqualsSiftUp := by
  intro s e ho room
  have hup : buildHeap (appended e s.pq room).heap (s.pq.hsize.val + 1) =
      siftUp 256 (appended e s.pq room).heap s.pq.hsize.val :=
    heapifyFrom_eq_siftUp (appended_orderedButAbove ho room) room (Nat.lt_succ_self _) room.le (by omega)
  rw [exec_pqInsert_eq e room]
  exact congrArg (fun a => Host.Outcome.next { s with pq := { heap := a, hsize := (appended e s.pq room).hsize } }) hup

end Sys2Proof.Machine

/-! PROOFS. In a run no step stops and none raises a queue fault (42_priority_queue.md R158, 20_memory.md R66,
43_tree_builder.md R178; log 13, 14): what the invariants say where an operation could stop or raise, and then what each
agent's step answers. -/
namespace Sys2Proof.Machine

/-! ## The traversal of a tree ends -/

/-- The number of pops a traversal of a tree takes: one for each node (46_sequencer.md R228). -/
def HuffTree.pops : HuffTree → Nat
  | .leaf _ => 1
  | .node _ l r => l.pops + r.pops + 1

theorem HuffTree.pops_add_one (t : HuffTree) : t.pops + 1 = 2 * t.leaves.length := by
  induction t with
  | leaf sym => rfl
  | node id l r hl hr =>
    simp only [pops, leaves, List.length_append]
    omega

theorem isLeaf_leafId (sym : Byte) : isLeaf (leafId sym) = true :=
  (isLeaf_iff _).2 (by rw [leafId, BitVec.toNat_setWidth]; omega)

/-- The traversal of a tree the arena holds writes codes and goes on with what is below it on the stack (R192). -/
theorem traverse_stored {a : Arr Node 255} {t : HuffTree} (ht : t.Stored a) {p : Pending} (hp : p.node = t.rootId)
    (fuel : Nat) (stack : List Pending) (c : Arr CodeEntry 256) :
    ∃ c', traverse a (fuel + t.pops) (p :: stack) c = traverse a fuel stack c' := by
  induction t generalizing p fuel stack c with
  | leaf sym => exact ⟨_, traverse_leaf a fuel stack c (hp ▸ isLeaf_leafId sym)⟩
  | node id l r hl hr =>
    obtain ⟨⟨f, hget⟩, hsl, hsr⟩ := ht
    obtain ⟨c₁, h₁⟩ := hl hsl (p := ⟨l.rootId, p.len + 1, p.bits <<< 1⟩) rfl (fuel + r.pops)
      (⟨r.rootId, p.len + 1, (p.bits <<< 1) ||| 1⟩ :: stack) c
    obtain ⟨c₂, h₂⟩ := hr hsr (p := ⟨r.rootId, p.len + 1, (p.bits <<< 1) ||| 1⟩) rfl fuel stack c₁
    refine ⟨c₂, ?_⟩
    have hnode : arenaGet a p.node = .ok ⟨f, l.rootId, r.rootId⟩ := by rw [hp]; exact hget
    have hfuel : fuel + (HuffTree.node id l r).pops = fuel + r.pops + l.pops + 1 := by simp only [HuffTree.pops]; omega
    rw [hfuel, traverse_node a _ stack c hnode]
    exact h₁.trans h₂

/-- CG_GEN answers a table where ROOT names a tree over the present symbols (R191, R228). -/
theorem genCode_answers {s : State} {t : HuffTree} (h : IsRootTree s t) : ∃ c, genCode s = .ok c := by
  obtain ⟨hforest, hroot⟩ := h
  unfold genCode
  split
  next hleaf => exact ⟨_, if_pos hleaf⟩
  next =>
    have hleaves : t.leaves.length ≤ 256 := by
      have := hforest.leaves.length_eq
      rw [List.flatMap_singleton] at this
      exact this.trans_le (length_presentSyms_le s.freq)
    have hpops := t.pops_add_one
    obtain ⟨fuel, hfuel⟩ : ∃ f, Config.maxPops = f + t.pops := ⟨511 - t.pops, by simp only [Config.maxPops]; omega⟩
    obtain ⟨c, hc⟩ := traverse_stored (hforest.stored t (List.mem_singleton_self t)).1 (p := ⟨s.root, 0, 0⟩) hroot.symm
      fuel [] s.code
    rw [traverseRoot, hfuel]
    exact ⟨c, hc.trans (traverse_nil _ _ _)⟩

/-! ## The queue has room, or an entry -/

/-- Loading raises nothing where every count has room for a leaf (R171). -/
theorem loadLeaves_room {n : Nat} {l : List Word32} {q : Queue} (room : q.hsize.val + l.length ≤ 256) :
    ∃ r, loadLeaves n l q = .ok r := by
  induction l generalizing n q with
  | nil => exact ⟨q, rfl⟩
  | cons f rest ih =>
    rw [List.length_cons] at room
    simp only [loadLeaves]
    split
    next => exact ih (by omega)
    next =>
      have hroom : q.hsize.val < 256 := by omega
      rw [pqInsert_eq _ hroom]
      exact ih (by change q.hsize.val + 1 + _ ≤ _; omega)

/-! ## What CORE answers -/

/-- What the invariants say where CORE could stop or raise: the ranges of the build, at most 256 symbols, and a tree
under ROOT in S_GEN. -/
structure CoreReady (s : State) : Prop where
  build : BuildOk s
  symbols : inRun s.seq = true → s.usc.toNat ≤ 256
  tree : s.seq = .gen → ∃ c, genCode s = .ok c

theorem RunOk.coreReady {s : State} (h : RunOk s) : CoreReady s where
  build := h.build
  symbols hr := (h.counts hr).2.trans_le (length_presentSyms_le s.freq)
  tree hs := by
    have hforest := h.forest
    simp only [ForestOk, hs] at hforest
    obtain ⟨t, ht⟩ := hforest
    exact genCode_answers ht

/-- Clearing the response port and taking the turn changes none of this. -/
theorem CoreReady.begun {s : State} (h : CoreReady s) : CoreReady (begun s) := ⟨h.build, h.symbols, h.tree⟩

/-- In a run CORE's operation has a next state, and ERR is as it was (R158, R178). -/
theorem CoreReady.exec_answers {s : State} (h : CoreReady s) {i : Instr} (hi : opOfState s.seq = some i) :
    ∃ t, exec i s = .next t ∧ t.err = s.err := by
  have hbuild := h.build
  unfold BuildOk at hbuild
  cases hs : s.seq <;> rw [hs] at hi hbuild <;> cases hi
  case init => exact ⟨_, rfl, rfl⟩
  case load =>
    obtain ⟨hsize, -, -⟩ := hbuild
    obtain ⟨q, hq⟩ := loadLeaves_room (n := 0) (l := s.freq.cells) (q := s.pq) (by rw [hsize, s.freq.size])
    rcases execTbLoad_cases s with ⟨_, -, e⟩ | ⟨k, hk, -⟩
    · exact ⟨_, e, rfl⟩
    · cases hq.symm.trans hk
  case xa =>
    rcases execTbXa_cases s with ⟨_, -, e⟩ | ⟨h0, -⟩
    · exact ⟨_, e, rfl⟩
    · omega
  case xb =>
    rcases execTbXb_cases s with ⟨_, -, e⟩ | ⟨h0, -⟩
    · exact ⟨_, e, rfl⟩
    · omega
  case ins =>
    have husc := h.symbols (by rw [hs]; rfl)
    obtain ⟨hlow, hsum⟩ := hbuild
    obtain ⟨a, ha⟩ := arenaSet_isOk (a := s.arena) (mergedNode s) hlow (by omega)
    rcases execTbIns_cases s with ⟨_, _, -, -, e⟩ | ⟨hfull, -⟩ | ⟨f, hf, -⟩
    · exact ⟨_, e, rfl⟩
    · omega
    · cases ha.symm.trans hf
  case root => exact ⟨_, rfl, rfl⟩
  case gen =>
    obtain ⟨c, hc⟩ := h.tree hs
    exact ⟨{ s with seq := .pack, code := c }, by simp only [exec, execCgGen, hc, putCode], rfl⟩
  case emit =>
    rcases bpEmit_cases s with ⟨-, e⟩ | ⟨-, -, e⟩ | ⟨-, -, e⟩
    · exact ⟨_, e, rfl⟩
    · exact ⟨_, e, rfl⟩
    · exact ⟨_, e, putBit_err s _⟩
  case flush =>
    rcases bpFlush_cases s with ⟨-, e⟩ | ⟨-, -, e⟩ | ⟨-, -, e⟩ <;> exact ⟨_, e, rfl⟩

/-! ## What the other agents answer -/

/-- The kinds only the queue raises (60_exceptions.md R257, R258). -/
def QueueKind (k : ErrKind) : Prop := k = .queueEmpty ∨ k = .queueFull

/-- A fault of another kind leaves no queue fault that was not there. -/
theorem raise_queueKind {k : ErrKind} (hk : ¬ QueueKind k) (info : CmdWord) (s : State)
    (h : QueueKind (raise k info s).err) : (raise k info s).err = s.err := by
  by_cases hs : s.seq = .fault
  · rw [raise_fault s k info hs]
  · rw [raise_eq s k info hs] at h
    exact absurd h hk

theorem illegalCommand_queueKind (w : CmdWord) (s : State) (h : QueueKind (illegalCommand w s).err) :
    (illegalCommand w s).err = s.err := by
  simp only [illegalCommand, respondZero_err] at h ⊢
  exact raise_queueKind (by simp [QueueKind]) w s h

/-- An acceptance leaves no new queue fault if its effect does not. -/
theorem accept_queueKind {w : CmdWord} {ok : Bool} {legal : List SeqState} {s e : State}
    (he : QueueKind e.err → e.err = s.err) :
    ∃ t, accept w ok legal s e = .next t ∧ (QueueKind t.err → t.err = s.err) := by
  rw [accept_eq]
  refine ⟨_, rfl, ?_⟩
  split
  · exact fun _ => rfl
  · split
    · exact he
    · exact illegalCommand_queueKind w s

/-- A command has a next state and leaves no new queue fault. -/
theorem exec_command_queueKind {w : CmdWord} {i : Instr} (hi : encode i = some (.cmd w)) (s : State) :
    ∃ t, exec i s = .next t ∧ (QueueKind t.err → t.err = s.err) := by
  cases i with
  | nop | start | selsym _ => exact accept_queueKind fun _ => rfl
  | rdfreq | rdlen | rdcode _ | rdreg _ => exact accept_queueKind fun _ => rfl
  | clear => exact accept_queueKind (e := toReset s) (by simp [QueueKind])
  | byte d =>
    refine accept_queueKind ?_
    split
    · rcases freqInc_cases d s with ⟨-, e⟩ | ⟨-, e⟩ <;> rw [e]
      · exact raise_queueKind (by simp [QueueKind]) _ s
      · exact fun _ => rfl
    · rcases packByte_cases d s with ⟨-, e⟩ | ⟨-, e⟩ <;> rw [e]
      · exact raise_queueKind (by simp [QueueKind]) _ s
      · exact fun _ => rfl
  | eos =>
    refine accept_queueKind ?_
    split
    · unfold endScan
      split
      · simp [QueueKind]
      · exact fun _ => rfl
    · exact fun _ => rfl
  | abort k =>
    refine accept_queueKind (raise_queueKind ?_ _ s)
    unfold abortKind
    split <;> simp [QueueKind]
  | _ => cases hi

/-- OUT_POP has a next state and leaves ERR alone. -/
theorem exec_outPop_err (s : State) : ∃ t, exec .outPop s = .next t ∧ t.err = s.err := by
  cases ho : s.outq with
  | nil => exact ⟨s, by simp only [exec, execOutPop, ho], rfl⟩
  | cons b rest => exact ⟨_, outPop_cons ho, rfl⟩

/-! ## What a step answers -/

/-- What the turn of one agent selects, and the state it selects it on. -/
theorem fetchTurn_cases (a : Turn) (s : State) :
    fetchTurn a s = (.reset, s) ∨ fetchTurn a s = (.wait, s) ∨
    (∃ w cs, fetchTurn a s = (.malformed w, { s with cmds := cs })) ∨
    (∃ w cs i, decodeCmd w = .ok i ∧ fetchTurn a s = (.run i, { s with cmds := cs })) ∨
    (∃ i, opOfState s.seq = some i ∧ fetchTurn a s = (.run i, s)) ∨ fetchTurn a s = (.run .outPop, s) := by
  cases a with
  | rst => exact .inl rfl
  | core =>
    simp only [fetchTurn, fetchCore, decodeSeq_seqCode]
    cases opOfState s.seq with
    | none => exact .inr (.inl rfl)
    | some i => exact .inr (.inr (.inr (.inr (.inl ⟨i, rfl, rfl⟩))))
  | hostOut =>
    simp only [fetchTurn, fetchOut]
    split
    · exact .inr (.inr (.inr (.inr (.inr rfl))))
    · exact .inr (.inl rfl)
  | hostCmd =>
    simp only [fetchTurn, fetchCmd]
    split
    · exact .inr (.inl rfl)
    · cases s.cmds with
      | nil => exact .inr (.inl rfl)
      | cons w cs =>
        cases hd : decodeCmd w with
        | error e => exact .inr (.inr (.inl ⟨w, cs, by simp only [hd]⟩))
        | ok i => exact .inr (.inr (.inr (.inl ⟨w, cs, i, hd, by simp only [hd]⟩)))

/-- In a run a step has a next state and leaves no new queue fault. -/
theorem step_answers {s : State} (hp : s.pqReq = .idle) (hcore : CoreReady s) :
    ∃ t, step s = .next t ∧ (QueueKind t.err → t.err = s.err) := by
  rw [step_turn hp]
  rcases fetchTurn_cases (s.turns.head?.getD (defaultTurn s)) { s with rsp := none, turns := s.turns.tail } with
    e | e | ⟨w, cs, e⟩ | ⟨w, cs, i, hd, e⟩ | ⟨i, hi, e⟩ | e <;> rw [e]
  · exact ⟨_, rfl, by simp [QueueKind]⟩
  · exact ⟨_, rfl, fun _ => rfl⟩
  · exact ⟨_, rfl, illegalCommand_queueKind w { begun s with cmds := cs }⟩
  · exact exec_command_queueKind (encode_of_decodeCmd hd) { begun s with cmds := cs }
  · obtain ⟨t, ht, herr⟩ := hcore.begun.exec_answers hi
    exact ⟨t, ht, fun _ => herr⟩
  · obtain ⟨t, ht, herr⟩ := exec_outPop_err (begun s)
    exact ⟨t, ht, fun _ => herr⟩

/-- Settles O54: no step stops or leaves a new queue fault (`step_answers`), and one that stands there stood there in
S_FAULT, since elsewhere ERR is none or EmptyAlphabet. -/
theorem runsNeverStopAndNeverMeetAQueueFault : Obligations.RunsNeverStopAndNeverMeetAQueueFault := by
  intro s h
  obtain ⟨t, ht, hkind⟩ := step_answers h.registers.wires h.coreReady
  refine ⟨t, ht, fun hq => ?_⟩
  have herr := hkind hq
  refine ⟨herr, by_contra fun hs => ?_⟩
  rw [herr] at hq
  obtain ⟨-, hnone | ⟨hempty, -⟩⟩ := h.registers.okErr hs
  · rw [hnone] at hq; simp at hq
  · rw [hempty] at hq; simp at hq

end Sys2Proof.Machine

/-! PROOFS. The Tree Builder's operations (43_tree_builder.md R170 to R175): what its requests leave in the queue, TB_LOAD
as PQ_INSERT of the leaves in ascending order, and each operation's answer. -/
namespace Sys2Proof.Machine

/-! ## What a request of the builder leaves in the queue -/

theorem length_entries (q : Queue) : (entries q).length = q.hsize.val := by
  have := hsize_le q
  rw [entries, List.length_take, q.heap.size]
  omega

/-- An insertion adds its entry (42_priority_queue.md R150, R153). -/
theorem pqInsert_perm {e : HeapEntry} {q r : Queue} (h : pqInsert e q = .ok r) : (entries r).Perm (e :: entries q) := by
  have room := (pqInsert_ok h).1
  cases (pqInsert_eq e room).symm.trans h
  refine (rebuilt_perm _).trans ?_
  rw [entries_appended]
  exact List.perm_append_singleton e _

/-- An extraction takes its entry out (42_priority_queue.md R150, R154). -/
theorem pqExtractMin_perm {e : HeapEntry} {q r : Queue} (h : pqExtractMin q = .ok (e, r)) :
    (entries q).Perm (e :: entries r) := by
  have hpos := Nat.pos_of_ne_zero (pqExtractMin_ok h).1
  cases (pqExtractMin_eq hpos).symm.trans h
  exact (entries_lastToRoot hpos).trans (.cons _ (rootSifted_perm _).symm)

/-! ## TB_ROOT -/

/-- Settles O28: TB_ROOT's meaning is that write and no other. -/
theorem rootIsTheEntryLeft : Obligations.RootIsTheEntryLeft := fun _ => rfl

/-! ## TB_XA and TB_XB -/

/-- TB_XA on a queue that is not empty (R172). -/
theorem exec_tbXa_eq {s : State} (h : 0 < s.pq.hsize.val) : exec .tbXa s = .next { s with
    pq := rootSifted (lastToRoot s.pq), pqOut := heapAt s.pq.heap 0, ea := heapAt s.pq.heap 0, seq := .xb } := by
  simp only [exec, execTbXa, tbXa, extractEntry, pqExtractMin_eq h, settle_ok]

/-- TB_XB on a queue that is not empty (R173). -/
theorem exec_tbXb_eq {s : State} (h : 0 < s.pq.hsize.val) : exec .tbXb s = .next { s with
    pq := rootSifted (lastToRoot s.pq), pqOut := heapAt s.pq.heap 0, eb := heapAt s.pq.heap 0, seq := .ins } := by
  simp only [exec, execTbXb, tbXb, extractEntry, pqExtractMin_eq h, settle_ok]

/-- Settles O26: TB_XA and TB_XB leave the queue PQ_EXTRACT_MIN leaves, and what O24 says of that queue. -/
theorem extractsFillEaAndEb : Obligations.ExtractsFillEaAndEb := by
  intro s ho hpos
  obtain ⟨-, hextract, -⟩ := extractRemovesTheMinimum s
  obtain ⟨q, hq, hsize, hordered, hperm, hleast, -⟩ := hextract ho hpos
  cases (exec_pqExtractMin_eq hpos).symm.trans hq
  exact ⟨_, exec_tbXa_eq hpos, exec_tbXb_eq hpos, hq, hsize, hordered, hperm, hleast⟩

/-! ## TB_INS -/

/-- TB_INS with an arena entry and room in the queue (R174). -/
theorem exec_tbIns_eq {s : State} {a : Arr Node 255} {q : Queue} (ha : arenaSet s.arena s.nnode (mergedNode s) = .ok a)
    (hq : pqInsert ⟨mergedFreq s, s.nnode⟩ s.pq = .ok q) :
    exec .tbIns s = .next { s with arena := a, pq := q, nnode := s.nnode + 1, seq := mergeOrRoot q } := by
  rcases execTbIns_cases s with ⟨a', q', ha', hq', e⟩ | ⟨hfull, -⟩ | ⟨f, hf, -⟩
  · cases ha.symm.trans ha'
    cases hq.symm.trans hq'
    exact e
  · exact absurd hfull (pqInsert_ok hq).1.ne
  · cases ha.symm.trans hf

/-- Settles O27: the arena write at NNODE, and the insertion into a queue with room. -/
theorem insCreatesTheInternalNode : Obligations.InsCreatesTheInternalNode := by
  intro s hlow hhigh room
  obtain ⟨a, ha⟩ := arenaSet_isOk (a := s.arena) (mergedNode s) hlow hhigh
  obtain ⟨hnew, hother⟩ := arenaSet_ok ha
  have hq := pqInsert_eq ⟨mergedFreq s, s.nnode⟩ room
  exact ⟨a, _, exec_tbIns_eq ha hq, hnew, hother, exec_pqInsert_eq _ room, rfl, rebuilt_ordered _, pqInsert_perm hq⟩

/-! ## TB_LOAD -/

/-- PQ_INSERT of each entry of a list, one after the other (R171). -/
def insertAll : List HeapEntry → Queue → Except ErrKind Queue
  | [], q => .ok q
  | e :: rest, q => match pqInsert e q with
    | .ok r => insertAll rest r
    | .error k => .error k

theorem insertAll_cons_ok {e : HeapEntry} {es : List HeapEntry} {q r : Queue} :
    insertAll (e :: es) q = .ok r ↔ ∃ p, pqInsert e q = .ok p ∧ insertAll es p = .ok r := by
  simp only [insertAll]
  cases pqInsert e q <;> simp

theorem insertAll_perm {es : List HeapEntry} {q r : Queue} (h : insertAll es q = .ok r) :
    (entries r).Perm (es ++ entries q) := by
  induction es generalizing q with
  | nil => cases h; exact .refl _
  | cons e es ih =>
    obtain ⟨p, hp, hr⟩ := insertAll_cons_ok.1 h
    exact (ih hr).trans (((pqInsert_perm hp).append_left es).trans List.perm_middle)

theorem insertAll_room {es : List HeapEntry} {q : Queue} (room : q.hsize.val + es.length ≤ 256) :
    ∃ r, insertAll es q = .ok r := by
  induction es generalizing q with
  | nil => exact ⟨q, rfl⟩
  | cons e es ih =>
    rw [List.length_cons] at room
    obtain ⟨p, hp⟩ := pqInsert_room e (q := q) (by omega)
    obtain ⟨-, hsize, -⟩ := pqInsert_ok hp
    obtain ⟨r, hr⟩ := ih (q := p) (by omega)
    exact ⟨r, insertAll_cons_ok.2 ⟨p, hp, hr⟩⟩

theorem execAll_pqInsert {es : List HeapEntry} {s : State} {q : Queue} (h : insertAll es s.pq = .ok q) :
    execAll (es.map .pqInsert) s = .next { s with pq := q } := by
  induction es generalizing s with
  | nil => cases h; rfl
  | cons e es ih =>
    obtain ⟨p, hp, hq⟩ := insertAll_cons_ok.1 h
    have hexec : exec (.pqInsert e) s = .next { s with pq := p } := by
      simp only [exec, execPqInsert, insertEntry, hp, settle_ok]
    simp only [List.map_cons, execAll, hexec]
    exact ih (s := { s with pq := p }) hq

/-- The leaves of the present ones among the m symbols from k on, in ascending order (R171). -/
def leavesFrom (a : Arr Word32 256) (k m : Nat) : List HeapEntry :=
  (((List.range' k m).map (BitVec.ofNat 8)).filter fun s => tableGet a s != 0).map fun s => ⟨tableGet a s, leafId s⟩

theorem leavesFrom_all (a : Arr Word32 256) : leavesFrom a 0 256 = leafEntries a := by
  rw [leavesFrom, ← List.range_eq_range']
  rfl

theorem leavesFrom_succ (a : Arr Word32 256) (k m : Nat) : leavesFrom a k (m + 1) =
    if tableGet a (BitVec.ofNat 8 k) = 0 then leavesFrom a (k + 1) m
    else ⟨tableGet a (BitVec.ofNat 8 k), leafId (BitVec.ofNat 8 k)⟩ :: leavesFrom a (k + 1) m := by
  simp only [leavesFrom, List.range'_succ, List.map_cons, List.filter_cons, bne_iff_ne, ne_eq, ite_not]
  split <;> rfl

/-- R171's loop over the counts from symbol k on inserts the leaves from k on. -/
theorem loadLeaves_eq_insertAll (a : Arr Word32 256) {k m : Nat} (hkm : k + m = 256) (q : Queue) :
    loadLeaves k (a.cells.drop k) q = insertAll (leavesFrom a k m) q := by
  induction m generalizing k q with
  | zero => rw [List.drop_eq_nil_of_le (by rw [a.size]; omega)]; rfl
  | succ m ih =>
    have hk : k < a.cells.length := by rw [a.size]; omega
    have hsym : (BitVec.ofNat 8 k).toNat = k := by rw [BitVec.toNat_ofNat]; omega
    have hget : a.cells[k] = tableGet a (BitVec.ofNat 8 k) := by simp only [tableGet, hsym]
    have hleaf : BitVec.ofNat 9 k = leafId (BitVec.ofNat 8 k) :=
      BitVec.eq_of_toNat_eq (by rw [leafId, BitVec.toNat_setWidth, hsym, BitVec.toNat_ofNat])
    rw [List.drop_eq_getElem_cons hk, leavesFrom_succ, hget]
    simp only [loadLeaves]
    split
    · exact ih (by omega) q
    · simp only [insertAll, hleaf]
      cases pqInsert ⟨tableGet a (BitVec.ofNat 8 k), leafId (BitVec.ofNat 8 k)⟩ q with
      | ok r => exact ih (by omega) r
      | error e => rfl

/-- TB_LOAD's loop is PQ_INSERT of the leaves, in ascending order of their symbols (R171). -/
theorem loadLeaves_freq (a : Arr Word32 256) (q : Queue) : loadLeaves 0 a.cells q = insertAll (leafEntries a) q := by
  rw [← leavesFrom_all]
  exact loadLeaves_eq_insertAll a (k := 0) rfl q

theorem length_leafEntries (a : Arr Word32 256) : (leafEntries a).length = (presentSyms a).length := List.length_map _

/-- The queue TB_LOAD leaves holds the leaves and what it held (R170, R171). -/
theorem loadLeaves_perm {a : Arr Word32 256} {q r : Queue} (h : loadLeaves 0 a.cells q = .ok r) :
    (entries r).Perm (leafEntries a ++ entries q) :=
  insertAll_perm ((loadLeaves_freq a q).symm.trans h)

theorem loadLeaves_hsize {a : Arr Word32 256} {q r : Queue} (h : loadLeaves 0 a.cells q = .ok r) :
    r.hsize.val = q.hsize.val + (presentSyms a).length := by
  have := (loadLeaves_perm h).length_eq
  rwa [List.length_append, length_entries, length_entries, length_leafEntries, Nat.add_comm] at this

/-- TB_LOAD where the leaves fit (R171). -/
theorem exec_tbLoad_eq {s : State} {q : Queue} (h : loadLeaves 0 s.freq.cells s.pq = .ok q) :
    exec .tbLoad s = .next { s with pq := q, seq := mergeOrRoot q } := by
  simp only [exec, execTbLoad, tbLoad, h, settle_ok]

/-- Settles O25: TB_LOAD's loop is `insertAll` of the leaves, and so are the PQ_INSERTs of the statement. -/
theorem loadInsertsTheLeaves : Obligations.LoadInsertsTheLeaves := by
  intro s ho room
  rw [← length_leafEntries] at room
  obtain ⟨q, hq⟩ := insertAll_room room
  have hload := (loadLeaves_freq s.freq s.pq).trans hq
  exact ⟨q, exec_tbLoad_eq hload, execAll_pqInsert hq, loadLeaves_hsize hload, loadLeaves_ordered ho hload,
    loadLeaves_perm hload⟩

end Sys2Proof.Machine

/-! PROOFS. The code table of a tree (44_code_table.md R190 to R193): the paths to a tree's leaves and the entries they are,
the table a traversal of a stored tree writes, and the table CG_GEN writes. -/
namespace Sys2Proof.Machine

/-! ## Paths and entries -/

theorem HuffTree.paths_map_fst (t : HuffTree) : t.paths.map Prod.fst = t.leaves := by
  induction t with
  | leaf sym => rfl
  | node id l r hl hr =>
    simp only [paths, leaves, List.map_append, List.map_map, ← hl, ← hr]
    rfl

theorem HuffTree.mem_leaves_iff {t : HuffTree} {sym : Byte} : sym ∈ t.leaves ↔ ∃ path, (sym, path) ∈ t.paths := by
  rw [← t.paths_map_fst]
  simp

/-- A symbol that is not in the tree has no code (R191). -/
theorem HuffTree.entry_of_notMem {t : HuffTree} {sym : Byte} (h : sym ∉ t.leaves) : t.entry sym = ⟨0, 0⟩ := by
  cases t with
  | leaf only => exact if_neg fun e => h (List.mem_singleton.2 e)
  | node id l r =>
    have hnone : (HuffTree.node id l r).paths.find? (fun p => p.1 == sym) = none := by
      refine List.find?_eq_none.2 fun p hp e => h (mem_leaves_iff.2 ⟨p.2, ?_⟩)
      rwa [← eq_of_beq e]
    simp only [entry, hnone]

/-- In a tree of two leaves or more the code of a symbol is a path to it (R190). -/
theorem HuffTree.entry_node_of_mem {id : NodeId} {l r : HuffTree} {sym : Byte}
    (h : sym ∈ (HuffTree.node id l r).leaves) :
    ∃ path, (sym, path) ∈ (HuffTree.node id l r).paths ∧ (HuffTree.node id l r).entry sym = entryOf path := by
  obtain ⟨path, hpath⟩ := mem_leaves_iff.1 h
  cases hfind : (HuffTree.node id l r).paths.find? (fun p => p.1 == sym) with
  | none => exact absurd (beq_self_eq_true sym) (List.find?_eq_none.1 hfind _ hpath)
  | some p =>
    obtain rfl : p.1 = sym := by simpa using List.find?_some hfind
    exact ⟨p.2, List.mem_of_find?_eq_some hfind, by simp only [entry, hfind]⟩

theorem length_le_of_nodup {l : List Byte} (h : l.Nodup) : l.length ≤ 256 := by
  have hmap : (l.map BitVec.toNat).Nodup := h.map fun _ _ => BitVec.eq_of_toNat_eq
  have hsub : l.map BitVec.toNat ⊆ List.range 256 := fun n hn => by
    obtain ⟨s, -, rfl⟩ := List.mem_map.1 hn
    exact List.mem_range.2 s.isLt
  simpa using (hmap.subperm hsub).length_le

@[simp] theorem leafSym_leafId (sym : Byte) : leafSym (leafId sym) = sym :=
  BitVec.eq_of_toNat_eq (by rw [leafSym, leafId, BitVec.toNat_setWidth, BitVec.toNat_setWidth]; omega)

/-! ## The table a traversal writes -/

/-- The entry of a leaf that lies along `path` below a pending subtree (R192). -/
def Pending.entryAlong (p : Pending) (path : List Bool) : CodeEntry :=
  ⟨p.len + BitVec.ofNat 8 path.length, path.foldl (fun v b => (v <<< 1) ||| (BitVec.ofBool b).setWidth 256) p.bits⟩

theorem Pending.entryAlong_nil (p : Pending) : p.entryAlong [] = ⟨p.len, p.bits⟩ := by simp [entryAlong]

/-- Along an edge to a child the entry is the one the child's pending subtree gives (R192). -/
theorem Pending.entryAlong_cons (p : Pending) (n : NodeId) (b : Bool) (path : List Bool) :
    p.entryAlong (b :: path) =
      (⟨n, p.len + 1, (p.bits <<< 1) ||| (BitVec.ofBool b).setWidth 256⟩ : Pending).entryAlong path := by
  have hlen : p.len + BitVec.ofNat 8 (path.length + 1) = p.len + 1 + BitVec.ofNat 8 path.length := by
    rw [BitVec.ofNat_add, BitVec.add_assoc, BitVec.add_comm (BitVec.ofNat 8 path.length)]
    rfl
  simp only [entryAlong, List.length_cons, List.foldl_cons, hlen]

/-- From the root the entry is the path's own (R190). -/
theorem entryAlong_root (n : NodeId) (path : List Bool) : (⟨n, 0, 0⟩ : Pending).entryAlong path = entryOf path := by
  simp [Pending.entryAlong, entryOf, bitsValue]

/-- The table d is c with the codes of t written, t being the pending subtree p (R192). -/
structure CodesWritten (t : HuffTree) (p : Pending) (c d : Arr CodeEntry 256) : Prop where
  own : ∀ x ∈ t.paths, tableGet d x.1 = p.entryAlong x.2
  other : ∀ sym, sym ∉ t.leaves → tableGet d sym = tableGet c sym

theorem codesWritten_leaf (sym : Byte) (p : Pending) (c : Arr CodeEntry 256) :
    CodesWritten (.leaf sym) p c (tableSet c sym ⟨p.len, p.bits⟩) where
  own x hx := by
    rw [List.mem_singleton.1 hx, tableGet_tableSet_same, p.entryAlong_nil]
  other s hs := tableGet_tableSet_ne c _ fun e => hs (List.mem_singleton.2 e)

/-- The codes of the left subtree and then those of the right one are the codes of the tree; the right one's do not touch
the left one's. -/
theorem codesWritten_node {id m n : NodeId} {l r : HuffTree} {p : Pending} {c d e : Arr CodeEntry 256}
    (hd : (HuffTree.node id l r).leaves.Nodup) (hl : CodesWritten l ⟨m, p.len + 1, p.bits <<< 1⟩ c d)
    (hr : CodesWritten r ⟨n, p.len + 1, (p.bits <<< 1) ||| 1⟩ d e) : CodesWritten (.node id l r) p c e where
  own x hx := by
    obtain ⟨-, -, hdisjoint⟩ := List.nodup_append.1 hd
    rcases List.mem_append.1 hx with hx | hx <;> obtain ⟨y, hy, rfl⟩ := List.mem_map.1 hx
    · have hleft : y.1 ∈ l.leaves := HuffTree.mem_leaves_iff.2 ⟨y.2, hy⟩
      rw [hr.other _ fun hright => hdisjoint _ hleft _ hright rfl, hl.own y hy, p.entryAlong_cons m]
      simp
    · rw [hr.own y hy, p.entryAlong_cons n]
      rfl
  other s hs := by
    obtain ⟨hleft, hright⟩ := not_or.1 fun h => hs (List.mem_append.2 h)
    rw [hr.other s hright, hl.other s hleft]

/-- The traversal of a stored tree with distinct leaves writes its codes and goes on with what is below it on the stack
(R192). -/
theorem traverse_codesWritten {a : Arr Node 255} {t : HuffTree} (ht : t.Stored a) (hd : t.leaves.Nodup) {p : Pending}
    (hp : p.node = t.rootId) (fuel : Nat) (stack : List Pending) (c : Arr CodeEntry 256) :
    ∃ d, traverse a (fuel + t.pops) (p :: stack) c = traverse a fuel stack d ∧ CodesWritten t p c d := by
  induction t generalizing p fuel stack c with
  | leaf sym =>
    have hsym : leafSym p.node = sym := by rw [hp]; exact leafSym_leafId sym
    refine ⟨_, traverse_leaf a fuel stack c (hp ▸ isLeaf_leafId sym), ?_⟩
    rw [hsym]
    exact codesWritten_leaf sym p c
  | node id l r hl hr =>
    obtain ⟨⟨f, hget⟩, hsl, hsr⟩ := ht
    obtain ⟨hdl, hdr, -⟩ := List.nodup_append.1 hd
    obtain ⟨c₁, h₁, hleft⟩ := hl hsl hdl (p := ⟨l.rootId, p.len + 1, p.bits <<< 1⟩) rfl (fuel + r.pops)
      (⟨r.rootId, p.len + 1, (p.bits <<< 1) ||| 1⟩ :: stack) c
    obtain ⟨c₂, h₂, hright⟩ := hr hsr hdr (p := ⟨r.rootId, p.len + 1, (p.bits <<< 1) ||| 1⟩) rfl fuel stack c₁
    refine ⟨c₂, ?_, codesWritten_node hd hleft hright⟩
    have hnode : arenaGet a p.node = .ok ⟨f, l.rootId, r.rootId⟩ := by rw [hp]; exact hget
    have hfuel : fuel + (HuffTree.node id l r).pops = fuel + r.pops + l.pops + 1 := by simp only [HuffTree.pops]; omega
    rw [hfuel, traverse_node a _ stack c hnode]
    exact h₁.trans h₂

/-- CG_TRAVERSE's table where ROOT names a stored tree with distinct leaves (R192, 46_sequencer.md R228). -/
theorem traverseRoot_codesWritten {s : State} {t : HuffTree} (hroot : t.rootId = s.root) (ht : t.Stored s.arena)
    (hd : t.leaves.Nodup) : ∃ c, traverseRoot s = .ok c ∧ CodesWritten t ⟨s.root, 0, 0⟩ s.code c := by
  have hleaves := length_le_of_nodup hd
  have hpops := t.pops_add_one
  obtain ⟨fuel, hfuel⟩ : ∃ f, Config.maxPops = f + t.pops := ⟨511 - t.pops, by simp only [Config.maxPops]; omega⟩
  obtain ⟨c, hc, hw⟩ := traverse_codesWritten ht hd (p := ⟨s.root, 0, 0⟩) hroot.symm fuel [] s.code
  exact ⟨c, by rw [traverseRoot, hfuel, hc, traverse_nil], hw⟩

/-! ## The table CG_GEN writes -/

/-- CG_GEN gives every leaf of the tree ROOT names its entry and leaves every other symbol's alone (R191, R193). -/
theorem genCode_entries {s : State} {t : HuffTree} (hroot : t.rootId = s.root) (ht : t.Stored s.arena)
    (hd : t.leaves.Nodup) : ∃ c, genCode s = .ok c ∧ (∀ sym, sym ∈ t.leaves → tableGet c sym = t.entry sym) ∧
      ∀ sym, sym ∉ t.leaves → tableGet c sym = tableGet s.code sym := by
  cases t with
  | leaf only =>
    have hroot' : s.root = leafId only := hroot.symm
    have hleaf : isLeaf s.root = true := hroot' ▸ isLeaf_leafId only
    refine ⟨tableSet s.code only ⟨1, 0⟩, ?_, fun sym hs => ?_, fun sym hs => ?_⟩
    · rw [genCode, if_pos hleaf, singleCode, if_pos hleaf, hroot', leafSym_leafId]
    · rw [List.mem_singleton.1 hs, tableGet_tableSet_same]
      exact (if_pos rfl).symm
    · exact tableGet_tableSet_ne s.code _ fun e => hs (List.mem_singleton.2 e)
  | node id l r =>
    have hstored := ht
    obtain ⟨⟨f, hget⟩, -, -⟩ := hstored
    have hleaf : ¬ isLeaf s.root = true := fun h => by
      rw [← hroot] at h
      cases (arenaGet_leaf s.arena h).symm.trans hget
    obtain ⟨c, hc, hw⟩ := traverseRoot_codesWritten hroot ht hd
    refine ⟨c, by rw [genCode, if_neg hleaf, hc], fun sym hs => ?_, hw.other⟩
    obtain ⟨path, hpath, he⟩ := HuffTree.entry_node_of_mem hs
    rw [he, hw.own _ hpath, entryAlong_root]

end Sys2Proof.Machine

/-! PROOFS. The forest of the build (43_tree_builder.md R178): its trees in the arena and their roots in the queue, the leaves
it begins with, the merge of two of its trees, and the one tree left. -/
namespace Sys2Proof.Machine

/-! ## Trees in the arena -/

/-- The heap entry that stands for a tree: its weight and its root (R178 (e), (g)). -/
def HuffTree.heapEntry (fr : Arr Word32 256) (t : HuffTree) : HeapEntry := ⟨BitVec.ofNat 32 (t.weight fr), t.rootId⟩

/-- An arena that agrees below NNODE holds the same trees with the same weights. -/
theorem HuffTree.stored_frame {a b : Arr Node 255} {fr : Arr Word32 256} {m n : NodeId} {t : HuffTree}
    (h : t.Stored a ∧ t.Weighed a fr ∧ t.Below m) (hmn : m ≤ n) (same : ∀ k, k < m → arenaGet b k = arenaGet a k) :
    t.Stored b ∧ t.Weighed b fr ∧ t.Below n := by
  induction t with
  | leaf sym => exact ⟨trivial, trivial, trivial⟩
  | node id l r hl hr =>
    obtain ⟨⟨hs, hsl, hsr⟩, ⟨hw, hwl, hwr⟩, hid, hbl, hbr⟩ := h
    obtain ⟨hsl', hwl', hbl'⟩ := hl ⟨hsl, hwl, hbl⟩
    obtain ⟨hsr', hwr', hbr'⟩ := hr ⟨hsr, hwr, hbr⟩
    rw [← same id hid] at hs hw
    exact ⟨⟨hs, hsl', hsr'⟩, ⟨hw, hwl', hwr'⟩, Nat.lt_of_lt_of_le hid hmn, hbl', hbr'⟩

namespace IsForest

variable {s t : State} {roots : List HeapEntry} {ts : List HuffTree}

/-- A forest depends on the counts, the arena and NNODE only. -/
theorem congr (h : IsForest s roots ts) (same : (t.freq, t.arena, t.nnode) = (s.freq, s.arena, s.nnode)) :
    IsForest t roots ts := by
  simp only [Prod.mk.injEq] at same
  obtain ⟨hfreq, harena, hnnode⟩ := same
  exact ⟨by rw [hfreq]; exact h.roots, by rw [hfreq, harena, hnnode]; exact h.stored, by rw [hfreq]; exact h.leaves⟩

theorem perm {roots' : List HeapEntry} (h : IsForest s roots ts) (hp : roots.Perm roots') : IsForest s roots' ts :=
  ⟨h.roots.trans hp, h.stored, h.leaves⟩

/-- The trees can be listed in the order of their roots. -/
theorem aligned (h : IsForest s roots ts) : ∃ us, us.map (HuffTree.heapEntry s.freq) = roots ∧ IsForest s roots us := by
  have hcomp : Relation.Comp (· = List.map (HuffTree.heapEntry s.freq) ·) List.Perm roots ts :=
    (List.eq_map_comp_perm _).symm ▸ h.roots.symm
  obtain ⟨us, hus, hperm⟩ := hcomp
  exact ⟨us, hus.symm, .of_eq hus.symm, fun u hu => h.stored u (hperm.mem_iff.1 hu),
    (hperm.flatMap_right _).trans h.leaves⟩

/-- Two trees of a forest become one under a node that the arena gets at NNODE, the first one to the right (R174). -/
theorem merge {a : Arr Node 255} (h : IsForest s (s.ea :: s.eb :: roots) ts) (hn : s.nnode.toNat ≤ 510)
    (ha : arenaSet s.arena s.nnode (mergedNode s) = .ok a) :
    ∃ us, IsForest { s with arena := a, nnode := s.nnode + 1 } (⟨mergedFreq s, s.nnode⟩ :: roots) us := by
  obtain ⟨us, hus, hforest⟩ := h.aligned
  obtain ⟨ta, us, rfl, hea, hus⟩ := List.map_eq_cons_iff.1 hus
  obtain ⟨tb, us, rfl, heb, hus⟩ := List.map_eq_cons_iff.1 hus
  obtain ⟨hnew, hother⟩ := arenaSet_ok ha
  have hlt : s.nnode < s.nnode + 1 := by bv_omega
  have hold : ∀ u ∈ ta :: tb :: us, u.Stored a ∧ u.Weighed a s.freq ∧ u.Below (s.nnode + 1) := fun u hu =>
    HuffTree.stored_frame (hforest.stored u hu) (BitVec.le_of_lt hlt) fun k hk => hother k (BitVec.ne_of_lt hk)
  obtain ⟨hsa, hwa, hba⟩ := hold ta (by simp)
  obtain ⟨hsb, hwb, hbb⟩ := hold tb (by simp)
  have hweight : mergedFreq s = BitVec.ofNat 32 ((HuffTree.node s.nnode tb ta).weight s.freq) := by
    rw [mergedFreq, ← hea, ← heb, HuffTree.weight, Nat.add_comm, BitVec.ofNat_add]
    rfl
  have hnode : mergedNode s = ⟨mergedFreq s, tb.rootId, ta.rootId⟩ := by rw [mergedNode, ← hea, ← heb]; rfl
  refine ⟨.node s.nnode tb ta :: us, ?roots, ?stored, ?leaves⟩
  case roots =>
    rw [← hus, hweight]
    exact .refl _
  case stored =>
    intro u hu
    rcases List.mem_cons.1 hu with rfl | hu
    · rw [hnode] at hnew
      exact ⟨⟨⟨_, hnew⟩, hsb, hsa⟩, ⟨⟨_, hnew, hweight⟩, hwb, hwa⟩, hlt, hbb, hba⟩
    · exact hold u (by simp [hu])
  case leaves =>
    refine List.Perm.trans ?_ hforest.leaves
    simp only [List.flatMap_cons, HuffTree.leaves, ← List.append_assoc]
    exact List.perm_append_comm.append_right _

end IsForest

/-- The leaves of the present symbols are a forest over them (R171). -/
theorem isForest_leaves (s : State) :
    IsForest s (leafEntries s.freq) ((presentSyms s.freq).map .leaf) where
  roots := .of_eq (by simp [leafEntries, HuffTree.weight, HuffTree.rootId])
  stored t ht := by
    obtain ⟨sym, -, rfl⟩ := List.mem_map.1 ht
    exact ⟨trivial, trivial, trivial⟩
  leaves := .of_eq (by simp [List.flatMap_map, HuffTree.leaves])

theorem entries_of_hsize_one {q : Queue} (h : q.hsize.val = 1) : entries q = [heapAt q.heap 0] := by
  obtain ⟨x, hx⟩ := List.length_eq_one_iff.1 ((length_entries q).trans h)
  obtain ⟨j, hj, rfl⟩ := exists_position_of_mem_entries (hx ▸ List.mem_singleton_self x)
  rw [hx, show j = 0 by omega]

/-- With one entry left in the queue the forest is one tree, and the entry names it (R175, R178 (c)). -/
theorem isRootTree_of_forest {s : State} {ts : List HuffTree} (h : IsForest s (entries s.pq) ts)
    (hsize : s.pq.hsize.val = 1) (hroot : s.root = (heapAt s.pq.heap 0).node) : ∃ t, IsRootTree s t := by
  obtain ⟨us, hus, hforest⟩ := h.aligned
  obtain ⟨t, ht⟩ : ∃ t, us = [t] := List.length_eq_one_iff.1 (by rw [← List.length_map, hus, length_entries, hsize])
  subst ht
  rw [entries_of_hsize_one hsize, List.map_singleton, List.singleton_inj] at hus
  exact ⟨t, hforest, by rw [hroot, ← hus]; rfl⟩

namespace IsRootTree

variable {s t : State} {u : HuffTree}

theorem congr (h : IsRootTree s u)
    (same : (t.freq, t.arena, t.nnode, t.pq, t.root) = (s.freq, s.arena, s.nnode, s.pq, s.root)) : IsRootTree t u := by
  simp only [Prod.mk.injEq] at same
  obtain ⟨hfreq, harena, hnnode, hpq, hroot⟩ := same
  exact ⟨hpq ▸ h.1.congr (by rw [hfreq, harena, hnnode]), hroot ▸ h.2⟩

theorem stored (h : IsRootTree s u) : u.Stored s.arena := (h.1.stored u (List.mem_singleton_self u)).1

theorem leaves_perm (h : IsRootTree s u) : u.leaves.Perm (presentSyms s.freq) := by
  have := h.1.leaves
  rwa [List.flatMap_singleton] at this

theorem leaves_nodup (h : IsRootTree s u) : u.leaves.Nodup := h.leaves_perm.nodup_iff.2 (nodup_presentSyms _)

/-- Where no symbol has a code yet, the table CG_GEN writes holds the entries of the tree (44_code_table.md R190, R191). -/
theorem genCode {c : Arr CodeEntry 256} (h : IsRootTree s u) (hblank : ∀ sym, tableGet s.code sym = ⟨0, 0⟩)
    (hc : genCode s = .ok c) (sym : Byte) : tableGet c sym = u.entry sym := by
  obtain ⟨d, hd, hleaf, hother⟩ := genCode_entries h.2 h.stored h.leaves_nodup
  cases hc.symm.trans hd
  by_cases hs : sym ∈ u.leaves
  · exact hleaf sym hs
  · rw [hother sym hs, hblank, u.entry_of_notMem hs]

end IsRootTree

end Sys2Proof.Machine

/-! PROOFS. Every step keeps the invariants of a run (43_tree_builder.md R178, 44_code_table.md R190, R191, R195): HSIZE and
NNODE, the forest and the tree ROOT names, and the code table, one lemma per operation of the build. -/
namespace Sys2Proof.Machine

/-- What RunOk says of the build and its tree. -/
structure TreeOk (s : State) : Prop where
  build : BuildOk s
  forest : ForestOk s
  codes : CodesOk s

theorem RunOk.treeOk {s : State} (h : RunOk s) : TreeOk s := ⟨h.build, h.forest, h.codes⟩

theorem coded_iff (s : State) :
    coded s = true ↔ s.seq = .pack ∨ s.seq = .emit ∨ s.seq = .flush ∨ (s.seq = .done ∧ s.err = .none) := by
  simp [coded, or_assoc]

/-! ## Before the code table is written -/

/-- The states from INIT to CG_GEN, in which no symbol has a code (R140, R191). -/
def uncoded : SeqState → Bool
  | .scan | .load | .xa | .xb | .ins | .root | .gen => true
  | .idle | .init | .pack | .emit | .flush | .done | .fault => false

theorem uncoded_iff (q : SeqState) :
    uncoded q = true ↔ (stage q = 1 ∧ q ≠ .init) ∨ stage q = 2 ∨ stage q = 3 := by
  cases q <;> simp [uncoded, stage]

theorem uncoded_mergeOrRoot (q : Queue) : uncoded (mergeOrRoot q) = true := by
  unfold mergeOrRoot
  split <;> rfl

theorem CodesOk.blank {s : State} {q : SeqState} (h : CodesOk s) (hs : s.seq = q) (hq : uncoded q = true) (sym : Byte) :
    tableGet s.code sym = ⟨0, 0⟩ := h.1 ((uncoded_iff _).1 (hs ▸ hq)) sym

theorem codesOk_of_blank {s : State} (hs : uncoded s.seq = true) (h : ∀ sym, tableGet s.code sym = ⟨0, 0⟩) :
    CodesOk s := by
  refine ⟨fun _ => h, fun hc => ?_⟩
  rcases (coded_iff s).1 hc with e | e | e | ⟨e, -⟩ <;> simp [e, uncoded] at hs

/-- A step from one of these states to another that leaves the code table alone. -/
theorem CodesOk.keep {s t : State} {q : SeqState} (h : CodesOk s) (hs : s.seq = q) (hq : uncoded q = true)
    (ht : uncoded t.seq = true) (same : t.code = s.code) : CodesOk t :=
  codesOk_of_blank ht (same ▸ h.blank hs hq)

/-! ## Once the code table is written -/

/-- What the invariants say once the code table is complete (R195): one entry left, USC − 1 nodes, and the codes of the
tree ROOT names. -/
structure CodedOk (s : State) : Prop where
  build : s.pq.hsize.val = 1 ∧ s.usc ≠ 0 ∧ s.nnode.toNat = 255 + s.usc.toNat
  codes : ∃ t, IsRootTree s t ∧ ∀ sym, tableGet s.code sym = t.entry sym

theorem treeOk_iff_codedOk {s : State} (hs : coded s = true) : TreeOk s ↔ CodedOk s := by
  have hcodes : CodesOk s ↔ ∃ t, IsRootTree s t ∧ ∀ sym, tableGet s.code sym = t.entry sym := by
    refine ⟨fun h => h.2 hs, fun h => ⟨fun hu => ?_, fun _ => h⟩⟩
    rcases (coded_iff s).1 hs with e | e | e | ⟨e, -⟩ <;> simp [e, stage] at hu
  have hbuild : BuildOk s ↔ s.pq.hsize.val = 1 ∧ s.usc ≠ 0 ∧ s.nnode.toNat = 255 + s.usc.toNat := by
    rcases (coded_iff s).1 hs with e | e | e | ⟨e, herr⟩ <;> simp [BuildOk, *]
  have hforest : ForestOk s ↔ ∃ t, IsRootTree s t := by
    rcases (coded_iff s).1 hs with e | e | e | ⟨e, herr⟩ <;> simp [ForestOk, *]
  exact ⟨fun h => ⟨hbuild.1 h.build, hcodes.1 h.codes⟩, fun h =>
    ⟨hbuild.2 h.build, hforest.2 (h.codes.imp fun _ => And.left), hcodes.2 h.codes⟩⟩

namespace TreeOk

variable {s t : State}

/-! ## Steps that leave the build alone -/

/-- Outside a run nothing is asked of the build. -/
theorem of_not_inRun (h : inRun s.seq = false) : TreeOk s := by
  cases hs : s.seq <;> rw [hs] at h <;> cases h <;>
    exact ⟨by simp only [BuildOk, hs], by simp only [ForestOk, hs], by simp [CodesOk, coded, stage, hs]⟩

/-- A step that changes none of the build's registers and arrays. -/
theorem keep (h : TreeOk s)
    (same : (t.seq, t.err, t.usc, t.pq, t.nnode, t.root, t.ea, t.eb, t.freq, t.arena, t.code) =
      (s.seq, s.err, s.usc, s.pq, s.nnode, s.root, s.ea, s.eb, s.freq, s.arena, s.code)) : TreeOk t := by
  simp only [Prod.mk.injEq] at same
  obtain ⟨hseq, herr, husc, hpq, hnnode, hroot, hea, heb, hfreq, harena, hcode⟩ := same
  have htree : IsRootTree t = IsRootTree s := funext fun u => propext
    ⟨fun hu => hu.congr (by rw [hfreq, harena, hnnode, hpq, hroot]),
      fun hu => hu.congr (by rw [hfreq, harena, hnnode, hpq, hroot])⟩
  have hforest : IsForest t = IsForest s := funext₂ fun roots ts => propext
    ⟨fun hf => hf.congr (by rw [hfreq, harena, hnnode]), fun hf => hf.congr (by rw [hfreq, harena, hnnode])⟩
  have hroots : buildRoots t = buildRoots s := by simp only [buildRoots, hseq, hpq, hea, heb]
  refine ⟨?_, ?_, ?_⟩
  · simpa only [BuildOk, hseq, herr, husc, hpq, hnnode] using h.build
  · simpa only [ForestOk, hseq, herr, htree, hforest, hroots] using h.forest
  · simpa only [CodesOk, coded, hseq, herr, htree, hcode] using h.codes

/-- A step from one state with the code table complete to another. -/
theorem keepCoded (h : TreeOk s) (hs : coded s = true) (ht : coded t = true)
    (same : (t.usc, t.pq, t.nnode, t.root, t.freq, t.arena, t.code) =
      (s.usc, s.pq, s.nnode, s.root, s.freq, s.arena, s.code)) : TreeOk t := by
  simp only [Prod.mk.injEq] at same
  obtain ⟨husc, hpq, hnnode, hroot, hfreq, harena, hcode⟩ := same
  obtain ⟨hbuild, u, hu, hentry⟩ := (treeOk_iff_codedOk hs).1 h
  exact (treeOk_iff_codedOk ht).2 ⟨by rw [hpq, husc, hnnode]; exact hbuild, u,
    hu.congr (by rw [hfreq, harena, hnnode, hpq, hroot]), by rw [hcode]; exact hentry⟩

/-! ## The operations of the build -/

/-- What TB_LOAD and TB_INS leave: the forest in the queue, another merge to come or the root (R171, R174). -/
theorem of_mergeOrRoot (hs : s.seq = mergeOrRoot s.pq) (hn : 256 ≤ s.nnode.toNat) (hpos : 0 < s.pq.hsize.val)
    (hsum : s.nnode.toNat + s.pq.hsize.val = 256 + s.usc.toNat) (hforest : ∃ ts, IsForest s (entries s.pq) ts)
    (hblank : ∀ sym, tableGet s.code sym = ⟨0, 0⟩) : TreeOk s := by
  have hcodes : CodesOk s := codesOk_of_blank (by rw [hs]; exact uncoded_mergeOrRoot _) hblank
  unfold mergeOrRoot at hs
  split at hs
  next h2 =>
    refine ⟨?_, ?_, hcodes⟩
    · simp only [BuildOk, hs]; exact ⟨hn, h2, hsum⟩
    · simp only [ForestOk, buildRoots, hs]; exact hforest
  next h2 =>
    refine ⟨?_, ?_, hcodes⟩
    · have hne : s.usc ≠ 0 := fun e => by rw [e] at hsum; simp at hsum; omega
      simp only [BuildOk, hs]; exact ⟨by omega, hne, by omega⟩
    · simp only [ForestOk, buildRoots, hs]; exact hforest

/-- TB_LOAD puts the forest of the leaves into the empty queue (R171). -/
theorem load {q : Queue} (h : TreeOk s) (hcounts : CountsOk s) (hs : s.seq = .load)
    (hq : loadLeaves 0 s.freq.cells s.pq = .ok q) : TreeOk { s with pq := q, seq := mergeOrRoot q } := by
  obtain ⟨hempty, hnnode, hne⟩ : s.pq.hsize.val = 0 ∧ s.nnode = 256 ∧ s.usc ≠ 0 := by
    simpa only [BuildOk, hs] using h.build
  obtain ⟨-, husc⟩ := hcounts (by rw [hs]; rfl)
  have hsize := loadLeaves_hsize hq
  have husc0 : s.usc.toNat ≠ 0 := fun e => hne (BitVec.eq_of_toNat_eq e)
  have hn : s.nnode.toNat = 256 := by rw [hnnode]; rfl
  have hentries : entries s.pq = [] := List.eq_nil_of_length_eq_zero ((length_entries _).trans hempty)
  have hperm := loadLeaves_perm hq
  rw [hentries, List.append_nil] at hperm
  have hpos : 0 < q.hsize.val := by omega
  have hsum : s.nnode.toNat + q.hsize.val = 256 + s.usc.toNat := by omega
  exact of_mergeOrRoot rfl hn.ge hpos hsum ⟨_, ((isForest_leaves s).perm hperm.symm).congr rfl⟩ (h.codes.blank hs rfl)

/-- TB_XA takes the first root of the forest out to EA (R172). -/
theorem extractA {q : Queue} (h : TreeOk s) (hs : s.seq = .xa) (hq : pqExtractMin s.pq = .ok (heapAt s.pq.heap 0, q)) :
    TreeOk { s with pq := q, pqOut := heapAt s.pq.heap 0, ea := heapAt s.pq.heap 0, seq := .xb } := by
  obtain ⟨hn, h2, hsum⟩ : 256 ≤ s.nnode.toNat ∧ 2 ≤ s.pq.hsize.val ∧ s.nnode.toNat + s.pq.hsize.val = 256 + s.usc.toNat := by
    simpa only [BuildOk, hs] using h.build
  obtain ⟨ts, hts⟩ : ∃ ts, IsForest s (entries s.pq) ts := by
    simpa only [ForestOk, buildRoots, hs] using h.forest
  obtain ⟨-, -, hsize, -⟩ := pqExtractMin_ok hq
  have h1 : 1 ≤ q.hsize.val := by omega
  have hsum' : s.nnode.toNat + q.hsize.val = 255 + s.usc.toNat := by omega
  exact ⟨⟨hn, h1, hsum'⟩, ⟨ts, (hts.perm (pqExtractMin_perm hq)).congr rfl⟩, h.codes.keep hs rfl rfl rfl⟩

/-- TB_XB takes the second root of the forest out to EB (R173). -/
theorem extractB {q : Queue} (h : TreeOk s) (hs : s.seq = .xb) (hq : pqExtractMin s.pq = .ok (heapAt s.pq.heap 0, q)) :
    TreeOk { s with pq := q, pqOut := heapAt s.pq.heap 0, eb := heapAt s.pq.heap 0, seq := .ins } := by
  obtain ⟨hn, h1, hsum⟩ : 256 ≤ s.nnode.toNat ∧ 1 ≤ s.pq.hsize.val ∧ s.nnode.toNat + s.pq.hsize.val = 255 + s.usc.toNat := by
    simpa only [BuildOk, hs] using h.build
  obtain ⟨ts, hts⟩ : ∃ ts, IsForest s (s.ea :: entries s.pq) ts := by
    simpa only [ForestOk, buildRoots, hs] using h.forest
  obtain ⟨-, -, hsize, -⟩ := pqExtractMin_ok hq
  have hsum' : s.nnode.toNat + q.hsize.val = 254 + s.usc.toNat := by omega
  exact ⟨⟨hn, hsum'⟩, ⟨ts, (hts.perm ((pqExtractMin_perm hq).cons s.ea)).congr rfl⟩, h.codes.keep hs rfl rfl rfl⟩

/-- TB_INS merges the two trees and puts the root of the merged one back; NNODE does not wrap (R174, R178). -/
theorem insert {a : Arr Node 255} {q : Queue} (h : TreeOk s) (hcounts : CountsOk s) (hs : s.seq = .ins)
    (ha : arenaSet s.arena s.nnode (mergedNode s) = .ok a) (hq : pqInsert ⟨mergedFreq s, s.nnode⟩ s.pq = .ok q) :
    TreeOk { s with arena := a, pq := q, nnode := s.nnode + 1, seq := mergeOrRoot q } := by
  obtain ⟨hn, hsum⟩ : 256 ≤ s.nnode.toNat ∧ s.nnode.toNat + s.pq.hsize.val = 254 + s.usc.toNat := by
    simpa only [BuildOk, hs] using h.build
  obtain ⟨ts, hts⟩ : ∃ ts, IsForest s (s.ea :: s.eb :: entries s.pq) ts := by
    simpa only [ForestOk, buildRoots, hs] using h.forest
  obtain ⟨-, husc⟩ := hcounts (by rw [hs]; rfl)
  have hcap := length_presentSyms_le s.freq
  have hnext : (s.nnode + 1).toNat = s.nnode.toNat + 1 := by bv_omega
  obtain ⟨-, hsize, -⟩ := pqInsert_ok hq
  obtain ⟨us, hus⟩ := hts.merge (by omega) ha
  have hn' : 256 ≤ (s.nnode + 1).toNat := by omega
  have hpos : 0 < q.hsize.val := by omega
  have hsum' : (s.nnode + 1).toNat + q.hsize.val = 256 + s.usc.toNat := by omega
  exact of_mergeOrRoot rfl hn' hpos hsum' ⟨us, (hus.perm (pqInsert_perm hq).symm).congr rfl⟩ (h.codes.blank hs rfl)

/-- TB_ROOT names the one tree left (R175). -/
theorem root (h : TreeOk s) (hs : s.seq = .root) :
    TreeOk { s with root := (heapAt s.pq.heap 0).node, seq := .gen } := by
  have hbuild : s.pq.hsize.val = 1 ∧ s.usc ≠ 0 ∧ s.nnode.toNat = 255 + s.usc.toNat := by
    simpa only [BuildOk, hs] using h.build
  obtain ⟨ts, hts⟩ : ∃ ts, IsForest s (entries s.pq) ts := by
    simpa only [ForestOk, buildRoots, hs] using h.forest
  exact ⟨hbuild, isRootTree_of_forest (hts.congr rfl) hbuild.1 rfl, h.codes.keep hs rfl rfl rfl⟩

/-- CG_GEN completes the code table (R191, R195). -/
theorem generate {c : Arr CodeEntry 256} (h : TreeOk s) (hs : s.seq = .gen) (hc : genCode s = .ok c) :
    TreeOk { s with seq := .pack, code := c } := by
  have hbuild : s.pq.hsize.val = 1 ∧ s.usc ≠ 0 ∧ s.nnode.toNat = 255 + s.usc.toNat := by
    simpa only [BuildOk, hs] using h.build
  obtain ⟨u, hu⟩ : ∃ u, IsRootTree s u := by simpa only [ForestOk, hs] using h.forest
  exact (treeOk_iff_codedOk rfl).2 ⟨hbuild, u, hu.congr rfl, hu.genCode (h.codes.blank hs rfl) hc⟩

/-! ## The steps -/

/-- A command accepted in a ready state keeps the build. -/
theorem command (h : TreeOk s) {w : CmdWord} (he : CommandEffect w s t) : TreeOk t := by
  cases he with
  | nothing => exact h
  | answer v => exact h.keep rfl
  | illegal => exact of_not_inRun (by simp [inRun])
  | raised k info hs hk => exact of_not_inRun (by simp [inRun])
  | start hs => exact of_not_inRun rfl
  | count d hs room =>
    have hbuild : s.pq.hsize.val = 0 ∧ s.nnode = 256 := by simpa only [BuildOk, hs] using h.build
    exact ⟨by simp only [BuildOk, hs]; exact hbuild, by simp only [ForestOk, hs],
      h.codes.keep hs rfl (by rw [hs]; rfl) rfl⟩
  | latch d hs => exact h.keepCoded (by simp [coded, hs]) rfl rfl
  | emptyPass hs hu => exact ⟨⟨nofun, fun _ => hu⟩, nofun, by simp [CodesOk, coded, stage]⟩
  | endScan hs hu =>
    obtain ⟨hempty, hnnode⟩ : s.pq.hsize.val = 0 ∧ s.nnode = 256 := by simpa only [BuildOk, hs] using h.build
    exact ⟨⟨hempty, hnnode, hu⟩, trivial, h.codes.keep hs rfl rfl rfl⟩
  | endPack hs => exact h.keepCoded (by simp [coded, hs]) rfl rfl
  | select sym hw => exact h.keep rfl
  | clear hw => exact of_not_inRun rfl

/-- CORE's operation keeps the build. -/
theorem core (h : TreeOk s) (hregisters : RegistersOk s) (hcounts : CountsOk s) (he : CoreEffect s t) : TreeOk t := by
  have hnoError : s.seq = .flush → s.err = .none := fun hs =>
    (hregisters.noError (by simp [hs]) (by simp [hs])).2
  cases he with
  | hold => exact h
  | init hs => exact ⟨⟨rfl, rfl⟩, trivial, codesOk_of_blank rfl fun sym => tableGet_fill _ sym⟩
  | load q hs hq => exact h.load hcounts hs hq
  | extractA q hs hq => exact h.extractA hs hq
  | extractB q hs hq => exact h.extractB hs hq
  | insert a q hs ha hq => exact h.insert hcounts hs ha hq
  | queueFault k hs hk => exact of_not_inRun (by simp [inRun])
  | root hs => exact h.root hs
  | generate c hs hc => exact h.generate hs hc
  | emitted hs hl => exact h.keepCoded (by simp [coded, hs]) rfl rfl
  | emitBit hs hl room => exact h.keep (by simp)
  | flushed hs hn => exact h.keepCoded (by simp [coded, hs]) (by simp [coded, hnoError hs]) rfl
  | flushByte hs hn room => exact h.keepCoded (by simp [coded, hs]) (by simp [coded, hnoError hs]) rfl

/-- A step keeps the build. -/
theorem step (h : TreeOk s) (hregisters : RegistersOk s) (hcounts : CountsOk s) (he : StepEffect s t) : TreeOk t := by
  have hbegun : TreeOk (begun s) := h.keep rfl
  cases he with
  | reset ht => exact of_not_inRun rfl
  | wait => exact hbegun
  | @command w cs _ hb hc he =>
    have htaken : TreeOk { begun s with cmds := cs } := hbegun.keep rfl
    exact htaken.command he
  | core he => exact hbegun.core (hregisters.keep rfl le_rfl) (hcounts.keep rfl id) he
  | pop ho => exact h.keep rfl

end TreeOk

/-- Settles O53: a step is one of `StepEffect`; the registers, the order and the counts are kept as in O50 to O52, and the
build, the forest and the code table by `TreeOk.step`. -/
theorem stepKeepsTheRunInvariant : Obligations.StepKeepsTheRunInvariant := by
  intro s t h hstep
  have he := step_effect h.registers.wires hstep
  obtain ⟨hbuild, hforest, hcodes⟩ := h.treeOk.step h.registers h.counts he
  exact ⟨h.registers.step he, h.heap.step he, h.counts.step he, hbuild, hforest, hcodes⟩

end Sys2Proof.Machine

/-! PROOFS. The code table's operations (44_code_table.md R191 to R194) and the Kraft equality of its codes (R195 (c)). -/
namespace Sys2Proof.Machine

/-! ## The operations -/

@[simp] theorem putCode_ok (s : State) (c : Arr CodeEntry 256) : putCode s (.ok c) = .next { s with code := c } := rfl

/-- Settles O29: the table is the one `traverseRoot_codesWritten` describes, and from the root an entry is the path's own. -/
theorem traverseWritesThePaths : Obligations.TraverseWritesThePaths := by
  intro s t hroot hstored hd
  obtain ⟨c, hc, hw⟩ := traverseRoot_codesWritten hroot hstored hd
  refine ⟨c, ?_, fun p hp => (hw.own p hp).trans (entryAlong_root s.root p.2), hw.other⟩
  change putCode s (traverseRoot s) = _
  rw [hc, putCode_ok]

/-- Settles O31: the table is the one `genCode_entries` describes. -/
theorem genFillsTheCodeTable : Obligations.GenFillsTheCodeTable := by
  intro s t hroot hstored hd
  obtain ⟨c, hc, hentries⟩ := genCode_entries hroot hstored hd
  refine ⟨c, ?_, hentries⟩
  change putCode { s with seq := .pack } (genCode s) = _
  rw [hc, putCode_ok]

/-- Settles O30: ROOT below 256 is a Leaf, and the one entry written is its symbol's. -/
theorem singleSymbolGetsCodeZero : Obligations.SingleSymbolGetsCodeZero := by
  intro s h
  have hleaf : isLeaf s.root = true := decide_eq_true h
  refine ⟨tableSet s.code (leafSym s.root) ⟨1, 0⟩, ?_, tableGet_tableSet_same _ _ _, fun _ => tableGet_tableSet_ne _ _⟩
  change putCode s (singleCode s) = _
  rw [singleCode, if_pos hleaf, putCode_ok]

/-- Settles O32: a symbol with a code goes to the result wires, one without takes the fault entry with the BYTE word. -/
theorem lookupFindsTheCodeOrFails : Obligations.LookupFindsTheCodeOrFails := by
  intro s d
  refine ⟨fun h => ?found, fun h hs => ?missing⟩
  all_goals change settle (cmdWord 0x2 d) s (ctLookup d s) = _
  case found => rw [ctLookup, if_neg h, settle_ok]
  case missing => rw [ctLookup, if_pos h, settle_error, raise_eq s _ _ hs, cmdWord_byte]

/-! ## The Kraft equality -/

theorem HuffTree.length_leaves_pos (t : HuffTree) : 0 < t.leaves.length := by
  have := t.pops_add_one
  omega

/-- A path has fewer edges than the tree has leaves. -/
theorem HuffTree.length_path_lt {t : HuffTree} {p : Byte × List Bool} (hp : p ∈ t.paths) :
    p.2.length < t.leaves.length := by
  induction t generalizing p with
  | leaf sym => simp [List.mem_singleton.1 hp, leaves]
  | node id l r hl hr =>
    rw [leaves, List.length_append]
    rcases List.mem_append.1 hp with hp | hp <;> obtain ⟨q, hq, rfl⟩ := List.mem_map.1 hp
    · exact lt_of_le_of_lt (hl hq) (Nat.lt_add_of_pos_right r.length_leaves_pos)
    · exact lt_of_le_of_lt (hr hq) (Nat.lt_add_of_pos_left l.length_leaves_pos)

/-- The Kraft equality of a full binary tree, times 2^n for an n that its leaves allow: the two subtrees of a node give
half of it each. -/
theorem HuffTree.kraft (t : HuffTree) {n : Nat} (hn : t.leaves.length ≤ n + 1) :
    (t.paths.map fun p => 2 ^ (n - p.2.length)).sum = 2 ^ n := by
  induction t generalizing n with
  | leaf sym => simp [paths]
  | node id l r hl hr =>
    have hlpos := l.length_leaves_pos
    have hrpos := r.length_leaves_pos
    rw [leaves, List.length_append] at hn
    obtain ⟨m, rfl⟩ : ∃ m, n = m + 1 := ⟨n - 1, by omega⟩
    simp only [paths, List.map_append, List.map_map, List.sum_append, Function.comp_def, List.length_cons,
      Nat.add_sub_add_right]
    rw [hl (by omega), hr (by omega), pow_succ, mul_two]

/-- In a tree of two leaves or more with distinct leaves the code of a leaf is its path (R190). -/
theorem HuffTree.entry_node_of_mem_paths {id : NodeId} {l r : HuffTree} (hd : (HuffTree.node id l r).leaves.Nodup)
    {p : Byte × List Bool} (hp : p ∈ (HuffTree.node id l r).paths) :
    (HuffTree.node id l r).entry p.1 = entryOf p.2 := by
  obtain ⟨path, hpath, he⟩ := entry_node_of_mem (mem_leaves_iff.2 ⟨p.2, hp⟩)
  rw [← paths_map_fst] at hd
  rw [he, ← List.inj_on_of_nodup_map hd hpath hp rfl]

/-- With at most 256 distinct leaves the code length of a leaf is its depth, which the register holds (R190). -/
theorem HuffTree.len_entry_node {id : NodeId} {l r : HuffTree} (hd : (HuffTree.node id l r).leaves.Nodup)
    {p : Byte × List Bool} (hp : p ∈ (HuffTree.node id l r).paths) :
    ((HuffTree.node id l r).entry p.1).len.toNat = p.2.length := by
  have hlt := (length_path_lt hp).trans_le (length_le_of_nodup hd)
  rw [entry_node_of_mem_paths hd hp, entryOf, BitVec.toNat_ofNat, Nat.mod_eq_of_lt hlt]

theorem inRun_of_coded {s : State} (h : coded s = true) : inRun s.seq = true := by
  rcases (coded_iff s).1 h with e | e | e | ⟨e, -⟩ <;> rw [e] <;> rfl

/-- What a complete code table comes from: with two symbols or more, a tree under ROOT that is no single leaf (R178, R195). -/
theorem RunOk.codedTree {s : State} (h : RunOk s) (hc : coded s = true) (husc : 2 ≤ s.usc.toNat) :
    ∃ id l r, IsRootTree s (.node id l r) ∧ ∀ sym, tableGet s.code sym = (HuffTree.node id l r).entry sym := by
  obtain ⟨t, ht, hentry⟩ := h.codes.2 hc
  cases t with
  | node id l r => exact ⟨id, l, r, ht, hentry⟩
  | leaf only =>
    obtain ⟨-, hlength⟩ := h.counts (inRun_of_coded hc)
    have hone : 1 = (presentSyms s.freq).length := ht.leaves_perm.length_eq
    omega

/-- Settles O56: the present symbols are the leaves of the tree under ROOT and their code lengths its depths, so the sum is
the one of `HuffTree.kraft`. -/
theorem kraftEquality : Obligations.KraftEquality := by
  intro s h hc husc
  obtain ⟨id, l, r, htree, hentry⟩ := h.codedTree hc husc
  have hd := htree.leaves_nodup
  rw [← (htree.leaves_perm.map _).sum_eq, ← HuffTree.paths_map_fst, List.map_map]
  refine Eq.trans (congrArg List.sum (List.map_congr_left fun p hp => ?_))
    (HuffTree.kraft (n := 255) _ (length_le_of_nodup hd))
  rw [Function.comp_apply, hentry, HuffTree.len_entry_node hd hp]

end Sys2Proof.Machine

/-! PROOFS. The Bit-Packed Writer and OUT_POP (45_bit_packer.md R206 to R212): the operations one by one, a symbol's whole
code appended by BYTE and BP_EMIT, and the closed form of the emitted bytes. -/
namespace Sys2Proof.Machine

/-! ## The operations -/

/-- Settles O34: the state is `bpLatch`'s own. -/
theorem latchStartsASymbol : Obligations.LatchStartsASymbol := fun _ _ => rfl

theorem putHeld_iff (s : State) : putHeld s = true ↔ s.nbits = 7 ∧ s.outDepth ≤ s.outq.length := by
  simp [putHeld, outFull]

theorem exec_bpPutBit_held (b : Bool) {s : State} (h : putHeld s = true) : exec (.bpPutBit b) s = .next s := if_pos h

theorem exec_bpPutBit_room (b : Bool) {s : State} (h : ¬putHeld s = true) : exec (.bpPutBit b) s = .next (putBit b s) :=
  if_neg h

/-- Settles O35: the byte is ACC with the bit shifted in; the eighth bit is held exactly while OUTQ is full. -/
theorem putBitAppendsOrEmits : Obligations.PutBitAppendsOrEmits := by
  intro s b
  refine ⟨shiftIn b s.acc, fun hacc => ?value, shiftIn_bit b s.acc, fun h7 => ?append, fun h7 room => ?emit,
    fun h7 full => exec_bpPutBit_held b ((putHeld_iff s).2 ⟨h7, full⟩)⟩
  case value =>
    have hn : s.nbits.toNat ≤ 7 := Nat.le_of_lt_succ s.nbits.isLt
    exact shiftIn_toNat b s.acc (hacc.trans_le (Nat.pow_le_pow_right Nat.two_pos hn))
  case append =>
    rw [exec_bpPutBit_room b fun h => h7 ((putHeld_iff s).1 h).1, putBit_room b h7]
  case emit =>
    rw [exec_bpPutBit_room b fun h => Nat.not_le.2 room ((putHeld_iff s).1 h).2, putBit_full b h7]

/-- BP_EMIT after the last bit of a code (R208). -/
theorem exec_bpEmit_end {s : State} (hl : s.curLen = 0) : exec .bpEmit s = .next { s with seq := .pack } := if_pos hl

/-- Settles O36: the three cases of BP_EMIT, the bit step being the one of BP_PUT_BIT. -/
theorem emitAppendsTheNextCodeBit : Obligations.EmitAppendsTheNextCodeBit := by
  intro s
  refine ⟨exec_bpEmit_end, fun hl h7 full => ?held, fun hl hroom => ?bit⟩
  case held => exact (if_neg hl).trans (if_pos ((putHeld_iff s).2 ⟨h7, full⟩))
  case bit =>
    have hput : ¬putHeld s = true := mt (putHeld_iff s).1 hroom
    exact ⟨_, exec_bpPutBit_room _ hput, execBpEmit_putBit hl (Bool.not_eq_true _ ▸ hput)⟩

/-- Bit k of the flushed byte: zeros below, the pending bits above (R209). -/
theorem flushByte_bit (s : State) {k : Nat} (hk : k < 8) :
    (flushByte s).getLsbD k =
      if k < 8 - s.nbits.toNat then false else s.acc.getLsbD (k - (8 - s.nbits.toNat)) := by
  rw [flushByte, BitVec.getLsbD_shiftLeft]
  by_cases hz : k < 8 - s.nbits.toNat <;> simp [hk, hz]

/-- Settles O37: the three cases of BP_FLUSH, the byte being the one `flushByte_bit` describes. -/
theorem flushPadsTheLastByte : Obligations.FlushPadsTheLastByte := by
  intro s
  refine ⟨fun hn => if_pos hn, fun hn full => ?held, fun hn room => ?flush⟩
  case held => exact (if_neg hn).trans (if_pos (decide_eq_true full))
  case flush =>
    exact ⟨flushByte s, execBpFlush_flushByte hn (decide_eq_false (Nat.not_le.2 room)), fun k => flushByte_bit s⟩

/-- Settles O38: with OUTQ = b :: rest the pins show b and OUT_POP takes it (`outPop_cons`). -/
theorem popTakesTheOldestByte : Obligations.PopTakesTheOldestByte := by
  intro s b rest h
  exact ⟨by simp [pinOutValid, h], by simp [pinOutData, h], outPop_cons h⟩

/-! ## A symbol's whole code -/

/-- The number of bits in OUTQ and the accumulator together. -/
def storedBits (s : State) : Nat := 8 * s.outq.length + s.nbits.toNat

/-- An appended bit is stored, in the accumulator or in the byte it completes (R207). -/
theorem storedBits_putBit (b : Bool) (s : State) : storedBits (putBit b s) = storedBits s + 1 := by
  by_cases h7 : s.nbits = 7
  · simp [putBit_full b h7, storedBits, h7, Nat.mul_succ]
  · have hn : (s.nbits + 1).toNat = s.nbits.toNat + 1 := by bv_omega
    rw [putBit_room b h7, storedBits, storedBits, hn, Nat.add_assoc]

/-- A bit is not held while OUTQ and the accumulator can store one more (R208). -/
theorem putHeld_eq_false {s : State} (h : storedBits s + 1 < 8 * (s.outDepth + 1)) : putHeld s = false := by
  refine Bool.eq_false_iff.2 fun hheld => ?_
  obtain ⟨h7, hfull⟩ := (putHeld_iff s).1 hheld
  have h7' : s.nbits.toNat = 7 := congrArg BitVec.toNat h7
  unfold storedBits at h
  omega

/-- The state while d is encoded from `s`: `len` bits of its code are still to append (R206, R208), and the lookup left
its entry on the result wires (log 8). -/
def encoding (d len : Byte) (q : SeqState) (s : State) : State :=
  { s with curSym := d, curLen := len, seq := q, ctOut := tableGet s.code d }

theorem putBit_encoding (b : Bool) (d len : Byte) (q : SeqState) (s : State) :
    putBit b (encoding d len q s) = encoding d len q (putBit b s) := by
  by_cases h7 : s.nbits = 7
  · rw [putBit_full b h7, putBit_full b (s := encoding d len q s) h7]; rfl
  · rw [putBit_room b h7, putBit_room b (s := encoding d len q s) h7]; rfl

/-- BYTE in S_PACK, for a symbol with a code, starts its encoding (R124, R206). -/
theorem exec_byte_encoding {s : State} {d : Byte} (hs : s.seq = .pack) (hd : (tableGet s.code d).len ≠ 0) :
    exec (.byte d) s = .next (encoding d (tableGet s.code d).len .emit s) := by
  rcases packByte_cases d s with ⟨h, -⟩ | ⟨-, h⟩
  · exact absurd h hd
  · rw [exec_byte_pack d hs, h]; rfl

/-- BP_EMIT with no bit left to append (R208). -/
theorem exec_bpEmit_encoding_zero (d : Byte) (s : State) :
    exec .bpEmit (encoding d 0 .emit s) = .next (encoding d 0 .pack s) :=
  exec_bpEmit_end rfl

/-- BP_EMIT with bits left to append and room for one (R208). -/
theorem exec_bpEmit_encoding {d len : Byte} {s : State} (hl : len ≠ 0)
    (hroom : storedBits s + 1 < 8 * (s.outDepth + 1)) :
    exec .bpEmit (encoding d len .emit s) =
      .next (encoding d (len - 1) .emit (putBit (codeBit (tableGet s.code d).bits len) s)) := by
  refine (execBpEmit_putBit (s := encoding d len .emit s) hl (putHeld_eq_false hroom)).trans ?_
  rw [putBit_encoding]
  rfl

/-- The bits of a code of which `len` are still to append start with the one BP_EMIT appends next (R64, R71). -/
theorem codeOf_cons {len : Byte} (hl : len ≠ 0) (bits : CodeBits) :
    codeOf ⟨len, bits⟩ = codeBit bits len :: codeOf ⟨len - 1, bits⟩ := by
  have hlen : len.toNat = (len - 1).toNat + 1 := by bv_omega
  simp only [codeOf, codeBit, hlen, List.range_succ_eq_map, List.map_cons, List.map_map, Nat.add_sub_cancel]
  refine congrArg _ (List.map_congr_left fun j _ => ?_)
  rw [Function.comp_apply, Nat.sub_sub, Nat.add_comm 1]

/-- As many BP_EMIT steps as there are bits to append, and one more, append them in order and return to S_PACK (R208). -/
theorem execAll_bpEmit {n : Nat} {d len : Byte} {s : State} (hlen : len.toNat = n)
    (hroom : storedBits s + n < 8 * (s.outDepth + 1)) :
    execAll (List.replicate (n + 1) .bpEmit) (encoding d len .emit s) =
      .next (encoding d 0 .pack (putBits (codeOf ⟨len, (tableGet s.code d).bits⟩) s)) := by
  rw [List.replicate_succ, execAll]
  induction n generalizing len s with
  | zero =>
    obtain rfl : len = 0 := BitVec.eq_of_toNat_eq hlen
    rw [exec_bpEmit_encoding_zero]
    rfl
  | succ n ih =>
    have hl : len ≠ 0 := by rintro rfl; cases hlen
    rw [exec_bpEmit_encoding hl (by omega), codeOf_cons hl, putBits, List.replicate_succ]
    have hnext := ih (len := len - 1) (s := putBit (codeBit (tableGet s.code d).bits len) s) (by bv_omega)
      (by rw [storedBits_putBit, putBit_outDepth]; omega)
    rwa [putBit_code] at hnext

/-- Bits appended change ACC, NBITS and OUTQ only (R207). -/
theorem putBits_frame (c : List Bool) (s : State) :
    putBits c s = { s with outq := (putBits c s).outq, acc := (putBits c s).acc, nbits := (putBits c s).nbits } := by
  induction c generalizing s with
  | nil => rfl
  | cons b c ih =>
    have hbit : putBit b s =
        { s with outq := (putBit b s).outq, acc := (putBit b s).acc, nbits := (putBit b s).nbits } := by
      by_cases h7 : s.nbits = 7
      · rw [putBit_full b h7]
      · rw [putBit_room b h7]
    refine (ih (putBit b s)).trans ?_
    exact congrArg (fun u : State => { u with
      outq := (putBits (b :: c) s).outq, acc := (putBits (b :: c) s).acc, nbits := (putBits (b :: c) s).nbits }) hbit

/-- Settles O39: BYTE starts the encoding of d, and the BP_EMIT steps append its bits, at most 255 after the at most 7
pending ones, so 32 more bytes hold them. -/
theorem byteAppendsItsWholeCode : Obligations.ByteAppendsItsWholeCode := by
  intro s d hs hd hroom
  have hstored : storedBits s + (tableGet s.code d).len.toNat < 8 * (s.outDepth + 1) := by
    have := s.nbits.isLt
    have := (tableGet s.code d).len.isLt
    unfold storedBits
    omega
  rw [execAll, exec_byte_encoding hs hd]
  refine (execAll_bpEmit rfl hstored).trans ?_
  rw [putBits_frame, encoding, ← hs]

/-! ## The closed form of the output -/

/-- The low n bits of a byte, bit 0 first. -/
def lowBits (n : Nat) (v : Byte) : List Bool := (List.range n).map v.getLsbD

/-- A bit shifted in comes before the others (R207). -/
theorem lowBits_shiftIn (b : Bool) (v : Byte) {n : Nat} (hn : n < 8) :
    lowBits (n + 1) (shiftIn b v) = b :: lowBits n v := by
  simp only [lowBits, List.range_succ_eq_map, List.map_cons, List.map_map]
  rw [shiftIn_bit b v 0 (by decide), if_pos rfl]
  refine congrArg _ (List.map_congr_left fun k hk => ?_)
  have hk8 : k + 1 < 8 := by have := List.mem_range.1 hk; omega
  rw [Function.comp_apply, shiftIn_bit b v _ hk8, if_neg k.succ_ne_zero, Nat.add_sub_cancel]

/-- A byte is its eight bits. -/
theorem lowBits_injective : Function.Injective (lowBits 8) := fun _ _ h =>
  BitVec.eq_of_getLsbD_eq fun k hk => List.map_inj_left.1 h k (List.mem_range.2 hk)

theorem byteOfBits_concat (g : List Bool) (b : Bool) : byteOfBits (g ++ [b]) = shiftIn b (byteOfBits g) := by
  rw [byteOfBits, List.foldl_append]
  rfl

/-- A group of at most eight bits as a byte has its last bit as bit 0 (R63). -/
theorem lowBits_byteOfBits {g : List Bool} (hg : g.length ≤ 8) : lowBits g.length (byteOfBits g) = g.reverse := by
  induction g using List.reverseRecOn with
  | nil => rfl
  | append_singleton g b ih =>
    rw [List.length_append, List.length_singleton] at hg ⊢
    rw [byteOfBits_concat, lowBits_shiftIn b _ hg, ih (Nat.le_of_succ_le hg), List.reverse_concat]

@[simp] theorem length_pendingBits (s : State) : (pendingBits s).length = s.nbits.toNat := by simp [pendingBits]

/-- The latest pending bit is bit 0 of ACC (R32). -/
theorem reverse_pendingBits (s : State) : (pendingBits s).reverse = lowBits s.nbits.toNat s.acc := by
  refine List.ext_getElem (by simp [lowBits]) fun k hk _ => ?_
  have hkn : k < s.nbits.toNat := by simpa using hk
  simp only [pendingBits, lowBits, List.getElem_reverse, List.getElem_map, List.getElem_range, List.length_map,
    List.length_range]
  congr 1
  omega

/-- Before the eighth bit, an appended bit is pending after the others (R207). -/
theorem pendingBits_putBit_room (b : Bool) {s : State} (h7 : s.nbits ≠ 7) :
    pendingBits (putBit b s) = pendingBits s ++ [b] := by
  have hn : (s.nbits + 1).toNat = s.nbits.toNat + 1 := by bv_omega
  apply List.reverse_injective
  rw [reverse_pendingBits, List.reverse_concat, reverse_pendingBits, putBit_room b h7, hn,
    lowBits_shiftIn b s.acc (by omega)]

/-- With the eighth bit no bit is pending (R207). -/
theorem pendingBits_putBit_full (b : Bool) {s : State} (h7 : s.nbits = 7) : pendingBits (putBit b s) = [] := by
  rw [putBit_full b h7]
  rfl

/-- The byte completed by the eighth bit is the seven pending bits and that one, the first as bit 7 (R205). -/
theorem byteOfBits_pendingBits_concat (b : Bool) {s : State} (h7 : s.nbits = 7) :
    byteOfBits (pendingBits s ++ [b]) = shiftIn b s.acc := by
  have hn : s.nbits.toNat = 7 := congrArg BitVec.toNat h7
  have hlength : (pendingBits s ++ [b]).length = 8 := by simp [hn]
  apply lowBits_injective
  calc lowBits 8 (byteOfBits (pendingBits s ++ [b]))
      = (pendingBits s ++ [b]).reverse := by rw [← lowBits_byteOfBits hlength.le, hlength]
    _ = b :: lowBits 7 s.acc := by rw [List.reverse_concat, reverse_pendingBits, hn]
    _ = lowBits 8 (shiftIn b s.acc) := (lowBits_shiftIn b s.acc (by decide)).symm

/-- Fewer than eight bits make no byte (R212). -/
theorem wholeBytes_of_length_lt {c : List Bool} (h : c.length < 8) : wholeBytes c = [] := by
  rw [wholeBytes, Nat.div_eq_of_lt h]
  rfl

theorem restBits_of_length_lt {c : List Bool} (h : c.length < 8) : restBits c = c := by
  rw [restBits, Nat.div_eq_of_lt h]
  rfl

theorem length_append_div_eight {g : List Bool} (hg : g.length = 8) (c : List Bool) :
    (g ++ c).length / 8 = c.length / 8 + 1 := by
  rw [List.length_append, hg, Nat.add_div_left _ (by decide)]

/-- The groups of bits that start with a group of eight come after it. -/
theorem drop_append_group {g : List Bool} (hg : g.length = 8) (c : List Bool) (k : Nat) :
    (g ++ c).drop (8 * (k + 1)) = c.drop (8 * k) := by
  rw [Nat.mul_succ, Nat.add_comm, ← hg, List.drop_length_add_append]

/-- A group of eight bits makes the first byte (R212). -/
theorem wholeBytes_append_group {g : List Bool} (hg : g.length = 8) (c : List Bool) :
    wholeBytes (g ++ c) = byteOfBits g :: wholeBytes c := by
  simp only [wholeBytes, length_append_div_eight hg, List.range_succ_eq_map, List.map_cons, List.map_map]
  congr 1
  · rw [Nat.mul_zero, List.drop_zero, ← hg, List.take_left]
  · exact List.map_congr_left fun k _ => by rw [Function.comp_apply, Nat.succ_eq_add_one, drop_append_group hg]

theorem restBits_append_group {g : List Bool} (hg : g.length = 8) (c : List Bool) :
    restBits (g ++ c) = restBits c := by
  rw [restBits, length_append_div_eight hg, drop_append_group hg]
  rfl

/-- The bits appended come out in whole groups, and the bits left over are pending (R212). -/
theorem putBits_packs (c : List Bool) (s : State) :
    (putBits c s).outq = s.outq ++ wholeBytes (pendingBits s ++ c) ∧
    pendingBits (putBits c s) = restBits (pendingBits s ++ c) := by
  induction c generalizing s with
  | nil =>
    have hlt : (pendingBits s).length < 8 := by rw [length_pendingBits]; exact s.nbits.isLt
    rw [putBits, List.append_nil, wholeBytes_of_length_lt hlt, restBits_of_length_lt hlt, List.append_nil]
    exact ⟨rfl, rfl⟩
  | cons b c ih =>
    obtain ⟨hout, hrest⟩ := ih (putBit b s)
    rw [putBits, hout, hrest, List.append_cons]
    by_cases h7 : s.nbits = 7
    · have hgroup : (pendingBits s ++ [b]).length = 8 := by simp [h7]
      rw [pendingBits_putBit_full b h7, List.nil_append, wholeBytes_append_group hgroup, restBits_append_group hgroup,
        byteOfBits_pendingBits_concat b h7, putBit_full b h7]
      exact ⟨List.append_assoc _ [_] _, rfl⟩
    · rw [pendingBits_putBit_room b h7, putBit_room b h7]
      exact ⟨rfl, rfl⟩

/-- Bits appended leave ACC below 2^NBITS (R32). -/
theorem putBits_acc_lt (c : List Bool) {s : State} (h : s.acc.toNat < 2 ^ s.nbits.toNat) :
    (putBits c s).acc.toNat < 2 ^ (putBits c s).nbits.toNat := by
  induction c generalizing s with
  | nil => exact h
  | cons b c ih => exact ih (putBit_acc_lt b h)

/-- Settles O40: the frame, the bytes and the pending bits of `putBits`, and the bound on ACC that every bit keeps. -/
theorem packedBytesAreTheBitsInOrder : Obligations.PackedBytesAreTheBitsInOrder := by
  intro s c hacc
  obtain ⟨hout, hrest⟩ := putBits_packs c s
  exact ⟨hout ▸ putBits_frame c s, hrest, putBits_acc_lt c hacc⟩

end Sys2Proof.Machine

/-! PROOFS. Array content no rule reads (46_sequencer.md R237, 10_state.md R45; 93 S1, S2): the queue's operations depend on
its entries alone, CG_GEN on the arena below NNODE, and the rest of a step on neither. -/
namespace Sys2Proof.Machine

/-! ## HEAP at and beyond HSIZE -/

/-- Two HEAP arrays read alike at the positions below n. -/
def AgreeBelow (n : Nat) (g h : Arr HeapEntry 256) : Prop := ∀ j, j < n → heapAt g j = heapAt h j

namespace AgreeBelow

variable {g h : Arr HeapEntry 256} {n : Nat}

/-- R151 compares positions below HSIZE only. -/
theorem smallest (hgh : AgreeBelow n g h) (i : Nat) : smallest g n i = smallest h n i := by
  by_cases hl : 2 * i + 1 < n
  · simp only [Machine.smallest, hgh i (by omega), hgh _ hl]
    by_cases hr : 2 * i + 2 < n
    · rw [hgh _ hr, hgh (ite _ _ _) (by split <;> omega)]
    · simp only [hr, false_and]
  · rw [smallest_eq_self g n i (by omega) (by omega), smallest_eq_self h n i (by omega) (by omega)]

theorem swap (hgh : AgreeBelow n g h) (hn : n ≤ 256) {i m : Nat} (hi : i < n) (hm : m < n) :
    AgreeBelow n (heapSwap g i m) (heapSwap h i m) := by
  intro j hj
  rw [heapAt_heapSwap g (by omega) (by omega), heapAt_heapSwap h (by omega) (by omega), hgh i hi, hgh m hm, hgh j hj]

theorem siftDown (hgh : AgreeBelow n g h) (hn : n ≤ 256) (fuel i : Nat) :
    AgreeBelow n (siftDown fuel g n i) (siftDown fuel h n i) := by
  induction fuel generalizing g h i with
  | zero => exact hgh
  | succ fuel ih =>
    rw [siftDown_succ, siftDown_succ, hgh.smallest i]
    split
    next => exact hgh
    next hm =>
      have := smallest_child hm
      exact ih (hgh.swap hn (by omega) (by omega)) _

theorem heapifyFrom (hgh : AgreeBelow n g h) (hn : n ≤ 256) (k : Nat) :
    AgreeBelow n (heapifyFrom n k g) (heapifyFrom n k h) := by
  induction k generalizing g h with
  | zero => exact hgh
  | succ k ih => exact ih (hgh.siftDown hn _ k)

end AgreeBelow

/-- The queue r has the entries of q (R27), whatever HEAP holds beyond them. -/
structure SameEntries (q r : Queue) : Prop where
  hsize : r.hsize = q.hsize
  heap : AgreeBelow q.hsize.val r.heap q.heap

theorem sameEntries_iff {q r : Queue} : SameEntries q r ↔ r.hsize = q.hsize ∧ entries r = entries q := by
  have hget : ∀ (p : Queue) (j : Nat), j < p.hsize.val → (entries p)[j]? = some (heapAt p.heap j) := fun p j hj => by
    have hle := hsize_le p
    rw [entries, List.getElem?_take_of_lt hj, heapAt_eq_getElem p.heap (by omega)]
    exact List.getElem?_eq_getElem _
  refine ⟨fun ⟨hsize, hheap⟩ => ⟨hsize, List.ext_getElem? fun j => ?_⟩, fun ⟨hsize, he⟩ => ⟨hsize, fun j hj => ?_⟩⟩
  · by_cases hj : j < q.hsize.val
    · rw [hget q j hj, hget r j (hsize ▸ hj), hheap j hj]
    · rw [List.getElem?_eq_none (by rw [length_entries, hsize]; omega),
        List.getElem?_eq_none (by rw [length_entries]; omega)]
  · exact Option.some.inj ((hget r j (hsize ▸ hj)).symm.trans (he ▸ hget q j hj))

namespace SameEntries

variable {q r : Queue}

theorem rebuilt (h : SameEntries q r) : SameEntries (rebuilt q) (rebuilt r) :=
  ⟨h.hsize, by
    have := h.heap.heapifyFrom (hsize_le q) (q.hsize.val / 2)
    simp only [Machine.rebuilt, buildHeap, h.hsize]
    exact this⟩

theorem appended (h : SameEntries q r) (e : HeapEntry) (room : q.hsize.val < 256) (room' : r.hsize.val < 256) :
    SameEntries (appended e q room) (appended e r room') where
  hsize := Fin.ext (by simp only [Machine.appended, h.hsize])
  heap j hj := by
    have hj' : j < q.hsize.val + 1 := hj
    rw [heapAt_appended, heapAt_appended, h.hsize]
    split
    next => rfl
    next hne => exact h.heap j (by omega)

theorem rootSifted (h : SameEntries q r) : SameEntries (rootSifted q) (rootSifted r) :=
  ⟨h.hsize, by
    have := h.heap.siftDown (hsize_le q) Config.heapCap 0
    simp only [Machine.rootSifted, h.hsize]
    exact this⟩

theorem lastToRoot (h : SameEntries q r) : SameEntries (lastToRoot q) (lastToRoot r) where
  hsize := Fin.ext (by simp only [Machine.lastToRoot, h.hsize])
  heap j hj := by
    have hj' : j < q.hsize.val - 1 := hj
    rw [heapAt_lastToRoot, heapAt_lastToRoot, h.hsize]
    split <;> exact h.heap _ (by omega)

/-- The state after TB_LOAD and TB_INS depends on HSIZE alone (R171, R174). -/
theorem mergeOrRoot (h : SameEntries q r) : mergeOrRoot r = mergeOrRoot q := by
  rw [Machine.mergeOrRoot, h.hsize, Machine.mergeOrRoot]

/-- PQ_INSERT reads the entries alone (R153). -/
theorem pqInsert (h : SameEntries q r) {e : HeapEntry} {q' : Queue} (hq : pqInsert e q = .ok q') :
    ∃ r', pqInsert e r = .ok r' ∧ SameEntries q' r' := by
  have room := (pqInsert_ok hq).1
  have room' : r.hsize.val < 256 := h.hsize ▸ room
  cases (pqInsert_eq e room).symm.trans hq
  exact ⟨_, pqInsert_eq e room', (h.appended e room room').rebuilt⟩

/-- TB_LOAD's loop reads the entries alone (R171). -/
theorem loadLeaves (h : SameEntries q r) {n : Nat} {l : List Word32} {q' : Queue} (hq : loadLeaves n l q = .ok q') :
    ∃ r', loadLeaves n l r = .ok r' ∧ SameEntries q' r' := by
  induction l generalizing n q r with
  | nil => cases hq; exact ⟨r, rfl, h⟩
  | cons f rest ih =>
    simp only [Machine.loadLeaves] at hq ⊢
    split
    next h0 => rw [if_pos h0] at hq; exact ih h hq
    next h0 =>
      rw [if_neg h0] at hq
      cases hp : Machine.pqInsert ⟨f, BitVec.ofNat 9 n⟩ q with
      | ok p =>
        obtain ⟨p', hp', hsame⟩ := h.pqInsert hp
        rw [hp] at hq
        rw [hp']
        exact ih hsame hq
      | error k => rw [hp] at hq; cases hq

end SameEntries

/-! ## Other array content -/

/-- The state with other content in its arrays (10_state.md R45). -/
def withContent (q : Queue) (f : Arr Word32 256) (a : Arr Node 255) (c : Arr CodeEntry 256) (s : State) : State :=
  { s with pq := q, freq := f, arena := a, code := c }

@[simp] theorem withContent_cmds (q : Queue) (f : Arr Word32 256) (a : Arr Node 255) (c : Arr CodeEntry 256)
    (s : State) : (withContent q f a c s).cmds = s.cmds := rfl

namespace Alike

variable {s s' t : State} {q : Queue} {f f' : Arr Word32 256} {a : Arr Node 255} {c c' : Arr CodeEntry 256}

theorem exists_content (h : Alike s s') : ∃ q f a c, s' = withContent q f a c s :=
  ⟨_, _, _, _, h.rest⟩

theorem seq_eq (h : Alike s s') : s'.seq = s.seq := by
  obtain ⟨q, f, a, c, rfl⟩ := h.exists_content
  rfl

/-- Within a run FREQ and the code table are the same (R237). -/
theorem exists_content_of_inRun (h : Alike s s') (hr : inRun s.seq = true) :
    ∃ q a, s' = withContent q s.freq a s.code s := by
  obtain ⟨hfreq, hcode⟩ := h.tables hr
  exact ⟨s'.pq, s'.arena, by rw [← hfreq, ← hcode]; exact h.rest⟩

theorem sameEntries (h : Alike s s') (hr : inRun s.seq = true) : SameEntries s.pq s'.pq :=
  sameEntries_iff.2 ⟨h.hsize, h.heap hr⟩

/-- Outside a run any content is as good as any other (93 S1, S2). -/
theorem of_not_inRun (hsize : q.hsize = t.pq.hsize) (hr : inRun t.seq = false) : Alike t (withContent q f a c t) where
  rest := rfl
  hsize := hsize
  tables hr' := by rw [hr] at hr'; cases hr'
  heap hr' := by rw [hr] at hr'; cases hr'
  arena hr' := by rw [hr] at hr'; cases hr'

/-- Within a run the entries of the queue and the arena below NNODE are the same (R237). -/
theorem of_sameEntries (hq : SameEntries t.pq q) (ha : ∀ n, n < t.nnode → arenaGet a n = arenaGet t.arena n) :
    Alike t (withContent q t.freq a t.code t) where
  rest := rfl
  hsize := hq.hsize
  tables _ := ⟨rfl, rfl⟩
  heap _ := (sameEntries_iff.1 hq).2
  arena _ := ha

/-- A step that leaves the queue and the arena alone. -/
theorem keep (h : Alike s (withContent q f a c s)) (same : (t.pq, t.arena, t.nnode) = (s.pq, s.arena, s.nnode))
    (hrun : inRun t.seq = true → inRun s.seq = true ∧ f' = t.freq ∧ c' = t.code) :
    Alike t (withContent q f' a c' t) := by
  simp only [Prod.mk.injEq] at same
  obtain ⟨hpq, harena, hnnode⟩ := same
  refine ⟨rfl, hpq ▸ h.hsize, fun hr => (hrun hr).2, fun hr => ?_, fun hr => ?_⟩
  · rw [hpq]; exact h.heap (hrun hr).1
  · rw [harena, hnnode]; exact h.arena (hrun hr).1

/-- A step that leaves every array and NNODE alone. -/
theorem keepAll (h : Alike s (withContent q f a c s))
    (same : (t.pq, t.freq, t.arena, t.code, t.nnode) = (s.pq, s.freq, s.arena, s.code, s.nnode))
    (hrun : inRun t.seq = true → inRun s.seq = true) : Alike t (withContent q f a c t) := by
  simp only [Prod.mk.injEq] at same
  obtain ⟨hpq, hfreq, harena, hcode, hnnode⟩ := same
  refine h.keep (by rw [hpq, harena, hnnode]) fun hr => ⟨hrun hr, ?_⟩
  rw [hfreq, hcode]
  exact h.tables (hrun hr)

/-! ## The shared operations -/

/-- Reset and CLEAR (R280, R132). -/
theorem toReset (h : Alike s s') : Alike (toReset s) (toReset s') := by
  obtain ⟨q, f, a, c, rfl⟩ := h.exists_content
  exact of_not_inRun (q := { q with hsize := 0 }) rfl rfl

/-- The fault entry (60_exceptions.md R260). -/
theorem raise (h : Alike s s') (k : ErrKind) (info : CmdWord) : Alike (raise k info s) (raise k info s') := by
  obtain ⟨q, f, a, c, rfl⟩ := h.exists_content
  have hraise : Machine.raise k info (withContent q f a c s) = withContent q f a c (Machine.raise k info s) := by
    by_cases hs : s.seq = .fault
    · rw [raise_fault s k info hs, raise_fault (withContent q f a c s) k info hs]
    · rw [raise_eq s k info hs, raise_eq (withContent q f a c s) k info hs]
      rfl
  rw [hraise]
  exact of_not_inRun (h.hsize.trans (by rw [raise_pq])) (by rw [raise_seq]; rfl)

/-- A malformed or misplaced word (R93). -/
theorem illegalCommand (h : Alike s s') (w : CmdWord) : Alike (illegalCommand w s) (illegalCommand w s') := by
  unfold Machine.illegalCommand respondZero
  split
  · obtain ⟨q, f, a, c, hcontent⟩ := (h.raise .illegalCommand w).exists_content
    have := h.raise .illegalCommand w
    rw [hcontent] at this ⊢
    exact this.keepAll rfl id
  · exact h.raise .illegalCommand w

end Alike

/-- Both outcomes are next states, and these are alike. -/
def AlikeNext (x x' : Result) : Prop := ∃ t t', x = .next t ∧ x' = .next t' ∧ Alike t t'

theorem AlikeNext.intro {t t' : State} {x x' : Result} (hx : x = .next t) (hx' : x' = .next t') (h : Alike t t') :
    AlikeNext x x' := ⟨t, t', hx, hx', h⟩

theorem Alike.next {t t' : State} (h : Alike t t') : AlikeNext (.next t) (.next t') := .intro rfl rfl h

/-! ## Commands -/

/-- Acceptances with effects that are alike. -/
theorem accept_alike {w : CmdWord} {ok : Bool} {legal : List SeqState} {s s' e e' : State} (h : Alike s s')
    (he : ok = true → s.seq ∈ legal → Alike e e') : AlikeNext (accept w ok legal s e) (accept w ok legal s' e') := by
  rw [accept_eq, accept_eq, h.seq_eq]
  refine Alike.next ?_
  split
  · exact h
  · split
    next hl => exact he hl.1 hl.2
    next => exact h.illegalCommand w

/-- BYTE and EOS are legal within a run (R121). -/
theorem inRun_of_legalPass {q : SeqState} (h : q ∈ legalPass) : inRun q = true := by
  revert h
  cases q <;> simp [legalPass, inRun]

/-- The table reads are legal within a run (R121). -/
theorem inRun_of_legalTables {q : SeqState} (h : q ∈ legalTables) : inRun q = true := by
  revert h
  cases q <;> simp [legalTables, inRun]

/-- BYTE in S_PACK raises MissingCode or latches the symbol (R124, R194). -/
theorem packByte_eq (d : Byte) (s : State) : packByte d s =
    if (tableGet s.code d).len = 0 then raise .missingCode (cmdWord 0x2 d) s
    else bpLatch d { s with ctOut := tableGet s.code d } := by
  rcases packByte_cases d s with ⟨h, e⟩ | ⟨h, e⟩
  · rw [e, if_pos h]
  · rw [e, if_neg h]

namespace Alike

variable {s s' : State}

/-- FREQ_INC reads FREQ, which is the same within a run (R141). -/
theorem freqInc (h : Alike s s') (hr : inRun s.seq = true) (d : Byte) : Alike (freqInc d s) (freqInc d s') := by
  obtain ⟨q, a, rfl⟩ := h.exists_content_of_inRun hr
  unfold Machine.freqInc
  change Alike _ (if totalFull s = true then _ else _)
  split
  · exact h.raise _ _
  · exact h.keep rfl fun _ => ⟨hr, rfl, rfl⟩

/-- BYTE in the pack pass reads the code table, which is the same within a run (R124). -/
theorem packByte (h : Alike s s') (hr : inRun s.seq = true) (d : Byte) : Alike (packByte d s) (packByte d s') := by
  obtain ⟨q, a, rfl⟩ := h.exists_content_of_inRun hr
  rw [packByte_eq, packByte_eq]
  change Alike _ (if (tableGet s.code d).len = 0 then _ else _)
  split
  · exact h.raise _ _
  · exact h.keepAll rfl fun _ => hr

/-- The end of the scan pass looks at USC alone (R125). -/
theorem endScan (h : Alike s s') (hr : inRun s.seq = true) : Alike (endScan s) (endScan s') := by
  obtain ⟨q, a, rfl⟩ := h.exists_content_of_inRun hr
  unfold Machine.endScan
  change Alike _ (if s.usc = 0 then _ else _)
  split <;> exact h.keepAll rfl fun _ => hr

/-- The registers RDREG reads are the same (10_state.md R40). -/
theorem regWord (h : Alike s s') (r : Byte) : regWord s' r = regWord s r := by
  have hsize := h.hsize
  obtain ⟨q, f, a, c, rfl⟩ := h.exists_content
  have hq : q.hsize = s.pq.hsize := hsize
  simp only [Machine.regWord, withContent, hq]
  rfl

/-- Equal responses (R94). -/
theorem respond (h : Alike s s') {v v' : Word32} (hv : v' = v) : Alike (respond v s) (respond v' s') := by
  obtain ⟨q, f, a, c, rfl⟩ := h.exists_content
  rw [hv]
  exact h.keepAll rfl id

end Alike

/-- A command (R120 to R132). -/
theorem exec_command_alike {w : CmdWord} {i : Instr} (hi : encode i = some (.cmd w)) {s s' : State} (h : Alike s s') :
    AlikeNext (exec i s) (exec i s') := by
  obtain ⟨q, f, a, c, rfl⟩ := h.exists_content
  cases i with
  | nop => exact accept_alike h fun _ _ => h
  | start => exact accept_alike h fun _ _ => .of_not_inRun h.hsize rfl
  | byte d =>
    refine accept_alike h fun _ hl => ?_
    change Alike _ (if s.seq = .scan then _ else _)
    split
    · exact h.freqInc (inRun_of_legalPass hl) d
    · exact h.packByte (inRun_of_legalPass hl) d
  | eos =>
    refine accept_alike h fun _ hl => ?_
    change Alike _ (if s.seq = .scan then _ else _)
    split
    · exact h.endScan (inRun_of_legalPass hl)
    · exact h.keepAll rfl fun _ => inRun_of_legalPass hl
  | clear => exact accept_alike h fun _ _ => h.toReset
  | selsym x => exact accept_alike h fun _ _ => h.keepAll rfl id
  | abort k => exact accept_alike h fun _ _ => h.raise _ _
  | rdfreq =>
    exact accept_alike h fun _ hl => h.respond (congrArg (tableGet · s.sel) (h.tables (inRun_of_legalTables hl)).1)
  | rdlen =>
    exact accept_alike h fun _ hl => h.respond
      (congrArg (fun c => (tableGet c s.sel).len.setWidth 32) (h.tables (inRun_of_legalTables hl)).2)
  | rdcode x =>
    exact accept_alike h fun _ hl => h.respond
      (congrArg (fun c => codeWord (tableGet c s.sel).bits x) (h.tables (inRun_of_legalTables hl)).2)
  | rdreg r =>
    simp only [exec, execRdreg, h.regWord]
    exact accept_alike h fun _ _ => h.respond rfl
  | _ => cases hi

/-! ## CORE's operations -/

section

variable {s s' : State}

/-- INIT writes or empties what the arrays held before the run (R140). -/
theorem exec_init_alike (h : Alike s s') : AlikeNext (exec .init s) (exec .init s') := by
  obtain ⟨q, f, a, c, rfl⟩ := h.exists_content
  refine Alike.next (.of_sameEntries (q := { q with hsize := 0 }) ⟨rfl, fun j hj => absurd hj (Nat.not_lt_zero j)⟩ ?_)
  intro n hn
  have hleaf : isLeaf n = true := decide_eq_true hn
  rw [arenaGet_leaf _ hleaf, arenaGet_leaf _ hleaf]

/-- TB_LOAD where the leaves fit (R171). -/
theorem exec_tbLoad_alike (h : Alike s s') (hr : inRun s.seq = true) {p : Queue}
    (hp : loadLeaves 0 s.freq.cells s.pq = .ok p) : AlikeNext (exec .tbLoad s) (exec .tbLoad s') := by
  have harena := h.arena hr
  obtain ⟨p', hp', hsame⟩ := (h.sameEntries hr).loadLeaves hp
  obtain ⟨q, a, rfl⟩ := h.exists_content_of_inRun hr
  rw [exec_tbLoad_eq hp, exec_tbLoad_eq (s := withContent q s.freq a s.code s) hp', hsame.mergeOrRoot]
  exact Alike.next (.of_sameEntries hsame harena)

/-- TB_XA and TB_XB on a queue that is not empty (R172, R173). -/
theorem exec_extract_alike (h : Alike s s') (hr : inRun s.seq = true) (hpos : 0 < s.pq.hsize.val) :
    AlikeNext (exec .tbXa s) (exec .tbXa s') ∧ AlikeNext (exec .tbXb s) (exec .tbXb s') := by
  have harena := h.arena hr
  have hentries := h.sameEntries hr
  have hpos' : 0 < s'.pq.hsize.val := hentries.hsize ▸ hpos
  have hroot := hentries.heap 0 hpos
  obtain ⟨q, a, rfl⟩ := h.exists_content_of_inRun hr
  constructor
  · rw [exec_tbXa_eq hpos, exec_tbXa_eq hpos', hroot]
    exact Alike.next (.of_sameEntries hentries.lastToRoot.rootSifted harena)
  · rw [exec_tbXb_eq hpos, exec_tbXb_eq hpos', hroot]
    exact Alike.next (.of_sameEntries hentries.lastToRoot.rootSifted harena)

/-- TB_INS with an arena entry and room in the queue: the same node at NNODE (R174). -/
theorem exec_tbIns_alike (h : Alike s s') (hr : inRun s.seq = true) (hlow : 256 ≤ s.nnode.toNat)
    (hhigh : s.nnode.toNat ≤ 510) (room : s.pq.hsize.val < 256) : AlikeNext (exec .tbIns s) (exec .tbIns s') := by
  have harena := h.arena hr
  have hq := pqInsert_eq ⟨mergedFreq s, s.nnode⟩ room
  obtain ⟨p', hp', hsame⟩ := (h.sameEntries hr).pqInsert hq
  obtain ⟨q, a, rfl⟩ := h.exists_content_of_inRun hr
  obtain ⟨b, hb⟩ := arenaSet_isOk (a := s.arena) (mergedNode s) hlow hhigh
  obtain ⟨b', hb'⟩ := arenaSet_isOk (a := a) (mergedNode s) hlow hhigh
  rw [exec_tbIns_eq hb hq, exec_tbIns_eq (s := withContent q s.freq a s.code s) hb' hp', hsame.mergeOrRoot]
  refine Alike.next (.of_sameEntries hsame fun n hn => ?_)
  obtain ⟨hnew, hother⟩ := arenaSet_ok hb
  obtain ⟨hnew', hother'⟩ := arenaSet_ok hb'
  by_cases hne : n = s.nnode
  · rw [hne, hnew, hnew']
  · have hn' : n < s.nnode + 1 := hn
    rw [hother n hne, hother' n hne]
    exact harena n (by bv_omega)

/-- TB_ROOT with an entry left (R175). -/
theorem exec_tbRoot_alike (h : Alike s s') (hr : inRun s.seq = true) (hpos : 0 < s.pq.hsize.val) :
    AlikeNext (exec .tbRoot s) (exec .tbRoot s') := by
  have hroot := (h.sameEntries hr).heap 0 hpos
  obtain ⟨q, a, rfl⟩ := h.exists_content_of_inRun hr
  change AlikeNext _ (.next { withContent q s.freq a s.code s with
    root := (heapAt (withContent q s.freq a s.code s).pq.heap 0).node, seq := .gen })
  rw [hroot]
  exact Alike.next (h.keepAll rfl fun _ => hr)

/-- CG_GEN reads the nodes of the tree ROOT names, all below NNODE (R191). -/
theorem exec_cgGen_alike (h : Alike s s') (hr : inRun s.seq = true) {u : HuffTree} (hu : IsRootTree s u) :
    AlikeNext (exec .cgGen s) (exec .cgGen s') := by
  have hstored : u.Stored s'.arena :=
    (HuffTree.stored_frame (hu.1.stored u (List.mem_singleton_self u)) (BitVec.le_refl _) (h.arena hr)).1
  obtain ⟨q, a, rfl⟩ := h.exists_content_of_inRun hr
  obtain ⟨c, hc, hown, hother⟩ := genCode_entries hu.2 hu.stored hu.leaves_nodup
  obtain ⟨c', hc', hown', hother'⟩ :=
    genCode_entries (s := withContent q s.freq a s.code s) hu.2 hstored hu.leaves_nodup
  have hsame : c' = c := table_ext fun sym => by
    by_cases hs : sym ∈ u.leaves
    · rw [hown sym hs, hown' sym hs]
    · rw [hother sym hs, hother' sym hs]
      rfl
  simp only [exec, execCgGen, hc, hc', hsame, putCode_ok]
  exact Alike.next (h.keep rfl fun _ => ⟨hr, rfl, rfl⟩)

theorem putBit_withContent (q : Queue) (f : Arr Word32 256) (a : Arr Node 255) (c : Arr CodeEntry 256) (b : Bool)
    (s : State) : putBit b (withContent q f a c s) = withContent q f a c (putBit b s) := by
  by_cases h7 : s.nbits = 7
  · rw [putBit_full b h7, putBit_full b (s := withContent q f a c s) h7]
    rfl
  · rw [putBit_room b h7, putBit_room b (s := withContent q f a c s) h7]
    rfl

/-- BP_EMIT reads the code table (R208). -/
theorem exec_bpEmit_alike (h : Alike s s') (hr : inRun s.seq = true) :
    AlikeNext (exec .bpEmit s) (exec .bpEmit s') := by
  obtain ⟨q, a, rfl⟩ := h.exists_content_of_inRun hr
  rcases bpEmit_cases s with ⟨hl, e⟩ | ⟨hl, hput, e⟩ | ⟨hl, hput, e⟩
  · exact .intro e (if_pos hl) (h.keepAll rfl fun _ => hr)
  · exact .intro e ((if_neg hl).trans (if_pos hput)) h
  · refine .intro e (execBpEmit_putBit (s := withContent q s.freq a s.code s) hl hput) ?_
    rw [putBit_withContent]
    exact h.keepAll (by simp) fun _ => hr

/-- BP_FLUSH (R209). -/
theorem exec_bpFlush_alike (h : Alike s s') (hr : inRun s.seq = true) :
    AlikeNext (exec .bpFlush s) (exec .bpFlush s') := by
  obtain ⟨q, a, rfl⟩ := h.exists_content_of_inRun hr
  rcases bpFlush_cases s with ⟨hn, e⟩ | ⟨hn, hfull, e⟩ | ⟨hn, room, e⟩
  · exact .intro e (if_pos hn) (h.keepAll rfl fun _ => hr)
  · exact .intro e ((if_neg hn).trans (if_pos hfull)) h
  · exact .intro e (execBpFlush_flushByte (s := withContent q s.freq a s.code s) hn room)
      (h.keepAll rfl fun _ => hr)

/-- CORE's operation of a busy state in a run. -/
theorem exec_core_alike (h : Alike s s') (hok : RunOk s) {i : Instr} (hi : opOfState s.seq = some i) :
    AlikeNext (exec i s) (exec i s') := by
  have hbuild := hok.build
  have hforest := hok.forest
  have husc := hok.coreReady.symbols
  have hr : s.seq ≠ .init → inRun s.seq = true := fun hne => by
    revert hi hne; cases s.seq <;> simp [opOfState, inRun]
  unfold BuildOk at hbuild
  unfold ForestOk at hforest
  cases hs : s.seq <;> rw [hs] at hi hbuild hforest husc hr <;> cases hi
  case init => exact exec_init_alike h
  all_goals have hr := hs ▸ hr nofun
  case load =>
    obtain ⟨p, hp⟩ := loadLeaves_room (n := 0) (l := s.freq.cells) (q := s.pq) (by rw [hbuild.1, s.freq.size])
    exact exec_tbLoad_alike h hr hp
  case xa => exact (exec_extract_alike h hr (by omega)).1
  case xb => exact (exec_extract_alike h hr (by omega)).2
  case ins =>
    have := husc rfl
    exact exec_tbIns_alike h hr hbuild.1 (by omega) (by omega)
  case root => exact exec_tbRoot_alike h hr (by omega)
  case gen =>
    obtain ⟨u, hu⟩ := hforest
    exact exec_cgGen_alike h hr hu
  case emit => exact exec_bpEmit_alike h hr
  case flush => exact exec_bpFlush_alike h hr

/-- OUT_POP (45_bit_packer.md R210). -/
theorem exec_outPop_alike (h : Alike s s') : AlikeNext (exec .outPop s) (exec .outPop s') := by
  obtain ⟨q, f, a, c, rfl⟩ := h.exists_content
  cases ho : s.outq with
  | nil =>
    have hnext : ∀ u : State, u.outq = [] → exec .outPop u = .next u := fun u hu => by simp only [exec, execOutPop, hu]
    exact .intro (hnext s ho) (hnext (withContent q f a c s) ho) h
  | cons b rest => exact .intro (outPop_cons ho) (outPop_cons (s := withContent q f a c s) ho) (h.keepAll rfl id)

/-! ## A step -/

/-- No agent's turn looks at the arrays. -/
theorem fetchTurn_withContent (q : Queue) (f : Arr Word32 256) (a : Arr Node 255) (c : Arr CodeEntry 256) (x : Turn)
    (s : State) : fetchTurn x (withContent q f a c s) =
      ((fetchTurn x s).1, withContent q f a c (fetchTurn x s).2) := by
  cases x with
  | rst => rfl
  | core =>
    simp only [fetchTurn, fetchCore, withContent]
    cases decodeSeq (seqCode s.seq) <;> rfl
  | hostOut =>
    simp only [fetchTurn, fetchOut, show pinOutValid (withContent q f a c s) = pinOutValid s from rfl]
    cases pinOutValid s <;> rfl
  | hostCmd =>
    by_cases hb : isBusy s.seq = true
    · have hb' : isBusy (withContent q f a c s).seq = true := hb
      simp only [fetchTurn, fetchCmd, if_pos hb, if_pos hb']
    · have hb' : ¬ isBusy (withContent q f a c s).seq = true := hb
      simp only [fetchTurn, fetchCmd, if_neg hb, if_neg hb', withContent_cmds]
      cases s.cmds with
      | nil => rfl
      | cons w cs => cases hd : decodeCmd w <;> simp only [hd] <;> rfl

/-- Clearing the response port and taking the turn keeps the invariants. -/
theorem RunOk.begun (h : RunOk s) : RunOk (begun s) := by
  obtain ⟨hbuild, hforest, hcodes⟩ := h.treeOk.keep (t := Machine.begun s) rfl
  exact ⟨h.registers.keep rfl le_rfl, h.heap, h.counts.keep rfl id, hbuild, hforest, hcodes⟩

/-- What a step does with what a turn selects. -/
def runAction : Action × State → Result
  | (.run i, u) => exec i u
  | (.malformed w, u) => .next (illegalCommand w u)
  | (.reset, u) => .next (toReset u)
  | (.wait, u) => .next u

theorem step_eq_runAction (hp : s.pqReq = .idle) :
    step s = runAction (fetchTurn (s.turns.head?.getD (defaultTurn s)) (begun s)) := step_turn hp

/-- The turn of one agent. -/
theorem runAction_alike (h : Alike s s') (hok : RunOk s) (x : Turn) :
    AlikeNext (runAction (fetchTurn x s)) (runAction (fetchTurn x s')) := by
  obtain ⟨q, f, a, c, rfl⟩ := h.exists_content
  have hcmds : ∀ cs, Alike { s with cmds := cs } (withContent q f a c { s with cmds := cs }) :=
    fun cs => h.keepAll rfl id
  rw [fetchTurn_withContent]
  rcases fetchTurn_cases x s with e | e | ⟨w, cs, e⟩ | ⟨w, cs, i, hd, e⟩ | ⟨i, hi, e⟩ | e <;> rw [e]
  · exact h.toReset.next
  · exact h.next
  · exact ((hcmds cs).illegalCommand w).next
  · exact exec_command_alike (encode_of_decodeCmd hd) (hcmds cs)
  · exact exec_core_alike h hok hi
  · exact exec_outPop_alike h

end

/-- Settles O59: both states select the same operation (`fetchTurn_withContent`), and it does the same on both
(`runAction_alike`); the response and the bytes are fields no array content touches. -/
theorem unreadContentIsNeverObserved : Obligations.UnreadContentIsNeverObserved := by
  intro s s' t hok h hstep
  have hbegun : Alike (begun s) (begun s') := by
    obtain ⟨q, f, a, c, rfl⟩ := h.exists_content
    exact h.keepAll rfl id
  have hturn := runAction_alike hbegun hok.begun (s.turns.head?.getD (defaultTurn s))
  rw [← step_eq_runAction hok.registers.wires, hstep] at hturn
  have hstep' : step s' = runAction (fetchTurn (s.turns.head?.getD (defaultTurn s)) (begun s')) := by
    obtain ⟨q, f, a, c, rfl⟩ := h.exists_content
    exact step_eq_runAction (s := withContent q f a c s) hok.registers.wires
  obtain ⟨_, t', ⟨⟩, ht', halike⟩ := hturn
  obtain ⟨q, f, a, c, rfl⟩ := halike.exists_content
  exact ⟨_, hstep'.trans ht', halike, rfl, rfl⟩

end Sys2Proof.Machine

/-! PROOFS. SEQ (46_sequencer.md R225 to R228): the rows of the transition relation a step follows, and the number of CORE's
steps from a busy state to a ready one. -/
namespace Sys2Proof.Machine

/-! ## The transition relation -/

/-- SEQ stays, or moves along a row of the transition relation (R225). -/
def SeqMove (q r : SeqState) : Prop := r = q ∨ (q, r) ∈ seqEdges

/-- A fault at the acceptance of a command, which in S_FAULT leaves SEQ alone (R225). -/
theorem seqMove_fault {q : SeqState} (hb : isBusy q = false) : SeqMove q .fault := by
  revert hb
  cases q <;> simp [isBusy, SeqMove, seqEdges]

/-- CLEAR in a ready state (R225). -/
theorem seqMove_idle {q : SeqState} (hb : isBusy q = false) : SeqMove q .idle := by
  revert hb
  cases q <;> simp [isBusy, SeqMove, seqEdges]

/-- TB_LOAD and TB_INS go on with another merge or with the root (R171, R174). -/
theorem seqMove_mergeOrRoot {s : SeqState} (hs : s = .load ∨ s = .ins) (q : Queue) : SeqMove s (mergeOrRoot q) := by
  unfold mergeOrRoot
  rcases hs with rfl | rfl <;> split <;> simp [SeqMove, seqEdges]

section

variable {s t : State}

/-- A command accepted in a ready state. -/
theorem CommandEffect.seqMove {w : CmdWord} (hb : isBusy s.seq = false) (he : CommandEffect w s t) :
    SeqMove s.seq t.seq := by
  cases he with
  | nothing => exact .inl rfl
  | answer v => exact .inl rfl
  | illegal => rw [illegalCommand_seq]; exact seqMove_fault hb
  | raised k info hs hk => rw [raise_seq]; exact seqMove_fault hb
  | start hs => rw [hs]; exact .inr (by simp [seqEdges])
  | count d hs room => exact .inl rfl
  | latch d hs => rw [hs]; exact .inr (by simp [seqEdges])
  | emptyPass hs hu => rw [hs]; exact .inr (by simp [seqEdges])
  | endScan hs hu => rw [hs]; exact .inr (by simp [seqEdges])
  | endPack hs => rw [hs]; exact .inr (by simp [seqEdges])
  | select sym hw => exact .inl rfl
  | clear hw => exact seqMove_idle hb

/-- CORE's operation. A queue fault moves SEQ from every state of the build but S_ROOT, whose operation raises none. -/
theorem CoreEffect.seqMove (hroot : s.seq = .root → t.seq ≠ .fault) (he : CoreEffect s t) : SeqMove s.seq t.seq := by
  cases he with
  | hold => exact .inl rfl
  | load q hs hq => exact seqMove_mergeOrRoot (.inl hs) q
  | insert a q hs ha hq => exact seqMove_mergeOrRoot (.inr hs) q
  | queueFault k hs hk =>
    rw [raise_seq] at hroot ⊢
    revert hs hroot
    cases s.seq <;> simp [stage, SeqMove, seqEdges]
  | emitBit hs hl room => exact .inl (putBit_seq s _)
  | init hs => rw [hs]; exact .inr (by simp [seqEdges])
  | extractA q hs hq => rw [hs]; exact .inr (by simp [seqEdges])
  | extractB q hs hq => rw [hs]; exact .inr (by simp [seqEdges])
  | root hs => rw [hs]; exact .inr (by simp [seqEdges])
  | generate c hs hc => rw [hs]; exact .inr (by simp [seqEdges])
  | emitted hs hl => rw [hs]; exact .inr (by simp [seqEdges])
  | flushed hs hn => rw [hs]; exact .inr (by simp [seqEdges])
  | flushByte hs hn room => rw [hs]; exact .inr (by simp [seqEdges])

/-- TB_ROOT raises nothing (43_tree_builder.md R175). -/
theorem exec_ne_fault_of_root {i : Instr} (hi : opOfState s.seq = some i) (h : exec i s = .next t) (hs : s.seq = .root) :
    t.seq ≠ .fault := by
  rw [hs] at hi
  cases hi
  cases h
  nofun

end

/-- Settles O45: `rst` leads to S_IDLE, and every other step moves SEQ as `CommandEffect.seqMove` and
`CoreEffect.seqMove` say, or leaves it. -/
theorem seqMovesOnlyAsTheTableSays : Obligations.SeqMovesOnlyAsTheTableSays := by
  intro s t hp h
  have stays_or_moves : SeqMove s.seq t.seq → t.seq = s.seq ∨ (s.seq, t.seq) ∈ seqEdges ∨
      (s.turns.head? = some .rst ∧ t.seq = .idle) := fun hm => hm.imp_right .inl
  rcases step_cases hp h with ⟨ht, rfl⟩ | rfl | ⟨hb, w, cs, -, ⟨-, rfl⟩ | ⟨i, hd, hx⟩⟩ | ⟨i, hi, hx⟩ | ⟨ho, hx⟩
  · exact .inr (.inr ⟨ht, rfl⟩)
  · exact .inl rfl
  · exact stays_or_moves (by rw [illegalCommand_seq]; exact seqMove_fault hb)
  · exact stays_or_moves (CommandEffect.seqMove (s := { begun s with cmds := cs }) hb (exec_commandEffect hb hd hx))
  · exact stays_or_moves
      (CoreEffect.seqMove (s := begun s) (exec_ne_fault_of_root hi hx) (exec_coreEffect hi hx))
  · obtain ⟨b, rest, hq⟩ := List.exists_cons_of_ne_nil ho
    cases (outPop_cons (s := begun s) hq).symm.trans hx
    exact .inl rfl

/-! ## The steps left to a ready state -/

section

variable {s t : State}

/-- Where the invariants hold, no step is left exactly in a ready state (R228). -/
theorem BuildOk.coreWork_eq_zero_iff (h : BuildOk s) : isBusy s.seq = false ↔ coreWork s = 0 := by
  unfold BuildOk at h
  unfold coreWork
  cases hs : s.seq <;> rw [hs] at h <;> simp only [isBusy]
  case load =>
    have husc : s.usc.toNat ≠ 0 := fun e => h.2.2 (BitVec.eq_of_toNat_eq e)
    simp [husc]
  all_goals simp

/-- At most 256 symbols take at most 768 steps, and a code of at most 255 bits at most 256 (R228). -/
theorem CoreReady.coreWork_le (h : CoreReady s) : coreWork s ≤ if s.seq = .emit then 256 else 768 := by
  have hbuild := h.build
  have husc := h.symbols
  unfold BuildOk at hbuild
  unfold coreWork
  cases hs : s.seq <;> rw [hs] at hbuild husc <;> simp only [reduceCtorEq, if_true, if_false]
  case idle | init | fault => omega
  all_goals
    have := husc rfl
    omega

/-- What TB_LOAD and TB_INS leave: three steps for each merge of two entries, and two from S_ROOT on. -/
theorem coreWork_of_mergeOrRoot (hs : s.seq = mergeOrRoot s.pq) (hpos : 0 < s.pq.hsize.val) :
    coreWork s + 1 = 3 * s.pq.hsize.val := by
  unfold mergeOrRoot at hs
  split at hs <;> simp only [coreWork, hs] <;> omega

/-- CORE's operation, where it is not held, takes one from the number of steps left (R228). -/
theorem RunOk.coreWork_exec (hok : RunOk s) (hheld : held s = false) {i : Instr} (hi : opOfState s.seq = some i)
    (h : exec i s = .next t) : coreWork t + 1 = coreWork s := by
  have hbuild := hok.build
  have husc := hok.coreReady.symbols
  unfold BuildOk at hbuild
  cases hs : s.seq <;> rw [hs] at hi hbuild husc <;> cases hi
  case init => cases h; simp [coreWork, hs]
  case load =>
    obtain ⟨q, hq⟩ := loadLeaves_room (n := 0) (l := s.freq.cells) (q := s.pq) (by rw [hbuild.1, s.freq.size])
    have hsize := loadLeaves_hsize hq
    have hcount := (hok.counts (by rw [hs]; rfl)).2
    have hne : s.usc.toNat ≠ 0 := fun e => hbuild.2.2 (BitVec.eq_of_toNat_eq e)
    cases (exec_tbLoad_eq hq).symm.trans h
    rw [coreWork_of_mergeOrRoot rfl (by simp only; omega)]
    simp only [coreWork, hs]
    omega
  case xa =>
    cases (exec_tbXa_eq (s := s) (by omega)).symm.trans h
    simp only [coreWork, hs, rootSifted, lastToRoot]
  case xb =>
    cases (exec_tbXb_eq (s := s) (by omega)).symm.trans h
    simp only [coreWork, hs, rootSifted, lastToRoot]
    omega
  case ins =>
    have := husc rfl
    obtain ⟨a, ha⟩ := arenaSet_isOk (a := s.arena) (mergedNode s) hbuild.1 (by omega)
    cases (exec_tbIns_eq ha (pqInsert_eq _ (by omega))).symm.trans h
    rw [coreWork_of_mergeOrRoot rfl (Nat.succ_pos _)]
    simp only [coreWork, hs, rebuilt, appended]
    omega
  case root => cases h; simp [coreWork, hs]
  case gen =>
    obtain ⟨c, -, rfl⟩ := putCode_cases h
    simp [coreWork, hs]
  case emit =>
    rcases bpEmit_cases s with ⟨hl, e⟩ | ⟨hl, hput, -⟩ | ⟨hl, -, e⟩
    · cases e.symm.trans h
      simp [coreWork, hs, hl]
    · exact absurd ((held_emit hs hl).trans hput) (Bool.not_eq_true _ ▸ hheld)
    · cases e.symm.trans h
      simp only [coreWork, putBit_seq, hs]
      bv_omega
  case flush =>
    rcases bpFlush_cases s with ⟨hn, e⟩ | ⟨hn, hfull, -⟩ | ⟨-, -, e⟩
    · cases e.symm.trans h
      simp [coreWork, hs]
    · exact absurd ((held_flush hs hn).trans hfull) (Bool.not_eq_true _ ▸ hheld)
    · cases e.symm.trans h
      simp [coreWork, hs]

end

/-- Settles O58: CORE's turn runs the operation of SEQ, which `RunOk.coreWork_exec` counts; the invariants hold after it
too, so the count is 0 exactly in a ready state. -/
theorem busySequencesEnd : Obligations.BusySequencesEnd := by
  intro s t ts hok hbusy hheld hturns hstep
  obtain ⟨i, hi⟩ := Option.isSome_iff_exists.1 ((opOfState_isSome s.seq).trans hbusy)
  have hd : decodeSeq (seqCode s.seq) = .ok i := by rw [decodeSeq_seqCode, hi]
  have hexec : exec i (begun s) = .next t := by
    rw [← hstep, begun, hturns]
    exact (step_eq_exec_of_turn hok.registers.wires hturns (fetchTurn_core_run hd)).symm
  exact ⟨hok.begun.coreWork_exec hheld hi hexec, hok.coreReady.coreWork_le,
    (stepKeepsTheRunInvariant s t hok hstep).build.coreWork_eq_zero_iff⟩

end Sys2Proof.Machine

/-! PROOFS. The tree ROOT names once the code table is complete (43_tree_builder.md R178, 46_sequencer.md R231, R232): no
code of it begins another, no other tree is stored under ROOT, and its nodes are the arena's entries below NNODE. -/
namespace Sys2Proof.Machine

/-! ## Bit-strings as table entries -/

theorem bitsValue_concat (c : List Bool) (b : Bool) :
    bitsValue (c ++ [b]) = (bitsValue c <<< 1) ||| (BitVec.ofBool b).setWidth 256 := by
  rw [bitsValue, List.foldl_append]
  rfl

/-- The last bit of a bit-string is bit 0 of its value, and above the first one there is none (20_memory.md R64). -/
theorem getLsbD_bitsValue {c : List Bool} (hc : c.length ≤ 256) (k : Nat) :
    (bitsValue c).getLsbD k = c.reverse.getD k false := by
  induction c using List.reverseRecOn generalizing k with
  | nil => simp [bitsValue]
  | append_singleton c b ih =>
    rw [List.length_append, List.length_singleton] at hc
    rw [bitsValue_concat, List.reverse_concat, BitVec.getLsbD_or, BitVec.getLsbD_shiftLeft]
    cases k with
    | zero => cases b <;> simp
    | succ k =>
      have ih := ih (by omega) k
      by_cases hk : k + 1 < 256
      · cases b <;> simp [hk, ih]
      · have hnone : (b :: c.reverse).getD (k + 1) false = false :=
          List.getD_eq_default _ _ (by simp only [List.length_cons, List.length_reverse]; omega)
        rw [hnone]
        cases b <;> simp [hk]

/-- The bits above a code are 0 (44_code_table.md R195 (d)). -/
theorem bitsValue_lt {c : List Bool} (hc : c.length ≤ 256) : (bitsValue c).toNat < 2 ^ c.length := by
  refine Nat.lt_pow_two_of_testBit _ fun k hk => ?_
  rw [BitVec.testBit_toNat, getLsbD_bitsValue hc]
  simp [hk]

theorem len_entryOf {c : List Bool} (hc : c.length < 256) : (entryOf c).len.toNat = c.length := by
  rw [entryOf, BitVec.toNat_ofNat, Nat.mod_eq_of_lt hc]

/-- An entry holds the code it was made from (R64, R100). -/
theorem codeOf_entryOf {c : List Bool} (hc : c.length < 256) : codeOf (entryOf c) = c := by
  rw [codeOf, len_entryOf hc]
  refine List.ext_getElem (by simp) fun j _ hj => ?_
  simp only [List.getElem_map, List.getElem_range, entryOf, getLsbD_bitsValue hc.le]
  rw [List.getD_eq_getElem _ _ (by rw [List.length_reverse]; omega), List.getElem_reverse]
  congr 1
  omega

namespace HuffTree

/-! ## Paths -/

/-- No path to a leaf begins the path to another (R195 (b)). -/
theorem eq_of_path_prefix {t : HuffTree} {p q : Byte × List Bool} (hp : p ∈ t.paths) (hq : q ∈ t.paths)
    (h : p.2 <+: q.2) : p = q := by
  induction t generalizing p q with
  | leaf sym => rw [List.mem_singleton.1 hp, List.mem_singleton.1 hq]
  | node id l r hl hr =>
    rcases List.mem_append.1 hp with hp | hp <;> rcases List.mem_append.1 hq with hq | hq <;>
      obtain ⟨p', hp', rfl⟩ := List.mem_map.1 hp <;> obtain ⟨q', hq', rfl⟩ := List.mem_map.1 hq <;>
      obtain ⟨hbit, htail⟩ := List.cons_prefix_cons.1 h
    · rw [hl hp' hq' htail]
    · cases hbit
    · cases hbit
    · rw [hr hp' hq' htail]

/-- In a tree of two leaves or more every path has an edge (R190). -/
theorem path_ne_nil {id : NodeId} {l r : HuffTree} {p : Byte × List Bool} (hp : p ∈ (node id l r).paths) :
    p.2 ≠ [] := by
  rcases List.mem_append.1 hp with hp | hp <;> obtain ⟨q, -, rfl⟩ := List.mem_map.1 hp <;> nofun

/-! ## Trees in the arena -/

section

variable {a : Arr Node 255}

/-- Two trees the arena holds under one root are the same tree (R178 (c)). -/
theorem eq_of_stored {t u : HuffTree} (ht : t.Stored a) (hu : u.Stored a) (hroot : u.rootId = t.rootId) : u = t := by
  induction t generalizing u with
  | leaf sym =>
    cases u with
    | leaf sym' => rw [← leafSym_leafId sym', ← leafSym_leafId sym]; exact congrArg (fun n => leaf (leafSym n)) hroot
    | node id' l' r' =>
      obtain ⟨⟨f, hget⟩, -⟩ := hu
      have hid : id' = leafId sym := hroot
      rw [hid, arenaGet_leaf a (isLeaf_leafId sym)] at hget
      cases hget
  | node id l r hl hr =>
    obtain ⟨⟨f, hget⟩, hsl, hsr⟩ := ht
    cases u with
    | leaf sym' =>
      have hid : leafId sym' = id := hroot
      rw [← hid, arenaGet_leaf a (isLeaf_leafId sym')] at hget
      cases hget
    | node id' l' r' =>
      obtain ⟨⟨f', hget'⟩, hsl', hsr'⟩ := hu
      obtain rfl : id' = id := hroot
      have hnode := Except.ok.inj (hget.symm.trans hget')
      rw [Node.mk.injEq] at hnode
      rw [hl hsl hsl' hnode.2.1.symm, hr hsr hsr' hnode.2.2.symm]

/-- Each Internal node of a stored tree is the root of a stored tree over some of its leaves. -/
theorem exists_subtree {t : HuffTree} (ht : t.Stored a) {n : NodeId} (hn : n ∈ t.inner) :
    ∃ u : HuffTree, u.rootId = n ∧ u.Stored a ∧ ∀ x ∈ u.leaves, x ∈ t.leaves := by
  induction t with
  | leaf sym => cases hn
  | node id l r hl hr =>
    have hsub := ht
    obtain ⟨-, hsl, hsr⟩ := hsub
    rcases List.mem_cons.1 hn with rfl | hn
    · exact ⟨_, rfl, ht, fun _ => id⟩
    · rcases List.mem_append.1 hn with hn | hn
      · obtain ⟨u, hroot, hu, hsub⟩ := hl hsl hn
        exact ⟨u, hroot, hu, fun x hx => List.mem_append_left _ (hsub x hx)⟩
      · obtain ⟨u, hroot, hu, hsub⟩ := hr hsr hn
        exact ⟨u, hroot, hu, fun x hx => List.mem_append_right _ (hsub x hx)⟩

/-- An Internal node is in no two disjoint subtrees: the tree under it would have its leaves in both. -/
theorem not_mem_inner_of_disjoint {t u : HuffTree} (ht : t.Stored a) (hu : u.Stored a)
    (hd : ∀ x ∈ t.leaves, ∀ y ∈ u.leaves, x ≠ y) {n : NodeId} (hn : n ∈ t.inner) : n ∉ u.inner := by
  intro hn'
  obtain ⟨v, hv, hvs, hvt⟩ := exists_subtree ht hn
  obtain ⟨w, hw, hws, hwu⟩ := exists_subtree hu hn'
  obtain rfl := eq_of_stored hvs hws (hw.trans hv.symm)
  obtain ⟨x, hx⟩ := List.exists_mem_of_length_pos w.length_leaves_pos
  exact hd x (hvt x hx) x (hwu x hx) rfl

/-- Distinct leaves make distinct Internal nodes: a root that came again in one of its subtrees would have all the leaves
there (R178 (d)). -/
theorem inner_nodup {t : HuffTree} (ht : t.Stored a) (hd : t.leaves.Nodup) : t.inner.Nodup := by
  induction t with
  | leaf sym => exact List.nodup_nil
  | node id l r hl hr =>
    have hsub := ht
    obtain ⟨-, hsl, hsr⟩ := hsub
    obtain ⟨hdl, hdr, hdisjoint⟩ := List.nodup_append.1 hd
    refine List.nodup_cons.2 ⟨fun hid => ?_, List.nodup_append.2 ⟨hl hsl hdl, hr hsr hdr, fun x hx y hy => ?_⟩⟩
    · obtain ⟨x, hx⟩ := List.exists_mem_of_length_pos l.length_leaves_pos
      obtain ⟨y, hy⟩ := List.exists_mem_of_length_pos r.length_leaves_pos
      rcases List.mem_append.1 hid with hid | hid
      · obtain ⟨u, hroot, hu, hleaves⟩ := exists_subtree hsl hid
        obtain rfl := eq_of_stored ht hu hroot
        exact hdisjoint y (hleaves y (List.mem_append_right _ hy)) y hy rfl
      · obtain ⟨u, hroot, hu, hleaves⟩ := exists_subtree hsr hid
        obtain rfl := eq_of_stored ht hu hroot
        exact hdisjoint x hx x (hleaves x (List.mem_append_left _ hx)) rfl
    · rintro rfl
      exact not_mem_inner_of_disjoint hsl hsr hdisjoint hx hy

theorem length_inner_add_one (t : HuffTree) : t.inner.length + 1 = t.leaves.length := by
  induction t with
  | leaf sym => rfl
  | node id l r hl hr =>
    simp only [inner, leaves, List.length_cons, List.length_append]
    omega

/-- A stored tree's Internal nodes are entries of the arena below NNODE (10_state.md R36, R28). -/
theorem mem_inner_bounds {t : HuffTree} (ht : t.Stored a) {m : NodeId} (hb : t.Below m) {n : NodeId} (hn : n ∈ t.inner) :
    256 ≤ n.toNat ∧ n.toNat < m.toNat := by
  induction t with
  | leaf sym => cases hn
  | node id l r hl hr =>
    obtain ⟨⟨f, hget⟩, hsl, hsr⟩ := ht
    obtain ⟨hid, hbl, hbr⟩ := hb
    rcases List.mem_cons.1 hn with rfl | hn
    · refine ⟨?_, hid⟩
      by_contra hlow
      have hleaf : isLeaf n = true := (isLeaf_iff n).2 (by omega)
      cases (arenaGet_leaf a hleaf).symm.trans hget
    · rcases List.mem_append.1 hn with hn | hn
      · exact hl hsl hbl hn
      · exact hr hsr hbr hn

end

end HuffTree

/-! ## The tree under ROOT -/

namespace HuffTree

/-- The code of a leaf is not empty and no longer than the register holds: its path, or the one bit of a tree of one
leaf (R190, R193). -/
theorem exists_code {t : HuffTree} (hd : t.leaves.Nodup) {x : Byte} (hx : x ∈ t.leaves) :
    ∃ c, t.entry x = entryOf c ∧ 0 < c.length ∧ c.length < 256 := by
  cases t with
  | leaf only => exact ⟨[false], if_pos (List.mem_singleton.1 hx), Nat.one_pos, by decide⟩
  | node id l r =>
    obtain ⟨path, hpath, he⟩ := entry_node_of_mem hx
    exact ⟨path, he, List.length_pos_iff.2 (path_ne_nil hpath),
      (length_path_lt hpath).trans_le (length_le_of_nodup hd)⟩

/-- Exactly the leaves have a code (R195 (a)). -/
theorem len_entry_ne_zero_iff {t : HuffTree} (hd : t.leaves.Nodup) (x : Byte) :
    (t.entry x).len ≠ 0 ↔ x ∈ t.leaves := by
  refine ⟨fun hlen => by_contra fun hx => hlen ?_, fun hx hlen => ?_⟩
  · rw [t.entry_of_notMem hx]
  · obtain ⟨c, he, hpos, hlt⟩ := exists_code hd hx
    have := len_entryOf hlt
    rw [← he, hlen] at this
    exact hpos.ne this

/-- No code begins another (R195 (b)). -/
theorem not_codeOf_entry_prefix {t : HuffTree} (hd : t.leaves.Nodup) {x y : Byte} (hx : x ∈ t.leaves)
    (hy : y ∈ t.leaves) (hne : x ≠ y) : ¬ codeOf (t.entry x) <+: codeOf (t.entry y) := by
  cases t with
  | leaf only => exact absurd ((List.mem_singleton.1 hx).trans (List.mem_singleton.1 hy).symm) hne
  | node id l r =>
    obtain ⟨p, hp, hpx⟩ := entry_node_of_mem hx
    obtain ⟨q, hq, hqy⟩ := entry_node_of_mem hy
    have hlt : ∀ {z : Byte × List Bool}, z ∈ (node id l r).paths → z.2.length < 256 := fun hz =>
      (length_path_lt hz).trans_le (length_le_of_nodup hd)
    rw [hpx, hqy, codeOf_entryOf (hlt hp), codeOf_entryOf (hlt hq)]
    exact fun h => hne (congrArg Prod.fst (eq_of_path_prefix hp hq h))

/-- The bits above a code are 0 (R195 (d)). -/
theorem bits_entry_lt {t : HuffTree} (hd : t.leaves.Nodup) (x : Byte) :
    (t.entry x).bits.toNat < 2 ^ (t.entry x).len.toNat := by
  by_cases hx : x ∈ t.leaves
  · obtain ⟨c, he, -, hlt⟩ := exists_code hd hx
    rw [he, len_entryOf hlt]
    exact bitsValue_lt hlt.le
  · rw [t.entry_of_notMem hx]
    decide

end HuffTree

/-- Settles O55: the code table holds the entries of the tree under ROOT, whose leaves are the present symbols. -/
theorem codesArePrefixFree : Obligations.CodesArePrefixFree := by
  intro s hok hc
  obtain ⟨t, ht, hentry⟩ := hok.codes.2 hc
  have hd := ht.leaves_nodup
  have hpresent : ∀ x, tableGet s.freq x ≠ 0 ↔ x ∈ t.leaves := fun x =>
    mem_presentSyms.symm.trans ht.leaves_perm.mem_iff.symm
  refine ⟨fun x => ?_, fun x y hne hx hy => ?_, fun x => ?_⟩
  · rw [hentry, hpresent, HuffTree.len_entry_ne_zero_iff hd]
  · rw [hentry, hentry]
    exact HuffTree.not_codeOf_entry_prefix hd ((hpresent x).1 hx) ((hpresent y).1 hy) hne
  · rw [hentry]
    exact HuffTree.bits_entry_lt hd x

/-- The Internal nodes of the tree under ROOT are all the arena's entries below NNODE (R178 (d)). -/
theorem IsRootTree.inner_perm {s : State} {t : HuffTree} (ht : IsRootTree s t) {n : Nat}
    (hlength : t.leaves.length = n + 1) (hnnode : s.nnode.toNat = 256 + n) :
    t.inner.Perm ((List.range n).map fun k => BitVec.ofNat 9 (256 + k)) := by
  obtain ⟨hstored, -, hbelow⟩ := ht.1.stored t (List.mem_singleton_self t)
  have hsub : t.inner ⊆ (List.range n).map fun k => BitVec.ofNat 9 (256 + k) := fun m hm => by
    obtain ⟨hlow, hhigh⟩ := HuffTree.mem_inner_bounds hstored hbelow hm
    refine List.mem_map.2 ⟨m.toNat - 256, List.mem_range.2 (by omega), ?_⟩
    rw [Nat.add_sub_cancel' hlow, BitVec.ofNat_toNat, BitVec.setWidth_eq]
  refine ((HuffTree.inner_nodup hstored ht.leaves_nodup).subperm hsub).perm_of_length_le ?_
  have := t.length_inner_add_one
  rw [List.length_map, List.length_range]
  omega

/-- Settles O57: the tree is the one the invariants give (`RunOk.codedTree`), alone under ROOT by
`HuffTree.eq_of_stored`, with the Internal nodes `IsRootTree.inner_perm` counts. -/
theorem treeHasUscLeaves : Obligations.TreeHasUscLeaves := by
  intro s hok hc husc
  obtain ⟨id, l, r, ht, hentry⟩ := hok.codedTree hc husc
  obtain ⟨-, -, hnnode⟩ := ((treeOk_iff_codedOk hc).1 hok.treeOk).build
  have hleaves : (HuffTree.node id l r).leaves.length = s.usc.toNat :=
    ht.leaves_perm.length_eq.trans (hok.counts (inRun_of_coded hc)).2.symm
  exact ⟨by omega, _, ht.2, ht.stored, fun u hroot hu => HuffTree.eq_of_stored ht.stored hu (hroot.trans ht.2.symm),
    hleaves, ht.leaves_perm, ht.inner_perm (by omega) (by omega), hentry⟩

end Sys2Proof.Machine

/-! PROOFS. Reset and CLEAR (70_reset_and_hazards.md R280 to R282): the state both leave, and that the state after reset
meets the invariants of a run. -/
namespace Sys2Proof.Machine

/-! ## The turn of `rst` and CLEAR -/

/-- `rst` in its turn resets the registers, whatever SEQ is (R280). -/
theorem step_rst {s : State} {ts : List Turn} (hp : s.pqReq = .idle) (ht : s.turns = .rst :: ts) :
    step s = .next (toReset { s with turns := ts, rsp := none }) := by
  rw [step_turn hp, ht]
  rfl

/-- CLEAR in a ready state has the effect of `rst` (R132, R282). -/
theorem exec_clear {s : State} (hb : isBusy s.seq = false) : exec .clear s = .next (toReset s) :=
  accept_legal _ _ hb rfl (mem_legalReady hb)

/-- After reset STATUS is 0: S_IDLE, no error and OUTQ empty (R281). -/
theorem statusWord_toReset (s : State) : statusWord (toReset s) = 0 :=
  BitVec.eq_of_toNat_eq (statusWord_toNat _)

/-- Settles O8: the state is `toReset`'s own, ready, and its register 0 is STATUS. -/
theorem rstResetsEveryScalarRegister : Obligations.RstResetsEveryScalarRegister := by
  intro s ts hp ht
  have hstatus : exec (.rdreg 0) (toReset { s with turns := ts, rsp := none }) = _ :=
    exec_rdreg_answer rfl (congrArg some (statusWord_toReset _))
  exact ⟨_, step_rst hp ht, rfl, rfl, rfl, rfl, rfl, rfl, hstatus⟩

/-- Settles O14: in a ready state CLEAR and the turn of `rst` both leave `toReset`'s state; a busy state holds CLEAR. -/
theorem clearEqualsReset : Obligations.ClearEqualsReset := by
  refine ⟨fun s hb => ⟨exec_clear hb, fun ts hp ht => ?_⟩, fun s hb => exec_busy (i := .clear) rfl hb⟩
  rw [step_rst hp ht, exec_clear (s := { s with turns := ts, rsp := none }) hb]

/-! ## The invariants after reset -/

/-- The registers after reset are in their ranges and in step with S_IDLE (R280, R281). -/
theorem registersOk_reset : RegistersOk State.reset where
  depth := Nat.le_refl 1
  outq := Nat.zero_le _
  acc := Nat.zero_lt_one
  curLen := fun _ => rfl
  faultErr := nofun
  okErr := fun _ => ⟨rfl, .inl rfl⟩
  wires := rfl

/-- Settles O49: the registers by `registersOk_reset`, the queue is empty, and in S_IDLE the other invariants ask
nothing. -/
theorem resetMeetsTheInvariants : Obligations.ResetMeetsTheInvariants where
  registers := registersOk_reset
  heap := heapOrdered_of_empty rfl
  counts := nofun
  build := trivial
  forest := trivial
  codes := ⟨by decide, nofun⟩

end Sys2Proof.Machine

/-! PROOFS. Faults (60_exceptions.md R250 to R263): the operations that raise and the three registers they write, and
that in S_FAULT the first fault is kept. -/
namespace Sys2Proof.Machine

/-! ## The operations that raise -/

/-- BYTE at the limit of TOTAL is the fault LengthOverflow (R255). -/
theorem exec_byte_overflow {s : State} (d : Byte) (hs : s.seq = .scan) (hfull : s.total.toNat = 2 ^ 32 - 1) :
    exec (.byte d) s =
      .next { s with err := .lengthOverflow, errInfo := 0x200 + d.setWidth 12, seq := .fault } := by
  rw [exec_byte_scan d hs, freqInc_full d ((totalFull_iff s).2 hfull) (by simp [hs])]

/-- BYTE of a symbol without a code is the fault MissingCode (R254). -/
theorem exec_byte_missing {s : State} (d : Byte) (hs : s.seq = .pack) (hlen : (tableGet s.code d).len = 0) :
    exec (.byte d) s = .next { s with err := .missingCode, errInfo := 0x200 + d.setWidth 12, seq := .fault } := by
  obtain ⟨-, hraise⟩ | ⟨hcode, -⟩ := packByte_cases d s
  · rw [exec_byte_pack d hs, hraise, raise_eq s _ _ (by simp [hs]), cmdWord_byte]
  · exact absurd hlen hcode

/-- TB_XA on an empty queue raises QueueEmpty (R257). -/
theorem exec_tbXa_empty {s : State} (h0 : s.pq.hsize.val = 0) : exec .tbXa s = .next (raise .queueEmpty 0 s) := by
  obtain ⟨q, hq, -⟩ | ⟨-, hraise⟩ := execTbXa_cases s
  · exact absurd h0 (pqExtractMin_ok hq).1
  · exact hraise

/-- TB_XB on an empty queue raises QueueEmpty (R257). -/
theorem exec_tbXb_empty {s : State} (h0 : s.pq.hsize.val = 0) : exec .tbXb s = .next (raise .queueEmpty 0 s) := by
  obtain ⟨q, hq, -⟩ | ⟨-, hraise⟩ := execTbXb_cases s
  · exact absurd h0 (pqExtractMin_ok hq).1
  · exact hraise

/-- TB_INS on a full queue raises QueueFull, and its arena write is discarded (R258, R260). -/
theorem exec_tbIns_full {s : State} (hfull : s.pq.hsize.val = 256) (hlow : 256 ≤ s.nnode.toNat)
    (hhigh : s.nnode.toNat ≤ 510) : exec .tbIns s = .next (raise .queueFull 0 s) := by
  obtain ⟨a, q, -, hq, -⟩ | ⟨-, hraise⟩ | ⟨f, hf, -⟩ := execTbIns_cases s
  · exact absurd hfull (pqInsert_ok hq).1.ne
  · exact hraise
  · obtain ⟨a, ha⟩ := arenaSet_isOk (a := s.arena) (mergedNode s) hlow hhigh
    cases ha.symm.trans hf

/-- TB_LOAD of more leaves than fit raises QueueFull, and the leaves that did fit are discarded (R258, R260). -/
theorem exec_tbLoad_full {s : State} (hmore : 256 < s.pq.hsize.val + (presentSyms s.freq).length) :
    exec .tbLoad s = .next (raise .queueFull 0 s) := by
  obtain ⟨q, hq, -⟩ | ⟨k, hk, hraise⟩ := execTbLoad_cases s
  · have := loadLeaves_hsize hq
    have := hsize_le q
    omega
  · exact loadLeaves_error hk ▸ hraise

/-- Settles O43: `raise` by its two cases, BYTE by its two passes, and the builder's operations raise a queue fault on
the state they began with. -/
theorem faultEntryWritesThreeRegisters : Obligations.FaultEntryWritesThreeRegisters := by
  refine ⟨fun k info s => ⟨raise_eq s k info, raise_fault s k info, ?pin⟩, fun s d => exec_byte_overflow d,
    fun s d => exec_byte_missing d, fun s hs h0 => ⟨?xa, ?xb⟩, fun s hs hfull hlow hhigh => ?ins,
    fun s hs hmore => ?load⟩
  case pin => simp [pinFault]
  case xa => rw [exec_tbXa_empty h0, raise_eq s _ _ hs]
  case xb => rw [exec_tbXb_empty h0, raise_eq s _ _ hs]
  case ins => rw [exec_tbIns_full hfull hlow hhigh, raise_eq s _ _ hs]
  case load => rw [exec_tbLoad_full hmore, raise_eq s _ _ hs]

/-! ## The first fault is kept -/

section

variable {s t : State}

/-- In S_FAULT an accepted word other than CLEAR can write SEL and the response, and nothing else (R261, R263). -/
theorem CommandEffect.keepsFault {w : CmdWord} (hs : s.seq = .fault) (hw : w ≠ 0x400) (he : CommandEffect w s t) :
    t = { s with sel := t.sel, rsp := t.rsp } := by
  cases he with
  | nothing => rfl
  | answer v => rfl
  | illegal => rw [illegalCommand_fault s w hs]
  | select sym _ => rfl
  | clear h => exact absurd h hw
  | raised k info hne hk => exact absurd hs hne
  | start hq | count _ hq | latch _ hq | emptyPass hq | endScan hq | endPack hq => cases hs.symm.trans hq

/-- In S_FAULT, as in every ready state, CORE has no step (46_sequencer.md R226). -/
theorem CoreEffect.eq_of_fault (hs : s.seq = .fault) (he : CoreEffect s t) : t = s := by
  cases he with
  | hold => rfl
  | queueFault k hstage hk => rw [hs] at hstage; cases hstage
  | init hq | load _ hq | extractA _ hq | extractB _ hq | insert _ _ hq | root hq | generate _ hq
  | emitted hq | emitBit hq | flushed hq | flushByte hq => cases hs.symm.trans hq

end

/-- Settles O44: without `rst` a step is one of `StepEffect`; in S_FAULT a word other than CLEAR writes SEL and the
response, CORE writes nothing and OUT_POP moves a byte. -/
theorem firstFaultIsKept : Obligations.FirstFaultIsKept := by
  intro s t hs hp hstep hrst hclear
  cases step_effect hp hstep with
  | reset ht => exact absurd ht hrst
  | wait => rfl
  | @command w cs _ hb hc he =>
    have hw : w ≠ 0x400 := fun e => hclear (by rw [hc, e]; rfl)
    rw [CommandEffect.keepsFault (s := { begun s with cmds := cs }) hs hw he]
    rfl
  | core he =>
    cases CoreEffect.eq_of_fault (s := begun s) hs he
    rfl
  | pop ho => rfl

end Sys2Proof.Machine

/-! PROOFS. The hold of the emission (70_reset_and_hazards.md R285): a held operation leaves the state as it is, so with
nothing popped no number of steps gets on. -/
namespace Sys2Proof.Machine

section

variable {s : State}

/-- The operation of a held state leaves it as it is (R208, R209). -/
theorem exec_of_held (h : held s = true) : ∃ i, opOfState s.seq = some i ∧ exec i s = .next s := by
  cases hs : s.seq
  case emit =>
    have hl : s.curLen ≠ 0 := fun e => by simp [held, hs, e] at h
    exact ⟨.bpEmit, rfl, (if_neg hl).trans (if_pos ((held_emit hs hl).symm.trans h))⟩
  case flush =>
    have hn : s.nbits ≠ 0 := fun e => by simp [held, hs, e] at h
    exact ⟨.bpFlush, rfl, (if_neg hn).trans (if_pos ((held_flush hs hn).symm.trans h))⟩
  all_goals simp [held, hs] at h

/-- With no turn listed and HOST-OUT not draining, the next turn in a busy state is CORE's (log 3). -/
theorem defaultTurn_core (hb : isBusy s.seq = true) (hdrain : s.drain = false) : defaultTurn s = .core := by
  simp [defaultTurn, hdrain, hb]

/-- A held state that nothing drains steps to itself (R285). -/
theorem step_of_held (hheld : held s = true) (hp : s.pqReq = .idle) (ht : s.turns = []) (hdrain : s.drain = false)
    (hrsp : s.rsp = none) : step s = .next s := by
  obtain ⟨i, hi, hexec⟩ := exec_of_held hheld
  have hb : isBusy s.seq = true := by rw [← opOfState_isSome, hi]; rfl
  have hd : decodeSeq (seqCode s.seq) = .ok i := by rw [decodeSeq_seqCode, hi]
  have hsame : { s with rsp := none, turns := [] } = s := by rw [← hrsp, ← ht]
  rw [step_defaultTurn hp ht, defaultTurn_core hb hdrain, 
    step_eq_exec_of_turn (s := { s with turns := [.core] }) hp rfl (fetchTurn_core_run hd)]
  exact (congrArg (exec i) hsame).trans hexec

end

/-- A run from a state that steps to itself stays there. -/
theorem run_of_step_self {M : Host.Core} {s : M.State} (h : M.step s = .next s) (k : Nat) : M.run k s = .next s := by
  induction k with
  | zero => rfl
  | succ k ih => simp only [Host.Core.run, h, ih]

/-- Settles O42: by `step_of_held` the state steps to itself, any number of times. -/
theorem undrainedOutputHoldsForEver : Obligations.UndrainedOutputHoldsForEver :=
  fun _ hheld hp ht hdrain hrsp => run_of_step_self (M := Sys2Proof.core) (step_of_held hheld hp ht hdrain hrsp)

end Sys2Proof.Machine
